-- ==== Sys2Proof/Word.lean ====
section
/-! DEFINITION. The word types of BIGINT-CORE (00_scope.md R6, R8). -/

namespace Sys2Proof

/-- A magnitude word, a port register or a command word: `W = 32` bits (R6). -/
abbrev Word := BitVec 32

/-- One byte of `BUF` (R34). -/
abbrev Byte := BitVec 8

/-- The contents of a scalar register: `XW = 64` bits (R6, R25). -/
abbrev Scalar := BitVec 64

/-- The base `B = 2^32` of magnitudes (R6). -/
abbrev wordBase : Nat := 4294967296

end Sys2Proof
end

