-- ==== Sys2Proof/Syntax.lean ====
section
/-! DEFINITION. The 41 commands of BIGINT-CORE, one constructor per row of spec/opcode_table.json
(30_encoding.md R96). -/

namespace Sys2Proof

/-- The index of a value register, `V0` to `V15` (R21, R93). -/
abbrev VReg := Fin 16

/-- The index of a scalar register, `X0` to `X15` (R25, R93). -/
abbrev XReg := Fin 16

/-- The commands, with the operands of R96 in the assembler's order (R99): destinations, operand A, operand B. -/
inductive Instr where
  | nop
  | const (vd : VReg) (k : BitVec 16)
  | mov (vd va : VReg)
  | free (vd : VReg)
  | xli (xd : XReg) (imm : BitVec 16)
  | frombytes (vd : VReg)
  | fromwords (vd : VReg)
  | fromint64 (vd : VReg) (xa : XReg)
  | cmp (xd : XReg) (va vb : VReg)
  | min (vd va vb : VReg)
  | max (vd va vb : VReg)
  | add (vd va vb : VReg)
  | sub (vd va vb : VReg)
  | neg (vd va : VReg)
  | abs (vd va : VReg)
  | mul (vd va vb : VReg)
  | divrem (vq vr va vb : VReg)
  | div (vd va vb : VReg)
  | rem (vd va vb : VReg)
  | mod (vd va vb : VReg)
  | pow (vd va : VReg) (xb : XReg)
  | and (vd va vb : VReg)
  | or (vd va vb : VReg)
  | xor (vd va vb : VReg)
  | andnot (vd va vb : VReg)
  | not (vd va : VReg)
  | testbit (xd : XReg) (va : VReg) (xb : XReg)
  | setbit (vd va : VReg) (xb : XReg)
  | clrbit (vd va : VReg) (xb : XReg)
  | flipbit (vd va : VReg) (xb : XReg)
  | shl (vd va : VReg) (xb : XReg)
  | shr (vd va : VReg) (xb : XReg)
  | tobytes (va : VReg)
  | tozfbytes (va : VReg) (xb : XReg)
  | bitlen (xd : XReg) (va : VReg)
  | bitcnt (xd : XReg) (va : VReg)
  | maglen (xd : XReg) (va : VReg)
  | signum (xd : XReg) (va : VReg)
  | magwf (xd : XReg) (va : VReg) (xb : XReg)
  | magwr (xd : XReg) (va : VReg) (xb : XReg)
  | wordat (xd : XReg) (va : VReg) (xb : XReg)
  deriving DecidableEq, Repr

end Sys2Proof
end

