-- ==== Sys2Proof/WellFormed.lean ====
section
/-! DEFINITION. Which terms of `Instr` are commands: the two operand conditions that the types of the fields do
not carry (30_encoding.md R94, R95 step 3, R97). -/

namespace Sys2Proof

/-- `CONST` accepts only `k` in 0 to 3 (R94); `DIVREM` needs two different destinations (R95 step 3). -/
def Instr.wellFormed : Instr → Bool
  | .const _ k => k.toNat ≤ 3
  | .divrem vq vr _ _ => vq != vr
  | .nop | .mov .. | .free .. | .xli .. | .frombytes .. | .fromwords .. | .fromint64 ..
  | .cmp .. | .min .. | .max .. | .add .. | .sub .. | .neg .. | .abs .. | .mul ..
  | .div .. | .rem .. | .mod .. | .pow .. | .and .. | .or .. | .xor .. | .andnot .. | .not ..
  | .testbit .. | .setbit .. | .clrbit .. | .flipbit .. | .shl .. | .shr ..
  | .tobytes .. | .tozfbytes .. | .bitlen .. | .bitcnt ..
  | .maglen .. | .signum .. | .magwf .. | .magwr .. | .wordat .. => true

end Sys2Proof
end

