-- ==== Sys2Proof/Decode.lean ====
section
/-! DEFINITION. The command word: fields, decoder and encoder (30_encoding.md R90 to R97). -/

namespace Sys2Proof

/-- `w[hi:lo]`, with the value `(w div 2^lo) mod 2^(hi-lo+1)` (R8). -/
def slice (w : Word) (hi lo : Nat) : Nat := w.toNat / 2 ^ lo % 2 ^ (hi - lo + 1)

/-! ## Fields (R91, R92) -/

/-- `op`, bits 31:24. -/
def opField (c : Word) : Nat := slice c 31 24

/-- A four-bit register number at bits `lo+3:lo` (R93: every value names a register). -/
def regField (c : Word) (lo : Nat) : Fin 16 := Fin.ofNat 16 (slice c (lo + 3) lo)

/-- `rd`, bits 23:20. -/
def rdField (c : Word) : Fin 16 := regField c 20

/-- `ra`, bits 19:16. -/
def raField (c : Word) : Fin 16 := regField c 16

/-- `rb`, bits 15:12. -/
def rbField (c : Word) : Fin 16 := regField c 12

/-- `rd2`, bits 11:8. -/
def rd2Field (c : Word) : Fin 16 := regField c 8

/-- `imm16`, bits 15:0 (format I). -/
def immField (c : Word) : BitVec 16 := BitVec.ofNat 16 (slice c 15 0)

/-! ## Decoding -/

/-- Why a word is no command; each is reported as `IllegalCommand` (R95, R297). -/
inductive Illegal where
  /-- R95 step 1: `op` is not an opcode of R96. -/
  | unknownOpcode
  /-- R95 step 2: a must-be-zero bit is 1 (`CONST` with `k > 3` among them). -/
  | reservedBit
  /-- R95 step 3: `DIVREM` with `rd = rd2`. -/
  | sameDestination
  deriving DecidableEq, Repr

/-- R95 step 2 for one row: `zero` says that the row's must-be-zero bits are all 0. -/
def takeRow (zero : Bool) (i : Instr) : Except Illegal Instr :=
  if zero then .ok i else .error .reservedBit

/-- Rows that use `rd`, `ra` and `rb`: bits 11:0 must be zero. -/
def rowDAB (c : Word) (f : Fin 16 → Fin 16 → Fin 16 → Instr) : Except Illegal Instr :=
  takeRow (slice c 11 0 == 0) (f (rdField c) (raField c) (rbField c))

/-- Rows that use `rd` and `ra`: bits 15:0 must be zero. -/
def rowDA (c : Word) (f : Fin 16 → Fin 16 → Instr) : Except Illegal Instr :=
  takeRow (slice c 15 0 == 0) (f (rdField c) (raField c))

/-- Rows that use `rd` only: bits 19:0 must be zero. -/
def rowD (c : Word) (f : Fin 16 → Instr) : Except Illegal Instr :=
  takeRow (slice c 19 0 == 0) (f (rdField c))

/-- The row of `DIVREM`: bits 7:0 must be zero (step 2), then `rd != rd2` (step 3). -/
def rowDivrem (c : Word) : Except Illegal Instr :=
  if slice c 7 0 == 0 then
    if rdField c = rd2Field c then .error .sameDestination
    else .ok (.divrem (rdField c) (rd2Field c) (raField c) (rbField c))
  else .error .reservedBit

/-- Decoding a command word, in the order of R95; total, and every word is either one command or illegal. -/
def decode (c : Word) : Except Illegal Instr :=
  match opField c with
  | 0x00 => takeRow (slice c 23 0 == 0) .nop
  | 0x01 => takeRow (slice c 19 16 == 0 && slice c 15 2 == 0) (.const (rdField c) (immField c))
  | 0x02 => rowDA c .mov
  | 0x03 => rowD c .free
  | 0x04 => takeRow (slice c 19 16 == 0) (.xli (rdField c) (immField c))
  | 0x10 => rowD c .frombytes
  | 0x11 => rowD c .fromwords
  | 0x12 => rowDA c .fromint64
  | 0x20 => rowDAB c .cmp
  | 0x21 => rowDAB c .min
  | 0x22 => rowDAB c .max
  | 0x30 => rowDAB c .add
  | 0x31 => rowDAB c .sub
  | 0x32 => rowDA c .neg
  | 0x33 => rowDA c .abs
  | 0x40 => rowDAB c .mul
  | 0x50 => rowDivrem c
  | 0x51 => rowDAB c .div
  | 0x52 => rowDAB c .rem
  | 0x53 => rowDAB c .mod
  | 0x60 => rowDAB c .pow
  | 0x70 => rowDAB c .and
  | 0x71 => rowDAB c .or
  | 0x72 => rowDAB c .xor
  | 0x73 => rowDAB c .andnot
  | 0x74 => rowDA c .not
  | 0x75 => rowDAB c .testbit
  | 0x76 => rowDAB c .setbit
  | 0x77 => rowDAB c .clrbit
  | 0x78 => rowDAB c .flipbit
  | 0x79 => rowDAB c .shl
  | 0x7A => rowDAB c .shr
  | 0x80 => takeRow (slice c 23 20 == 0 && slice c 15 0 == 0) (.tobytes (raField c))
  | 0x81 => takeRow (slice c 23 20 == 0 && slice c 11 0 == 0) (.tozfbytes (raField c) (rbField c))
  | 0x82 => rowDA c .bitlen
  | 0x83 => rowDA c .bitcnt
  | 0x90 => rowDA c .maglen
  | 0x91 => rowDA c .signum
  | 0x92 => rowDAB c .magwf
  | 0x93 => rowDAB c .magwr
  | 0x94 => rowDAB c .wordat
  | _ => .error .unknownOpcode

/-! ## Encoding -/

/-- Format R (R91), `z8` zero; an unused field is given as 0. -/
def encodeR (op : Nat) (rd ra rb rd2 : Fin 16) : Word :=
  BitVec.ofNat 32 (op * 2 ^ 24 + rd.val * 2 ^ 20 + ra.val * 2 ^ 16 + rb.val * 2 ^ 12 + rd2.val * 2 ^ 8)

/-- Format I (R92), `z4` zero. -/
def encodeI (op : Nat) (rd : Fin 16) (imm : BitVec 16) : Word :=
  BitVec.ofNat 32 (op * 2 ^ 24 + rd.val * 2 ^ 20 + imm.toNat)

/-- The command word of an instruction (R96). -/
def encode : Instr → Word
  | .nop => encodeR 0x00 0 0 0 0
  | .const vd k => encodeI 0x01 vd k
  | .mov vd va => encodeR 0x02 vd va 0 0
  | .free vd => encodeR 0x03 vd 0 0 0
  | .xli xd imm => encodeI 0x04 xd imm
  | .frombytes vd => encodeR 0x10 vd 0 0 0
  | .fromwords vd => encodeR 0x11 vd 0 0 0
  | .fromint64 vd xa => encodeR 0x12 vd xa 0 0
  | .cmp xd va vb => encodeR 0x20 xd va vb 0
  | .min vd va vb => encodeR 0x21 vd va vb 0
  | .max vd va vb => encodeR 0x22 vd va vb 0
  | .add vd va vb => encodeR 0x30 vd va vb 0
  | .sub vd va vb => encodeR 0x31 vd va vb 0
  | .neg vd va => encodeR 0x32 vd va 0 0
  | .abs vd va => encodeR 0x33 vd va 0 0
  | .mul vd va vb => encodeR 0x40 vd va vb 0
  | .divrem vq vr va vb => encodeR 0x50 vq va vb vr
  | .div vd va vb => encodeR 0x51 vd va vb 0
  | .rem vd va vb => encodeR 0x52 vd va vb 0
  | .mod vd va vb => encodeR 0x53 vd va vb 0
  | .pow vd va xb => encodeR 0x60 vd va xb 0
  | .and vd va vb => encodeR 0x70 vd va vb 0
  | .or vd va vb => encodeR 0x71 vd va vb 0
  | .xor vd va vb => encodeR 0x72 vd va vb 0
  | .andnot vd va vb => encodeR 0x73 vd va vb 0
  | .not vd va => encodeR 0x74 vd va 0 0
  | .testbit xd va xb => encodeR 0x75 xd va xb 0
  | .setbit vd va xb => encodeR 0x76 vd va xb 0
  | .clrbit vd va xb => encodeR 0x77 vd va xb 0
  | .flipbit vd va xb => encodeR 0x78 vd va xb 0
  | .shl vd va xb => encodeR 0x79 vd va xb 0
  | .shr vd va xb => encodeR 0x7A vd va xb 0
  | .tobytes va => encodeR 0x80 0 va 0 0
  | .tozfbytes va xb => encodeR 0x81 0 va xb 0
  | .bitlen xd va => encodeR 0x82 xd va 0 0
  | .bitcnt xd va => encodeR 0x83 xd va 0 0
  | .maglen xd va => encodeR 0x90 xd va 0 0
  | .signum xd va => encodeR 0x91 xd va 0 0
  | .magwf xd va xb => encodeR 0x92 xd va xb 0
  | .magwr xd va xb => encodeR 0x93 xd va xb 0
  | .wordat xd va xb => encodeR 0x94 xd va xb 0

/-- What the decoder reads from a row of spec/opcode_table.json: a command is one 32-bit word (R90), numbered as
the table numbers it, and is not laid out in bytes anywhere (R64: "there is no instruction fetch and so no fetch
byte order"). -/
def decodeTableWord (nbits w : Nat) : Option Instr :=
  match decode (BitVec.ofNat 32 (w % 2 ^ nbits)) with
  | .ok i => some i
  | .error _ => none

end Sys2Proof
end

