-- ==== Sys2Proof/Config.lean ====
section
/-! DEFINITION. What an implementation fixes (`MAXW`, `BUFCAP`: 00_scope.md R6, D13) and the free values of the
spec (20_memory.md R77, R79, I5). -/

namespace Sys2Proof.Config

/-- The two parameters R6 leaves open; `none` is `INF`. -/
structure Params where
  /-- `MAXW`: the most words a value register's magnitude may hold. -/
  maxw : Option Nat
  /-- `BUFCAP`: the most bytes the byte buffer may hold. -/
  bufcap : Option Nat
  deriving DecidableEq, Repr

/-- `MAXW = BUFCAP = INF`: "exactly the unbounded engine of the source" (R6). DESIGN CHOICE for reset, log 3. -/
def Params.unbounded : Params := { maxw := none, bufcap := none }

/-- The values R6 and D13 allow: `MAXW >= 2` or `INF`, and `BUFCAP >= 4*MAXW + 1` or `INF`, where `INF` words
need `INF` bytes. DEDUCED for a finite `MAXW` with `BUFCAP = INF` (D13), log 4. -/
def Params.legal (p : Params) : Bool :=
  match p.maxw, p.bufcap with
  | none, none => true
  | none, some _ => false
  | some m, none => 2 ≤ m
  | some m, some c => 2 ≤ m && 4 * m + 1 ≤ c

/-- A FREE VALUE: the unspecified 32-bit word that the `n`-th bad read or underrun pop returns (R77, R79, I5:
"any value"). It has no body, so nothing can be proved about it (log 5). -/
opaque freeWord : Nat → Word

end Sys2Proof.Config
end

