-- ==== Sys2Proof/Machine/State.lean ====
section
/-! DEFINITION. The state of BIGINT-CORE (10_state.md R20), the host's inputs, and the reset state (R45). -/

namespace Sys2Proof.Machine

/-- The sign tag of a value (R9). -/
inductive Sign where
  | negative
  | zero
  | positive
  deriving DecidableEq, Repr

/-- A sign-magnitude value; `mag` is most-significant word first (R9). -/
structure Value where
  sign : Sign
  mag : List Word
  deriving DecidableEq, Repr

/-- The identity report of a destination (R31). Codes 6 and 7 are reserved and never produced. -/
inductive Rsrc where
  | fresh
  | sameA
  | sameB
  | const
  | magA
  | magB
  deriving DecidableEq, Repr

/-- The named errors (R291): the first eleven end a command, the last three belong to host port accesses. -/
inductive ErrorKind where
  | constructionError
  | divisionByZero
  | nonPositiveModulus
  | negativeExponent
  | negativeBitPosition
  | fieldWidthOverflow
  | illegalCommand
  | emptyRegister
  | capacityOverflow
  | badIndex
  | badLength
  | bufferOverflow
  | bufferUnderrun
  | badAccess
  deriving DecidableEq, Repr

/-- The fifteen registers of the host port (R37). -/
inductive PortReg where
  | cmd
  | status
  | errlog
  | errcmd
  | blen
  | bctl
  | bpush8
  | bpush32
  | bpop8
  | bpop32
  | brp
  | xsel
  | xlo
  | xhi
  | vstat
  deriving DecidableEq, Repr

/-- What the outside world can do to the block: a port access of `bits` bits at a byte offset (R65), or reset (R330).
The width of an access the port does not accept is any number but 32 (DESIGN CHOICE, log 6). -/
inductive Input where
  | read (bits offset : Nat)
  | write (bits offset : Nat) (data : Word)
  | reset
  deriving DecidableEq, Repr

/-- The architectural state (R20), the implementation parameters (R6) and the model's own fields. -/
structure State where
  /-- `V0..V15`: `none` is `EMPTY` (R21, R22). -/
  v : Vector (Option Value) 16
  /-- `X0..X15` (R25). -/
  x : Vector Scalar 16
  /-- `BUF`, `BUF[0]` first; `BLEN` is its length (R34; log 8). -/
  buf : List Byte
  /-- `BRP`, the host's read pointer (R34). -/
  brp : Nat
  /-- `STATUS` (R28). -/
  status : Word
  /-- `ERRLOG` (R32). -/
  errlog : Word
  /-- `ERRCMD` (R33). -/
  errcmd : Word
  /-- `XSEL` (R35). -/
  xsel : BitVec 4
  /-- `MAXW` and `BUFCAP`, fixed for a machine (R6; log 3). -/
  params : Config.Params
  /-- The MODEL's own: host inputs not yet served, oldest first (R27: the step takes the host access as its input; log 1). -/
  inputs : List Input
  /-- The MODEL's own: the word the last served access returned, if it was a read (log 2). -/
  reply : Option Word
  /-- The MODEL's own: how many free words have been drawn (log 5). -/
  freeCount : Nat
  deriving DecidableEq, Repr

/-- Nothing stops this machine: an error ends a command or an access and the next one runs (R30, R290, R303), so
there is no fault to raise. -/
inductive Fault where
  deriving DecidableEq, Repr

/-- Why a step is refused. -/
inductive Refusal where
  /-- Raised by an arm of `exec` for an instruction that has no meaning yet; safe. No arm raises it. -/
  | notModelled (mnemonic : String)
  deriving DecidableEq, Repr

/-- The state after reset (R45, R331). `params` is `INF`, `INF` (DESIGN CHOICE, log 3); the model's own fields start
empty (DESIGN CHOICE, log 1, 2, 5). -/
def State.reset : State :=
  { v := Vector.replicate 16 none
    x := Vector.replicate 16 0
    buf := []
    brp := 0
    status := 0
    errlog := 0
    errcmd := 0
    xsel := 0
    params := Config.Params.unbounded
    inputs := []
    reply := none
    freeCount := 0 }

end Sys2Proof.Machine
end

