-- ==== Sys2Proof/Machine/Flags.lean ====
section
/-! DEFINITION. STATUS, ERRLOG and the codes in them (10_state.md R28, R31, R32; 60_exceptions.md R291). The block has
no condition codes (R29). -/

namespace Sys2Proof.Machine

/-- The error code of R291. -/
def ErrorKind.code : ErrorKind → Nat
  | .constructionError => 1
  | .divisionByZero => 2
  | .nonPositiveModulus => 3
  | .negativeExponent => 4
  | .negativeBitPosition => 5
  | .fieldWidthOverflow => 6
  | .illegalCommand => 7
  | .emptyRegister => 8
  | .capacityOverflow => 9
  | .badIndex => 10
  | .badLength => 11
  | .bufferOverflow => 12
  | .bufferUnderrun => 13
  | .badAccess => 14

/-- The identity code of R31. -/
def Rsrc.code : Rsrc → Nat
  | .fresh => 0
  | .sameA => 1
  | .sameB => 2
  | .const => 3
  | .magA => 4
  | .magB => 5

/-- STATUS of a command that ended normally: `ERR = 0`, then `RSRC` and `RSRC2` (R28). -/
def statusOk (a b : Rsrc) : Word := BitVec.ofNat 32 (a.code * 2 ^ 8 + b.code * 2 ^ 11)

/-- STATUS of a command that ended with an error: the code, `RSRC = RSRC2 = 0` (R28, R300). -/
def statusError (e : ErrorKind) : Word := BitVec.ofNat 32 e.code

/-- ERRLOG with the sticky bit of an error set (R32). -/
def logError (log : Word) (e : ErrorKind) : Word := log ||| BitVec.ofNat 32 (2 ^ e.code)

/-- The positions of ERRLOG that exist: bits 1 to 14 (R32). -/
def errlogMask : Word := 0x7FFE

/-- ERRLOG after the host writes `w`: each position 1 to 14 written with 1 is cleared, the others ignore the write (R32). -/
def clearErrors (log w : Word) : Word := log &&& ~~~(w &&& errlogMask)

end Sys2Proof.Machine
end

