-- ==== Sys2Proof/Machine/Value.lean ====
section
/-! DEFINITION. Values: the integer a value stands for, canonical form, `canon`, the constant pool
(00_scope.md R9, R10; 10_state.md R24). -/

namespace Sys2Proof.Machine

/-! ## Word sequences as numbers -/

/-- The number whose base-`B` digits are `ws`, most significant first (R9). -/
def magNat (ws : List Word) : Nat := ws.foldl (fun acc w => acc * wordBase + w.toNat) 0

/-- The number whose base-`B` digits are `ws`, least significant first. -/
def leNat : List Word → Nat
  | [] => 0
  | w :: ws => w.toNat + wordBase * leNat ws

/-- The `k` low base-`B` digits of `n`, least significant first. -/
def leWords : Nat → Nat → List Word
  | 0, _ => []
  | k + 1, n => BitVec.ofNat 32 n :: leWords k (n / wordBase)

/-- A word sequence with its leading zero words removed (R10: "no leading zero word"). -/
def stripZeros (ws : List Word) : List Word := ws.dropWhile (· == 0#32)

/-- A word sequence with one leading zero word removed if there is one (R150, R165). -/
def dropZeroTop : List Word → List Word
  | [] => []
  | w :: ws => if w = 0#32 then ws else w :: ws

/-- The base-`B` digits of `n` with no leading zero, most significant first, empty for 0 (R10). -/
def natMag (n : Nat) : List Word := stripZeros (leWords (n.log2 / 32 + 1) n).reverse

/-! ## Values -/

/-- `sgn` (R9). -/
def Sign.num : Sign → Int
  | .negative => -1
  | .zero => 0
  | .positive => 1

/-- The opposite sign; `ZERO` stays `ZERO` (R154). -/
def Sign.opposite : Sign → Sign
  | .negative => .positive
  | .zero => .zero
  | .positive => .negative

/-- The sign of a product or quotient of two nonzero values: "the XOR of the operand signs" (R166, R175). -/
def Sign.ofProduct (s t : Sign) : Sign := if s = t then .positive else .negative

/-- `len(a)` (R9). -/
def Value.len (a : Value) : Nat := a.mag.length

/-- `rev(a, r) = a.mag[len(a)-1-r]`, for `r < len(a)` (R9). -/
def Value.rev (a : Value) (r : Nat) : Word := a.mag.getD (a.len - 1 - r) 0#32

/-- `val(a)` (R9). -/
def Value.val (a : Value) : Int := a.sign.num * (magNat a.mag : Int)

/-- `bit(a, p) = (val(a) div 2^p) mod 2`, with floor division: bit `p` of the two's-complement view (R11). -/
def Value.bit (a : Value) (p : Nat) : Bool := a.val / 2 ^ p % 2 = 1

/-- `tc(a, i) = (val(a) div B^i) mod B`, with floor division: word `i` of the two's-complement view (R11). -/
def Value.tc (a : Value) (i : Nat) : Int := a.val / (wordBase : Int) ^ i % (wordBase : Int)

/-- Canonical form: no leading zero word, and `ZERO` if and only if the magnitude is empty (R10). -/
def Value.canonical (a : Value) : Bool :=
  a.mag.head? != some 0#32 && ((a.sign == .zero) == a.mag.isEmpty)

/-- `canon(z)`, the one canonical value of `z` (R10). -/
def canon (z : Int) : Value :=
  if z = 0 then { sign := .zero, mag := [] }
  else if 0 < z then { sign := .positive, mag := natMag z.natAbs }
  else { sign := .negative, mag := natMag z.natAbs }

/-! ## The constant pool (R24) -/

/-- `zero = (ZERO, [])`. -/
def zeroValue : Value := { sign := .zero, mag := [] }

/-- `one = (POSITIVE, [0x00000001])`. -/
def oneValue : Value := { sign := .positive, mag := [1#32] }

/-- `two = (POSITIVE, [0x00000002])`. -/
def twoValue : Value := { sign := .positive, mag := [2#32] }

/-- `minusOne = (NEGATIVE, [0x00000001])`. -/
def minusOneValue : Value := { sign := .negative, mag := [1#32] }

/-- The constant number `k` of `CONST` (R281); there are four (R94). -/
def poolConst (k : BitVec 16) : Option Value :=
  match k.toNat with
  | 0 => some zeroValue
  | 1 => some oneValue
  | 2 => some twoValue
  | 3 => some minusOneValue
  | _ => none

/-- A value together with its identity report (R31). -/
structure Reported where
  value : Value
  src : Rsrc
  deriving DecidableEq, Repr

end Sys2Proof.Machine
end

