-- ==== Sys2Proof/Machine/Operands.lean ====
section
/-! DEFINITION. The operand forms of a command: a value register, a scalar register, the 16-bit immediate
(00_scope.md R12; 30_encoding.md R93, R94). -/

namespace Sys2Proof.Machine

/-- What `V[i]` holds, `none` for `EMPTY`. -/
def State.vReg (s : State) (i : VReg) : Option Value := s.v[i.val]

/-- The 64-bit pattern of `X[i]`. -/
def State.xReg (s : State) (i : XReg) : Scalar := s.x[i.val]

/-- `V[i]` as a source: `raise EmptyRegister` if it is `EMPTY`, else the value held (R12, R298). -/
def State.readV (s : State) (i : VReg) : Except ErrorKind Value :=
  match s.vReg i with
  | some a => .ok a
  | none => .error .emptyRegister

/-- `X[i]` as a source: a signed integer in `[-2^63, 2^63 - 1]` (R12, R25). -/
def State.readX (s : State) (i : XReg) : Int := (s.xReg i).toInt

/-- `sext_16(imm16)` (R8, R94). -/
def sext16 (imm : BitVec 16) : Int := imm.toInt

end Sys2Proof.Machine
end

