-- ==== Sys2Proof/Machine/Ops.lean ====
section
/-! DEFINITION. The named operations over registers and the byte buffer, taking an error, and the end of a command
(00_scope.md R12; 20_memory.md; 60_exceptions.md R299 to R303). -/

namespace Sys2Proof.Machine

/-! ## Taking an error -/

/-- Error entry (R300): `STATUS`, `ERRLOG` and `ERRCMD` report the error and nothing else changes. There is no return
from an error (R303): the next command runs from this state. -/
def State.raise (s : State) (e : ErrorKind) (word : Word) : State :=
  { s with status := statusError e, errlog := logError s.errlog e, errcmd := word }

/-- A port error (R309): only its `ERRLOG` bit is set. -/
def State.logPort (s : State) (e : ErrorKind) : State := { s with errlog := logError s.errlog e }

/-- The end of a command: its next state, or the error entry with the command word (R300). The word is the
instruction's own encoding (DEDUCED: no word has two meanings, so it is the word written to `CMD`; log 9). -/
def finish (i : Instr) (s : State) (r : Except ErrorKind State) : Host.Outcome State Fault Refusal :=
  .next (match r with
    | .ok t => t
    | .error e => s.raise e (encode i))

/-! ## Capacity (R299) -/

/-- `length ≤ cap`, looking at no more of the sequence than `cap` needs. -/
def shorterOrEqual {α : Type} : List α → Nat → Bool
  | [], _ => true
  | _ :: _, 0 => false
  | _ :: as, n + 1 => shorterOrEqual as n

/-- Whether a sequence fits a capacity, where `none` is `INF` (R6). -/
def fitsIn {α : Type} (cap : Option Nat) (as : List α) : Bool :=
  match cap with
  | none => true
  | some n => shorterOrEqual as n

/-! ## Writing a destination -/

/-- `V[i] <- a` and `STATUS` of a normal end, with no check. -/
def State.putV (s : State) (i : VReg) (a : Value) (src : Rsrc) : State :=
  { s with v := s.v.set i.val (some a), status := statusOk src .fresh }

/-- `V[i] <- a ; RSRC <- src`: `raise CapacityOverflow` if `a` has more than `MAXW` words (R12, R299). -/
def State.writeV (s : State) (i : VReg) (r : Reported) : Except ErrorKind State :=
  if fitsIn s.params.maxw r.value.mag then .ok (s.putV i r.value r.src) else .error .capacityOverflow

/-- `V[i] <- q ; V[j] <- r` with `RSRC` and `RSRC2`: "both written, or neither" (R180). -/
def State.writeV2 (s : State) (i j : VReg) (q r : Reported) : Except ErrorKind State :=
  if fitsIn s.params.maxw q.value.mag && fitsIn s.params.maxw r.value.mag then
    .ok { s with v := (s.v.set i.val (some q.value)).set j.val (some r.value), status := statusOk q.src r.src }
  else .error .capacityOverflow

/-- `V[i] <- EMPTY ; RSRC <- FRESH` (R283). -/
def State.freeV (s : State) (i : VReg) : State :=
  { s with v := s.v.set i.val none, status := statusOk .fresh .fresh }

/-- `X[i] <- z ; RSRC <- FRESH` for a `z` in range (R12). -/
def State.putX (s : State) (i : XReg) (z : Int) : State :=
  { s with x := s.x.set i.val (BitVec.ofInt 64 z), status := statusOk .fresh .fresh }

/-- `X[i] <- n` for a length or a count: `raise CapacityOverflow` for `2^63` or more (R299; log 7). -/
def State.writeCount (s : State) (i : XReg) (n : Nat) : Except ErrorKind State :=
  if n < 2 ^ 63 then .ok (s.putX i n) else .error .capacityOverflow

/-- `BUF <- bytes ; BLEN <- length(bytes) ; BRP <- 0 ; RSRC <- FRESH`, with no check (R12). -/
def State.putBuf (s : State) (bytes : List Byte) : State :=
  { s with buf := bytes, brp := 0, status := statusOk .fresh .fresh }

/-- `BUF <- bytes`: `raise CapacityOverflow` for more than `BUFCAP` bytes (R12, R299). -/
def State.writeBuf (s : State) (bytes : List Byte) : Except ErrorKind State :=
  if fitsIn s.params.bufcap bytes then .ok (s.putBuf bytes) else .error .capacityOverflow

/-! ## The byte buffer (R34, R60) -/

/-- `BUF[k]`; there is no byte at `k >= BLEN` (R34). -/
def State.byteAt (s : State) (k : Nat) : Option Byte := s.buf[k]?

/-- `{BUF[k], BUF[k+1], BUF[k+2], BUF[k+3]}`: a word is most-significant byte first (R63). -/
def joinBytes (b0 b1 b2 b3 : Byte) : Word := b0 ++ b1 ++ b2 ++ b3

/-- Byte `k` of a word, `k = 0` the most significant (R63, R76). -/
def byteOfWord (w : Word) (k : Nat) : Byte := BitVec.ofNat 8 (w.toNat / 2 ^ (24 - 8 * k))

/-- The four bytes of a word in buffer order (R63). -/
def splitWord (w : Word) : List Byte := [byteOfWord w 0, byteOfWord w 1, byteOfWord w 2, byteOfWord w 3]

/-- A push appends, or is refused whole with `BufferOverflow`; `BRP` does not change (R75, R76). -/
def State.push (s : State) (bytes : List Byte) : State :=
  if fitsIn s.params.bufcap (s.buf ++ bytes) then { s with buf := s.buf ++ bytes }
  else s.logPort .bufferOverflow

/-- `BCTL`: bit 0 `CLEAR`, else bit 1 `REWIND`, else nothing (R74). -/
def State.control (s : State) (c : Word) : State :=
  if c.getLsbD 0 then { s with buf := [], brp := 0 }
  else if c.getLsbD 1 then { s with brp := 0 }
  else s

/-! ## The buffer as address and byte pairs -/

/-- The bytes of the buffer with their indices, the lowest first. -/
def Memory.cells (bytes : List Byte) : List Host.Cell := bytes.zipIdx.map (fun p => (p.2, p.1))

/-- The addresses `k, k+1, …` in this order with none left out: the canonical form of a buffer that has bytes at 0 to
`BLEN - 1` and none elsewhere (R34, R60; log 8). -/
def Memory.consecutive : Nat → List Host.Cell → Bool
  | _, [] => true
  | k, c :: cs => c.1 == k && Memory.consecutive (k + 1) cs

/-- The buffer is in canonical form, within `BUFCAP`, and `BRP <= BLEN` (R34). -/
def Memory.wf (s : State) : Bool :=
  Memory.consecutive 0 (Memory.cells s.buf) && fitsIn s.params.bufcap s.buf && s.brp ≤ s.buf.length

end Sys2Proof.Machine
end

