-- ==== Sys2Proof/Machine/Compare.lean ====
section
/-! DEFINITION. Comparison of magnitudes and values, and CMP, MIN, MAX (41_compare.md R140 to R144). -/

namespace Sys2Proof.Machine

/-- `cmpmag` on two sequences of one length, most significant word first, stopping at the first difference (R140). -/
def cmpWords : List Word → List Word → Ordering
  | p :: ps, q :: qs => if p.toNat < q.toNat then .lt else if q.toNat < p.toNat then .gt else cmpWords ps qs
  | _, _ => .eq

/-- `cmpmag(p, q)` (R140): "shorter magnitude is lesser". -/
def cmpmag (p q : List Word) : Ordering :=
  if p.length < q.length then .lt
  else if q.length < p.length then .gt
  else cmpWords p q

/-- `compare(a, b)` (R141): signs first, then magnitudes, swapped for two negatives (C1). -/
def compareValues (a b : Value) : Ordering :=
  if a.sign.num < b.sign.num then .lt
  else if b.sign.num < a.sign.num then .gt
  else match a.sign with
    | .zero => .eq
    | .positive => cmpmag a.mag b.mag
    | .negative => cmpmag b.mag a.mag

/-- The number `CMP` writes for an ordering (R142). -/
def orderingNum : Ordering → Int
  | .lt => -1
  | .eq => 0
  | .gt => 1

/-- MIN's choice: operand A on a tie (R143). -/
def minValue (a b : Value) : Reported :=
  if compareValues a b = .gt then { value := b, src := .sameB } else { value := a, src := .sameA }

/-- MAX's choice: operand A on a tie (R144). -/
def maxValue (a b : Value) : Reported :=
  if compareValues a b = .lt then { value := b, src := .sameB } else { value := a, src := .sameA }

/-- CMP (R142). -/
def execCmp (xd : XReg) (va vb : VReg) (s : State) : Host.Outcome State Fault Refusal :=
  finish (.cmp xd va vb) s do
    let a ← s.readV va
    let b ← s.readV vb
    .ok (s.putX xd (orderingNum (compareValues a b)))

/-- MIN (R143). -/
def execMin (vd va vb : VReg) (s : State) : Host.Outcome State Fault Refusal :=
  finish (.min vd va vb) s do
    let a ← s.readV va
    let b ← s.readV vb
    s.writeV vd (minValue a b)

/-- MAX (R144). -/
def execMax (vd va vb : VReg) (s : State) : Host.Outcome State Fault Refusal :=
  finish (.max vd va vb) s do
    let a ← s.readV va
    let b ← s.readV vb
    s.writeV vd (maxValue a b)

end Sys2Proof.Machine
end

