-- ==== Sys2Proof/Machine/Additive.lean ====
section
/-! DEFINITION. The magnitude adder and subtractor, and ADD, SUB, NEG, ABS (42_additive.md R150 to R155). -/

namespace Sys2Proof.Machine

/-! ## Magnitudes -/

/-- `n` steps of the adder from the least-significant word, absent words being 0, then the headroom word (R150). -/
def addLoop : Nat → List Word → List Word → Nat → List Word
  | 0, _, _, carry => [BitVec.ofNat 32 carry]
  | n + 1, p, q, carry =>
    let t := (p.headD 0#32).toNat + (q.headD 0#32).toNat + carry
    BitVec.ofNat 32 t :: addLoop n p.tail q.tail (t / wordBase)

/-- `addmag(p, q)` (R150). -/
def addmag (p q : List Word) : List Word :=
  dropZeroTop (addLoop (Nat.max p.length q.length) p.reverse q.reverse 0).reverse

/-- The subtractor from the least-significant word, over the words of `p` (R151). -/
def subLoop : List Word → List Word → Int → List Word
  | [], _, _ => []
  | p :: ps, q, borrow =>
    let t : Int := p.toNat - (q.headD 0#32).toNat - borrow
    BitVec.ofInt 32 t :: subLoop ps q.tail (if t < 0 then 1 else 0)

/-- `submag(p, q)`, for `|p| > |q|` (R151). -/
def submag (p q : List Word) : List Word := stripZeros (subLoop p.reverse q.reverse 0).reverse

/-! ## Values -/

/-- The sign logic of ADD, for two operands neither of which is zero (R152). -/
def addNonzero (a b : Value) : Value :=
  if a.sign = b.sign then { sign := a.sign, mag := addmag a.mag b.mag }
  else match cmpmag a.mag b.mag with
    | .eq => zeroValue
    | .gt => { sign := a.sign, mag := submag a.mag b.mag }
    | .lt => { sign := b.sign, mag := submag b.mag a.mag }

/-- ADD of two values, with its report (R152). -/
def addValues (a b : Value) : Reported :=
  if a.sign = .zero then { value := b, src := .sameB }
  else if b.sign = .zero then { value := a, src := .sameA }
  else { value := addNonzero a b, src := .fresh }

/-- The value with the opposite sign tag and the same magnitude (R153, R154). -/
def flipSign (a : Value) : Value := { sign := a.sign.opposite, mag := a.mag }

/-- SUB of two values: ADD of `a` and the sign-inverted `b`, where `SAME_B` becomes `MAG_B` (R153). -/
def subValues (a b : Value) : Reported :=
  let r := addValues a (flipSign b)
  { value := r.value, src := if r.src = .sameB then .magB else r.src }

/-- ABS of a value (R155). -/
def absValue (a : Value) : Reported :=
  if a.sign = .negative then { value := { sign := .positive, mag := a.mag }, src := .magA }
  else { value := a, src := .sameA }

/-! ## Commands -/

/-- ADD (R152). -/
def execAdd (vd va vb : VReg) (s : State) : Host.Outcome State Fault Refusal :=
  finish (.add vd va vb) s do
    let a ← s.readV va
    let b ← s.readV vb
    s.writeV vd (addValues a b)

/-- SUB (R153). -/
def execSub (vd va vb : VReg) (s : State) : Host.Outcome State Fault Refusal :=
  finish (.sub vd va vb) s do
    let a ← s.readV va
    let b ← s.readV vb
    s.writeV vd (subValues a b)

/-- NEG (R154): `MAG_A` always (C4). -/
def execNeg (vd va : VReg) (s : State) : Host.Outcome State Fault Refusal :=
  finish (.neg vd va) s do
    let a ← s.readV va
    s.writeV vd { value := flipSign a, src := .magA }

/-- ABS (R155). -/
def execAbs (vd va : VReg) (s : State) : Host.Outcome State Fault Refusal :=
  finish (.abs vd va) s do
    let a ← s.readV va
    s.writeV vd (absValue a)

end Sys2Proof.Machine
end

