-- ==== Sys2Proof/Machine/Construct.lean ====
section
/-! DEFINITION. The normalizer and the construction commands FROMBYTES, FROMWORDS, FROMINT64
(40_construct.md R120 to R125). -/

namespace Sys2Proof.Machine

/-! ## The normalizer (R120) -/

/-- The unsigned integer whose base-`2^k` digits are the units, most significant first. -/
def unitsNat {k : Nat} (u : List (BitVec k)) : Nat := u.foldl (fun acc w => acc * 2 ^ k + w.toNat) 0

/-- Steps (c) and (d) on the units least significant first: add the carry; one extra unit if it runs out. -/
def incUnits {k : Nat} : List (BitVec k) → Nat → List (BitVec k)
  | [], carry => if carry = 1 then [1#k] else []
  | t :: ts, carry => BitVec.ofNat k (t.toNat + carry) :: incUnits ts ((t.toNat + carry) / 2 ^ k)

/-- Steps (a) to (d) of the negative branch: strip all-ones units, complement the suffix, add 1. -/
def negateUnits {k : Nat} (u : List (BitVec k)) : List (BitVec k) :=
  (incUnits ((u.dropWhile (· == BitVec.allOnes k)).map (~~~ ·)).reverse 1).reverse

/-- `norm(u, k)` for a non-empty string of units, most significant first (R120). -/
def normUnits {k : Nat} (u : List (BitVec k)) : Value :=
  if (u.headD 0#k).msb then { sign := .negative, mag := natMag (unitsNat (negateUnits u)) }
  else canon (unitsNat (u.dropWhile (· == 0#k)))

/-- `norm(u, k)` (R120): `raise ConstructionError` for the empty string. -/
def norm {k : Nat} (u : List (BitVec k)) : Except ErrorKind Value :=
  if u.isEmpty then .error .constructionError else .ok (normUnits u)

/-! ## Commands -/

/-- The buffer read as words, most-significant byte first (R63, R123); used when its length is a multiple of 4. -/
def bufWords : List Byte → List Word
  | b0 :: b1 :: b2 :: b3 :: rest => joinBytes b0 b1 b2 b3 :: bufWords rest
  | _ => []

/-- FROMBYTES (R122). -/
def execFrombytes (vd : VReg) (s : State) : Host.Outcome State Fault Refusal :=
  finish (.frombytes vd) s do
    let a ← norm s.buf
    s.writeV vd { value := a, src := .fresh }

/-- FROMWORDS (R123): `ConstructionError` before `BadLength`. -/
def execFromwords (vd : VReg) (s : State) : Host.Outcome State Fault Refusal :=
  finish (.fromwords vd) s <|
    if s.buf.length = 0 then .error .constructionError
    else if s.buf.length % 4 ≠ 0 then .error .badLength
    else do
      let a ← norm (bufWords s.buf)
      s.writeV vd { value := a, src := .fresh }

/-- FROMINT64 (R125). -/
def execFromint64 (vd : VReg) (xa : XReg) (s : State) : Host.Outcome State Fault Refusal :=
  finish (.fromint64 vd xa) s (s.writeV vd { value := canon (s.readX xa), src := .fresh })

end Sys2Proof.Machine
end

