-- ==== Sys2Proof/Machine/Bitwise.lean ====
section
/-! DEFINITION. The two's-complement view, AND, OR, XOR, ANDNOT, NOT, the single-bit commands and the shifts
(46_bitwise.md R210 to R227). -/

namespace Sys2Proof.Machine

/-! ## The two's-complement view -/

/-- The least `r` with `rev(a, r) != 0` (R210). -/
def lowestNonzero (a : Value) : Nat := a.mag.reverse.findIdx (· != 0#32)

/-- `wordAt(a, i)` (R210). -/
def wordAt (a : Value) (i : Nat) : Word :=
  if i ≥ a.len then (if a.sign = .negative then 0xFFFFFFFF#32 else 0#32)
  else if a.sign ≠ .negative then a.rev i
  else if i ≤ lowestNonzero a then -(a.rev i)
  else ~~~(a.rev i)

/-- `tcwords(a, n)`, index 0 least significant (R211). -/
def tcwords (a : Value) (n : Nat) : List Word := (List.range n).map (wordAt a)

/-- `fromtc(t)`, for `n >= 1` words, index 0 least significant (R212). -/
def fromtc (t : List Word) : Value := normUnits t.reverse

/-- The common datapath of the word-wise commands (R213). -/
def bitop (f : Word → Word → Word) (a b : Value) : Value :=
  fromtc ((List.range (Nat.max a.len b.len + 1)).map fun i => f (wordAt a i) (wordAt b i))

/-- NOT of a value: "word-wise complement with one word of headroom" (R218). -/
def notValue (a : Value) : Value := fromtc ((tcwords a (a.len + 1)).map (~~~ ·))

/-! ## Single bits (R219) -/

/-- A bit position as a number, or `NegativeBitPosition` (R219). -/
def bitPosition (pos : Int) : Except ErrorKind Nat :=
  if pos < 0 then .error .negativeBitPosition else .ok pos.toNat

/-- `mask = 2^bi` (R219). -/
def bitMask (pos : Nat) : Word := BitVec.ofNat 32 (2 ^ (pos % 32))

/-- Whether bit `pos` of the two's-complement view is set (R220). -/
def testBitOf (a : Value) (pos : Nat) : Bool := wordAt a (pos / 32) &&& bitMask pos != 0#32

/-- The datapath of SETBIT, CLRBIT, FLIPBIT: `f` on the word that contains `pos`, in a view with one sign word above
both the magnitude and that word, then reconstruct (R221). -/
def bitEdit (f : Word → Word) (a : Value) (pos : Nat) : Value :=
  fromtc ((tcwords a (Nat.max a.len (pos / 32 + 1) + 1)).modify (pos / 32) f)

/-! ## Shifts -/

/-- The bit loop of R224 over the words, least significant first: the words and the bits shifted out of the top. -/
def shlBits (bq : Nat) : List Word → Nat → List Word × Nat
  | [], carry => ([], carry)
  | p :: ps, carry =>
    let (ws, top) := shlBits bq ps (p.toNat / 2 ^ (32 - bq))
    (BitVec.ofNat 32 (p.toNat * 2 ^ bq + carry) :: ws, top)

/-- `shlmag(p, n)` (R224). -/
def shlmag (p : List Word) (n : Nat) : List Word :=
  let (ws, top) := if n % 32 = 0 then (p.reverse, 0) else shlBits (n % 32) p.reverse 0
  (if top ≠ 0 then [BitVec.ofNat 32 top] else []) ++ ws.reverse ++ List.replicate (n / 32) 0#32

/-- The bit loop of R225 over the words, most significant first: the low bits of a word are carried into the top of the
next lower one; the words and the bits shifted out of the lowest. -/
def shrBits (bq : Nat) : List Word → Nat → List Word × Nat
  | [], carry => ([], carry)
  | p :: ps, carry =>
    let (ws, out) := shrBits bq ps (p.toNat % 2 ^ bq)
    (BitVec.ofNat 32 (carry * 2 ^ (32 - bq) + p.toNat / 2 ^ bq) :: ws, out)

/-- `shrmag(p, n)`: the shifted magnitude, and whether a 1 bit was lost (R225). -/
def shrmag (p : List Word) (n : Nat) : List Word × Bool :=
  let kept := p.length - n / 32
  let (ws, out) := shrBits (n % 32) (p.take kept) 0
  (stripZeros ws, (p.drop kept).any (· != 0#32) || out != 0)

/-- `shift(a, n)`, positive is left (R226). -/
def shiftValue (a : Value) (n : Int) : Value :=
  if a.sign = .zero ∨ n = 0 then a
  else if 0 < n then { sign := a.sign, mag := shlmag a.mag n.toNat }
  else
    let (q, lost) := shrmag a.mag (-n).toNat
    if a.sign = .positive then (if q.isEmpty then zeroValue else { sign := .positive, mag := q })
    else { sign := .negative, mag := if lost then addmag q [1#32] else q }

/-! ## Commands -/

/-- AND (R214). -/
def execAnd (vd va vb : VReg) (s : State) : Host.Outcome State Fault Refusal :=
  finish (.and vd va vb) s do
    let a ← s.readV va
    let b ← s.readV vb
    s.writeV vd { value := bitop (fun x y => x &&& y) a b, src := .fresh }

/-- OR (R215). -/
def execOr (vd va vb : VReg) (s : State) : Host.Outcome State Fault Refusal :=
  finish (.or vd va vb) s do
    let a ← s.readV va
    let b ← s.readV vb
    s.writeV vd { value := bitop (fun x y => x ||| y) a b, src := .fresh }

/-- XOR (R216). -/
def execXor (vd va vb : VReg) (s : State) : Host.Outcome State Fault Refusal :=
  finish (.xor vd va vb) s do
    let a ← s.readV va
    let b ← s.readV vb
    s.writeV vd { value := bitop (fun x y => x ^^^ y) a b, src := .fresh }

/-- ANDNOT (R217): the complemented operand is B (I10). -/
def execAndnot (vd va vb : VReg) (s : State) : Host.Outcome State Fault Refusal :=
  finish (.andnot vd va vb) s do
    let a ← s.readV va
    let b ← s.readV vb
    s.writeV vd { value := bitop (fun x y => x &&& ~~~y) a b, src := .fresh }

/-- NOT (R218). -/
def execNot (vd va : VReg) (s : State) : Host.Outcome State Fault Refusal :=
  finish (.not vd va) s do
    let a ← s.readV va
    s.writeV vd { value := notValue a, src := .fresh }

/-- TESTBIT (R220). -/
def execTestbit (xd : XReg) (va : VReg) (xb : XReg) (s : State) : Host.Outcome State Fault Refusal :=
  finish (.testbit xd va xb) s do
    let a ← s.readV va
    let pos ← bitPosition (s.readX xb)
    .ok (s.putX xd (if testBitOf a pos then 1 else 0))

/-- SETBIT (R221). -/
def execSetbit (vd va : VReg) (xb : XReg) (s : State) : Host.Outcome State Fault Refusal :=
  finish (.setbit vd va xb) s do
    let a ← s.readV va
    let pos ← bitPosition (s.readX xb)
    s.writeV vd { value := bitEdit (· ||| bitMask pos) a pos, src := .fresh }

/-- CLRBIT (R222). -/
def execClrbit (vd va : VReg) (xb : XReg) (s : State) : Host.Outcome State Fault Refusal :=
  finish (.clrbit vd va xb) s do
    let a ← s.readV va
    let pos ← bitPosition (s.readX xb)
    s.writeV vd { value := bitEdit (· &&& ~~~bitMask pos) a pos, src := .fresh }

/-- FLIPBIT (R223). -/
def execFlipbit (vd va : VReg) (xb : XReg) (s : State) : Host.Outcome State Fault Refusal :=
  finish (.flipbit vd va xb) s do
    let a ← s.readV va
    let pos ← bitPosition (s.readX xb)
    s.writeV vd { value := bitEdit (· ^^^ bitMask pos) a pos, src := .fresh }

/-- SHL (R226): a negative distance is a right shift. -/
def execShl (vd va : VReg) (xb : XReg) (s : State) : Host.Outcome State Fault Refusal :=
  finish (.shl vd va xb) s do
    let a ← s.readV va
    s.writeV vd { value := shiftValue a (s.readX xb), src := .fresh }

/-- SHR (R227): `shift(a, -n)`, the negation over the integers (D32). -/
def execShr (vd va : VReg) (xb : XReg) (s : State) : Host.Outcome State Fault Refusal :=
  finish (.shr vd va xb) s do
    let a ← s.readV va
    s.writeV vd { value := shiftValue a (-s.readX xb), src := .fresh }

end Sys2Proof.Machine
end

