-- ==== Sys2Proof/Machine/Accessor.lean ====
section
/-! DEFINITION. The word-sequence accessor: MAGLEN, SIGNUM, MAGWF, MAGWR, WORDAT (48_accessor.md R265 to R270). -/

namespace Sys2Proof.Machine

/-- An index into `len` words, or `BadIndex` (R268, R269). -/
def wordIndex (i : Int) (len : Nat) : Except ErrorKind Nat :=
  if i < 0 ∨ i ≥ len then .error .badIndex else .ok i.toNat

/-- An index into the two's-complement view, which has no upper limit, or `BadIndex` (R270). -/
def viewIndex (i : Int) : Except ErrorKind Nat :=
  if i < 0 then .error .badIndex else .ok i.toNat

/-- `zext_32(w)` as an integer (R268). -/
def zext32 (w : Word) : Int := (w.toNat : Int)

/-- MAGLEN (R266). -/
def execMaglen (xd : XReg) (va : VReg) (s : State) : Host.Outcome State Fault Refusal :=
  finish (.maglen xd va) s do
    let a ← s.readV va
    s.writeCount xd a.len

/-- SIGNUM (R267). -/
def execSignum (xd : XReg) (va : VReg) (s : State) : Host.Outcome State Fault Refusal :=
  finish (.signum xd va) s do
    let a ← s.readV va
    .ok (s.putX xd a.sign.num)

/-- MAGWF (R268): forward index, 0 is the most-significant word. -/
def execMagwf (xd : XReg) (va : VReg) (xb : XReg) (s : State) : Host.Outcome State Fault Refusal :=
  finish (.magwf xd va xb) s do
    let a ← s.readV va
    let f ← wordIndex (s.readX xb) a.len
    .ok (s.putX xd (zext32 (a.mag.getD f 0#32)))

/-- MAGWR (R269): reversed index, 0 is the least-significant word. -/
def execMagwr (xd : XReg) (va : VReg) (xb : XReg) (s : State) : Host.Outcome State Fault Refusal :=
  finish (.magwr xd va xb) s do
    let a ← s.readV va
    let r ← wordIndex (s.readX xb) a.len
    .ok (s.putX xd (zext32 (a.rev r)))

/-- WORDAT (R270). -/
def execWordat (xd : XReg) (va : VReg) (xb : XReg) (s : State) : Host.Outcome State Fault Refusal :=
  finish (.wordat xd va xb) s do
    let a ← s.readV va
    let i ← viewIndex (s.readX xb)
    .ok (s.putX xd (zext32 (wordAt a i)))

end Sys2Proof.Machine
end

