-- ==== Sys2Proof/Machine/Divide.lean ====
section
/-! DEFINITION. The divider (single-word path and Knuth Algorithm D) and DIVREM, DIV, REM, MOD
(44_divide.md R175 to R183). -/

namespace Sys2Proof.Machine

/-! ## Single-word divisor (R177) -/

/-- The loop of R177 over the words of `u`, most significant first, with the running remainder. -/
def divLoop1 (d : Nat) : List Word → Nat → List Word × Nat
  | [], rem => ([], rem)
  | u :: us, rem =>
    let t := rem * wordBase + u.toNat
    let (qs, r) := divLoop1 d us (t % d)
    (BitVec.ofNat 32 (t / d) :: qs, r)

/-- `divmag1(u, d)` (R177). -/
def divmag1 (u : List Word) (d : Word) : List Word × List Word :=
  let (qw, rem) := divLoop1 d.toNat u 0
  (stripZeros qw, if rem ≠ 0 then [BitVec.ofNat 32 rem] else [])

/-! ## Knuth Algorithm D (R178), all sequences least-significant word first -/

/-- `clz32(w)` of a nonzero word (R8). -/
def clz32 (w : Word) : Nat := 31 - w.toNat.log2

/-- The refinement loop of Step 2: `vTop = vn[n-1]`, `vNext = vn[n-2]`, `u0 = un[j+n-2]`. It "runs 0, 1 or 2 times"
(R178), which the first argument bounds (log 10). -/
def refineDigit (vTop vNext u0 : Nat) : Nat → Nat → Nat → Nat
  | 0, qhat, _ => qhat
  | k + 1, qhat, rhat =>
    if rhat < wordBase ∧ qhat * vNext > rhat * wordBase + u0 then
      refineDigit vTop vNext u0 k (qhat - 1) (rhat + vTop)
    else qhat

/-- Step 2: the estimate of one digit from `u2 = un[j+n]`, `u1 = un[j+n-1]`, `u0 = un[j+n-2]`. -/
def estimateDigit (vTop vNext u2 u1 u0 : Nat) : Nat :=
  let num := u2 * wordBase + u1
  let qhat := if u2 ≥ vTop then wordBase - 1 else num / vTop
  refineDigit vTop vNext u0 2 qhat (num - qhat * vTop)

/-- Step 3: subtract `qhat` times the divisor from the window; whether the top went below zero. -/
def mulSub (qhat : Nat) : List Word → List Word → Nat → Int → List Word × Bool
  | [], u, carry, borrow =>
    let t : Int := (u.headD 0#32).toNat - carry - borrow
    ([BitVec.ofInt 32 t], decide (t < 0))
  | v :: vs, u, carry, borrow =>
    let p := qhat * v.toNat + carry
    let t : Int := (u.headD 0#32).toNat - (p % wordBase : Nat) - borrow
    let (ws, low) := mulSub qhat vs u.tail (p / wordBase) (if t < 0 then 1 else 0)
    (BitVec.ofInt 32 t :: ws, low)

/-- Step 4's add-back of the divisor into the window. -/
def addBack : List Word → List Word → Nat → List Word
  | [], u, carry => [BitVec.ofNat 32 ((u.headD 0#32).toNat + carry)]
  | v :: vs, u, carry =>
    let t := (u.headD 0#32).toNat + v.toNat + carry
    BitVec.ofNat 32 t :: addBack vs u.tail (t / wordBase)

/-- Steps 2 to 5 for one output position: the window `un[j .. j+n]` after it, and the digit. -/
def knuthDigit (vn window : List Word) : List Word × Word :=
  let n := vn.length
  let at' (l : List Word) (i : Nat) : Nat := (l.getD i 0#32).toNat
  let qhat := estimateDigit (at' vn (n - 1)) (at' vn (n - 2)) (at' window n) (at' window (n - 1)) (at' window (n - 2))
  let (ws, low) := mulSub qhat vn window 0 0
  if low then (addBack vn ws 0, BitVec.ofNat 32 (qhat - 1)) else (ws, BitVec.ofNat 32 qhat)

/-- The loop over output positions `j` from the top down to 0: the dividend array after it, and the digits, most
significant first. -/
def knuthLoop (vn : List Word) : Nat → List Word → List Word × List Word
  | 0, un => (un, [])
  | j + 1, un =>
    let (window, q) := knuthDigit vn ((un.drop j).take (vn.length + 1))
    let (un', qs) := knuthLoop vn j (un.take j ++ window ++ un.drop (j + vn.length + 1))
    (un', q :: qs)

/-- `divmagD(u, v)`, for `length(v) >= 2` and `|u| > |v|` (R178): Steps 1 and 6 around the loop. -/
def divmagD (u v : List Word) : List Word × List Word :=
  let n := v.length
  let m := u.length - n
  let s := clz32 (v.headD 0#32)
  let vn := leWords n (magNat v * 2 ^ s)
  let un := leWords (m + n + 1) (magNat u * 2 ^ s)
  let (un', q) := knuthLoop vn (m + 1) un
  (stripZeros q, natMag (leNat (un'.take n) / 2 ^ s))

/-! ## Values -/

/-- The quotient and remainder of R175, each with its report. -/
structure DivResult where
  q : Reported
  r : Reported
  deriving DecidableEq, Repr

/-- Case 6 of R175: `|a| > |b| >= 2`. -/
def divLong (a b : Value) : DivResult :=
  let (qm, rm) := if b.len = 1 then divmag1 a.mag (b.mag.headD 0#32) else divmagD a.mag b.mag
  { q := { value := { sign := Sign.ofProduct a.sign b.sign, mag := qm }, src := .fresh }
    r := { value := if rm.isEmpty then zeroValue else { sign := a.sign, mag := rm }, src := .fresh } }

/-- `divrem(a, b)` (R175): the tests in the source's order. -/
def divrem (a b : Value) : Except ErrorKind DivResult :=
  if b.sign = .zero then .error .divisionByZero
  else if b.mag = [1#32] then
    .ok { q := { value := { sign := if b.sign = .positive then a.sign else a.sign.opposite, mag := a.mag }, src := .magA }
          r := { value := zeroValue, src := .fresh } }
  else if a.sign = .zero then
    .ok { q := { value := zeroValue, src := .fresh }, r := { value := zeroValue, src := .fresh } }
  else match cmpmag a.mag b.mag with
    | .lt => .ok { q := { value := zeroValue, src := .fresh }, r := { value := a, src := .sameA } }
    | .eq => .ok { q := { value := if a.sign = b.sign then oneValue else minusOneValue, src := .fresh }
                   r := { value := zeroValue, src := .fresh } }
    | .gt => .ok (divLong a b)

/-- `mod` of two values (R183). -/
def modValues (a m : Value) : Except ErrorKind Reported :=
  if m.sign ≠ .positive then .error .nonPositiveModulus
  else do
    let d ← divrem a m
    if d.r.value.sign = .negative then
      .ok { value := { sign := .positive, mag := submag m.mag d.r.value.mag }, src := .fresh }
    else .ok d.r

/-! ## Commands -/

/-- DIVREM (R180). `rd = rd2` is no command (R95 step 3, R97) and reports so. -/
def execDivrem (vq vr va vb : VReg) (s : State) : Host.Outcome State Fault Refusal :=
  finish (.divrem vq vr va vb) s <|
    if vq = vr then .error .illegalCommand
    else do
      let a ← s.readV va
      let b ← s.readV vb
      let d ← divrem a b
      s.writeV2 vq vr d.q d.r

/-- DIV (R181). -/
def execDiv (vd va vb : VReg) (s : State) : Host.Outcome State Fault Refusal :=
  finish (.div vd va vb) s do
    let a ← s.readV va
    let b ← s.readV vb
    let d ← divrem a b
    s.writeV vd d.q

/-- REM (R182). -/
def execRem (vd va vb : VReg) (s : State) : Host.Outcome State Fault Refusal :=
  finish (.rem vd va vb) s do
    let a ← s.readV va
    let b ← s.readV vb
    let d ← divrem a b
    s.writeV vd d.r

/-- MOD (R183). -/
def execMod (vd va vb : VReg) (s : State) : Host.Outcome State Fault Refusal :=
  finish (.mod vd va vb) s do
    let a ← s.readV va
    let m ← s.readV vb
    let r ← modValues a m
    s.writeV vd r

end Sys2Proof.Machine
end

