-- ==== Sys2Proof/Machine/Export.lean ====
section
/-! DEFINITION. Export to bytes, bit length and bit count: TOBYTES, TOZFBYTES, BITLEN, BITCNT
(47_export.md R250 to R255). -/

namespace Sys2Proof.Machine

/-- The number of significant bits of a magnitude: `32 (len - 1) + (32 - clz32(mag[0]))`, 0 if empty (R253). -/
def magBits : List Word → Nat
  | [] => 0
  | w :: ws => 32 * ws.length + (32 - clz32 w)

/-- Whether a magnitude is an exact power of two (R253). -/
def isPowerOfTwo : List Word → Bool
  | [] => false
  | w :: ws => w.toNat == 2 ^ w.toNat.log2 && ws.all (· == 0#32)

/-- `bitlen(a)`, at word level (R253). -/
def bitlen (a : Value) : Nat :=
  if a.sign = .negative ∧ isPowerOfTwo a.mag then magBits a.mag - 1 else magBits a.mag

/-- Byte number `k` of the two's-complement view, from the least-significant end (R250). -/
def viewByte (a : Value) (k : Nat) : Byte := BitVec.ofNat 8 ((wordAt a (k / 4)).toNat / 2 ^ (8 * (k % 4)))

/-- `bytes_of(a)` (R250). -/
def bytesOf (a : Value) : List Byte := (List.range (bitlen a / 8 + 1)).reverse.map (viewByte a)

/-- The sign-matching padding byte (R252, C2). -/
def padByte (a : Value) : Byte := if a.sign = .negative then 0xFF#8 else 0x00#8

/-- The `n`-byte encoding: padding bytes in front of `bytes_of(a)`; for `n` at most its length, `bytes_of(a)` itself
(R252). -/
def paddedBytes (a : Value) (n : Nat) : List Byte := List.replicate (n - (bytesOf a).length) (padByte a) ++ bytesOf a

/-- The number of 1 bits of a word. -/
def popcount (w : Word) : Nat := ((List.range 32).filter (fun i => w.getLsbD i)).length

/-- `bitCount(a)` (R255): the sum over the words of the two's-complement view, complemented for a negative value. -/
def bitcount (a : Value) : Nat :=
  ((List.range a.len).map fun i => popcount (if a.sign = .negative then ~~~wordAt a i else wordAt a i)).sum

/-- TOBYTES (R251). -/
def execTobytes (va : VReg) (s : State) : Host.Outcome State Fault Refusal :=
  finish (.tobytes va) s do
    let a ← s.readV va
    s.writeBuf (bytesOf a)

/-- TOZFBYTES (R252). -/
def execTozfbytes (va : VReg) (xb : XReg) (s : State) : Host.Outcome State Fault Refusal :=
  finish (.tozfbytes va xb) s do
    let a ← s.readV va
    if s.readX xb < (bytesOf a).length then .error .fieldWidthOverflow
    else s.writeBuf (paddedBytes a (s.readX xb).toNat)

/-- BITLEN (R254). -/
def execBitlen (xd : XReg) (va : VReg) (s : State) : Host.Outcome State Fault Refusal :=
  finish (.bitlen xd va) s do
    let a ← s.readV va
    s.writeCount xd (bitlen a)

/-- BITCNT (R255). -/
def execBitcnt (xd : XReg) (va : VReg) (s : State) : Host.Outcome State Fault Refusal :=
  finish (.bitcnt xd va) s do
    let a ← s.readV va
    s.writeCount xd (bitcount a)

end Sys2Proof.Machine
end

