-- ==== Sys2Proof/Machine/Housekeeping.lean ====
section
/-! DEFINITION. The housekeeping commands NOP, CONST, MOV, FREE, XLI (49_housekeeping.md R280 to R284). -/

namespace Sys2Proof.Machine

/-- NOP (R280): only `STATUS` changes, to a normal end. -/
def execNop (s : State) : Host.Outcome State Fault Refusal :=
  finish .nop s (.ok { s with status := statusOk .fresh .fresh })

/-- CONST (R281). A `k` above 3 is no command (R94, R97) and reports so. -/
def execConst (vd : VReg) (k : BitVec 16) (s : State) : Host.Outcome State Fault Refusal :=
  finish (.const vd k) s <|
    match poolConst k with
    | some c => s.writeV vd { value := c, src := .const }
    | none => .error .illegalCommand

/-- MOV (R282). -/
def execMov (vd va : VReg) (s : State) : Host.Outcome State Fault Refusal :=
  finish (.mov vd va) s do
    let a ← s.readV va
    s.writeV vd { value := a, src := .sameA }

/-- FREE (R283): the only writer of `EMPTY`. -/
def execFree (vd : VReg) (s : State) : Host.Outcome State Fault Refusal :=
  finish (.free vd) s (.ok (s.freeV vd))

/-- XLI (R284). -/
def execXli (xd : XReg) (imm : BitVec 16) (s : State) : Host.Outcome State Fault Refusal :=
  finish (.xli xd imm) s (.ok (s.putX xd (sext16 imm)))

end Sys2Proof.Machine
end

