-- ==== Sys2Proof/Machine/Multiply.lean ====
section
/-! DEFINITION. The schoolbook multiplier and MUL (43_multiply.md R165, R166). -/

namespace Sys2Proof.Machine

/-- The inner loop of R165 for one word `q` of the multiplier: over the words of `p`, accumulate into the window `r`,
and leave the carry in the word above. All sequences least-significant word first. -/
def mulRow (q : Word) : List Word → List Word → Nat → List Word
  | [], r, carry => BitVec.ofNat 32 carry :: r.tail
  | p :: ps, r, carry =>
    let t := p.toNat * q.toNat + (r.headD 0#32).toNat + carry
    BitVec.ofNat 32 t :: mulRow q ps r.tail (t / wordBase)

/-- The outer loop of R165: each row settles the lowest word of the window and the next row starts one word up. -/
def mulLoop (p : List Word) : List Word → List Word → List Word
  | [], r => r
  | q :: qs, r =>
    let row := mulRow q p r 0
    row.headD 0#32 :: mulLoop p qs row.tail

/-- `mulmag(p, q)` (R165). -/
def mulmag (p q : List Word) : List Word :=
  dropZeroTop (mulLoop p.reverse q.reverse (List.replicate (p.length + q.length) 0#32)).reverse

/-- MUL of two values, with its report (R166). -/
def mulValues (a b : Value) : Reported :=
  if a.sign = .zero ∨ b.sign = .zero then { value := zeroValue, src := .const }
  else { value := { sign := Sign.ofProduct a.sign b.sign, mag := mulmag a.mag b.mag }, src := .fresh }

/-- MUL (R166). -/
def execMul (vd va vb : VReg) (s : State) : Host.Outcome State Fault Refusal :=
  finish (.mul vd va vb) s do
    let a ← s.readV va
    let b ← s.readV vb
    s.writeV vd (mulValues a b)

end Sys2Proof.Machine
end

