-- ==== Sys2Proof/Machine/Pow.lean ====
section
/-! DEFINITION. The square-and-multiply exponentiator and POW (45_pow.md R200, R201). -/

namespace Sys2Proof.Machine

/-- The loop of R200 over the `n` low bits of `e`, from the most significant down. -/
def powBits (a : Value) (e : Nat) : Nat → Value → Value
  | 0, acc => acc
  | i + 1, acc =>
    let sq := (mulValues acc acc).value
    powBits a e i (if e.testBit i then (mulValues sq a).value else sq)

/-- `powloop(a, e)`, for a nonzero `a` and `e >= 2` (R200); `log2 e + 1` is the number of significant bits of `e`. -/
def powloop (a : Value) (e : Nat) : Value := powBits a e (e.log2 + 1) oneValue

/-- The tests of R201 in their order. -/
def powValue (a : Value) (e : Int) : Except ErrorKind Reported :=
  if e < 0 then .error .negativeExponent
  else if e = 0 then .ok { value := oneValue, src := .const }
  else if e = 1 then .ok { value := a, src := .sameA }
  else if a.sign = .zero then .ok { value := zeroValue, src := .fresh }
  else .ok { value := powloop a e.toNat, src := .fresh }

/-- POW (R201). -/
def execPow (vd va : VReg) (xb : XReg) (s : State) : Host.Outcome State Fault Refusal :=
  finish (.pow vd va xb) s do
    let a ← s.readV va
    let r ← powValue a (s.readX xb)
    s.writeV vd r

end Sys2Proof.Machine
end

