-- ==== Sys2Proof/Machine/Dispatch.lean ====
section
/-! DEFINITION. One arm per command (30_encoding.md R96). -/

namespace Sys2Proof.Machine

def exec (i : Instr) (s : State) : Host.Outcome State Fault Refusal :=
  match i with
  | .nop => Sys2Proof.Machine.execNop s
  | .const vd k => Sys2Proof.Machine.execConst vd k s
  | .mov vd va => Sys2Proof.Machine.execMov vd va s
  | .free vd => Sys2Proof.Machine.execFree vd s
  | .xli xd imm => Sys2Proof.Machine.execXli xd imm s
  | .frombytes vd => Sys2Proof.Machine.execFrombytes vd s
  | .fromwords vd => Sys2Proof.Machine.execFromwords vd s
  | .fromint64 vd xa => Sys2Proof.Machine.execFromint64 vd xa s
  | .cmp xd va vb => Sys2Proof.Machine.execCmp xd va vb s
  | .min vd va vb => Sys2Proof.Machine.execMin vd va vb s
  | .max vd va vb => Sys2Proof.Machine.execMax vd va vb s
  | .add vd va vb => Sys2Proof.Machine.execAdd vd va vb s
  | .sub vd va vb => Sys2Proof.Machine.execSub vd va vb s
  | .neg vd va => Sys2Proof.Machine.execNeg vd va s
  | .abs vd va => Sys2Proof.Machine.execAbs vd va s
  | .mul vd va vb => Sys2Proof.Machine.execMul vd va vb s
  | .divrem vq vr va vb => Sys2Proof.Machine.execDivrem vq vr va vb s
  | .div vd va vb => Sys2Proof.Machine.execDiv vd va vb s
  | .rem vd va vb => Sys2Proof.Machine.execRem vd va vb s
  | .mod vd va vb => Sys2Proof.Machine.execMod vd va vb s
  | .pow vd va xb => Sys2Proof.Machine.execPow vd va xb s
  | .and vd va vb => Sys2Proof.Machine.execAnd vd va vb s
  | .or vd va vb => Sys2Proof.Machine.execOr vd va vb s
  | .xor vd va vb => Sys2Proof.Machine.execXor vd va vb s
  | .andnot vd va vb => Sys2Proof.Machine.execAndnot vd va vb s
  | .not vd va => Sys2Proof.Machine.execNot vd va s
  | .testbit xd va xb => Sys2Proof.Machine.execTestbit xd va xb s
  | .setbit vd va xb => Sys2Proof.Machine.execSetbit vd va xb s
  | .clrbit vd va xb => Sys2Proof.Machine.execClrbit vd va xb s
  | .flipbit vd va xb => Sys2Proof.Machine.execFlipbit vd va xb s
  | .shl vd va xb => Sys2Proof.Machine.execShl vd va xb s
  | .shr vd va xb => Sys2Proof.Machine.execShr vd va xb s
  | .tobytes va => Sys2Proof.Machine.execTobytes va s
  | .tozfbytes va xb => Sys2Proof.Machine.execTozfbytes va xb s
  | .bitlen xd va => Sys2Proof.Machine.execBitlen xd va s
  | .bitcnt xd va => Sys2Proof.Machine.execBitcnt xd va s
  | .maglen xd va => Sys2Proof.Machine.execMaglen xd va s
  | .signum xd va => Sys2Proof.Machine.execSignum xd va s
  | .magwf xd va xb => Sys2Proof.Machine.execMagwf xd va xb s
  | .magwr xd va xb => Sys2Proof.Machine.execMagwr xd va xb s
  | .wordat xd va xb => Sys2Proof.Machine.execWordat xd va xb s

end Sys2Proof.Machine
end

