-- ==== Sys2Proof/Machine/Port.lean ====
section
/-! DEFINITION. The host port: one whole access to one register, and reset (10_state.md R37; 20_memory.md R60 to R79;
70_reset_and_hazards.md R330). -/

namespace Sys2Proof.Machine

/-! ## Views -/

/-- `VSTAT`: bit `i` is 1 if `V[i]` is not `EMPTY` (R36). -/
def State.vstat (s : State) : Word :=
  s.v.toList.foldr (fun o acc => (acc <<< 1) ||| (if o.isSome then 1 else 0)) 0

/-- `XSEL` as a register number (R35). -/
def State.selected (s : State) : XReg := Fin.ofNat 16 s.xsel.toNat

/-- The register at an offset of the map, if there is one (R37). -/
def portReg (offset : Nat) : Option PortReg :=
  match offset with
  | 0x00 => some .cmd
  | 0x04 => some .status
  | 0x08 => some .errlog
  | 0x0C => some .errcmd
  | 0x10 => some .blen
  | 0x14 => some .bctl
  | 0x18 => some .bpush8
  | 0x1C => some .bpush32
  | 0x20 => some .bpop8
  | 0x24 => some .bpop32
  | 0x28 => some .brp
  | 0x2C => some .xsel
  | 0x30 => some .xlo
  | 0x34 => some .xhi
  | 0x38 => some .vstat
  | _ => none

/-- The register an access reaches: only a 32-bit access at a multiple of 4 reaches one (R65). -/
def accessed (bits offset : Nat) : Option PortReg :=
  if bits = 32 ∧ offset % 4 = 0 then portReg offset else none

/-! ## Reads -/

/-- A read that returns `w` and changes nothing else (R67). -/
def State.answer (s : State) (w : Word) : State := { s with reply := some w }

/-- A read that logs a port error and returns an unspecified word, drawn from the free values (R77, R79, I5). -/
def State.answerUnspecified (s : State) (e : ErrorKind) : State :=
  { s.logPort e with reply := some (Config.freeWord s.freeCount), freeCount := s.freeCount + 1 }

/-- `BPOP8` (R77). -/
def State.pop8 (s : State) : State :=
  match s.byteAt s.brp with
  | some b => { s.answer (b.setWidth 32) with brp := s.brp + 1 }
  | none => s.answerUnspecified .bufferUnderrun

/-- `BPOP32` (R77). -/
def State.pop32 (s : State) : State :=
  match s.buf.drop s.brp with
  | b0 :: b1 :: b2 :: b3 :: _ => { s.answer (joinBytes b0 b1 b2 b3) with brp := s.brp + 4 }
  | _ => s.answerUnspecified .bufferUnderrun

/-- A read of a register of the map; a read of a write-only register is a bad access (R37, R79). -/
def readReg (r : PortReg) (s : State) : State :=
  match r with
  | .status => s.answer s.status
  | .errlog => s.answer s.errlog
  | .errcmd => s.answer s.errcmd
  | .blen => s.answer (BitVec.ofNat 32 s.buf.length)
  | .bpop8 => s.pop8
  | .bpop32 => s.pop32
  | .brp => s.answer (BitVec.ofNat 32 s.brp)
  | .xsel => s.answer (s.xsel.setWidth 32)
  | .xlo => s.answer ((s.xReg s.selected).extractLsb' 0 32)
  | .xhi => s.answer ((s.xReg s.selected).extractLsb' 32 32)
  | .vstat => s.answer s.vstat
  | .cmd | .bctl | .bpush8 | .bpush32 => s.answerUnspecified .badAccess

/-- Serving a read (R65, R79). -/
def readPort (bits offset : Nat) (s : State) : Host.Outcome State Fault Refusal :=
  .next (match accessed bits offset with
    | some r => readReg r s
    | none => s.answerUnspecified .badAccess)

/-! ## Writes -/

/-- A write of `CMD` executes the word: it decodes to one command, or it is `IllegalCommand` (R72, R95). -/
def runCommand (c : Word) (s : State) : Host.Outcome State Fault Refusal :=
  match decode c with
  | .ok i => exec i s
  | .error _ => .next (s.raise .illegalCommand c)

/-- `X[i]` with its low half replaced (R78, `XLO`). -/
def State.setLow (s : State) (i : XReg) (c : Word) : State :=
  { s with x := s.x.set i.val ((s.xReg i).extractLsb' 32 32 ++ c) }

/-- `X[i]` with its high half replaced (R78, `XHI`). -/
def State.setHigh (s : State) (i : XReg) (c : Word) : State :=
  { s with x := s.x.set i.val (c ++ (s.xReg i).extractLsb' 0 32) }

/-- A write of `c` to a register of the map; a write to a read-only register is a bad access (R37, R79). -/
def writeReg (r : PortReg) (c : Word) (s : State) : Host.Outcome State Fault Refusal :=
  match r with
  | .cmd => runCommand c s
  | .errlog => .next { s with errlog := clearErrors s.errlog c }
  | .bctl => .next (s.control c)
  | .bpush8 => .next (s.push [BitVec.ofNat 8 c.toNat])
  | .bpush32 => .next (s.push (splitWord c))
  | .xsel => .next { s with xsel := BitVec.ofNat 4 c.toNat }
  | .xlo => .next (s.setLow s.selected c)
  | .xhi => .next (s.setHigh s.selected c)
  | .status | .errcmd | .blen | .bpop8 | .bpop32 | .brp | .vstat => .next (s.logPort .badAccess)

/-- Serving a write (R65, R79). -/
def writePort (bits offset : Nat) (c : Word) (s : State) : Host.Outcome State Fault Refusal :=
  match accessed bits offset with
  | some r => writeReg r c s
  | none => .next (s.logPort .badAccess)

/-! ## Inputs -/

/-- The reset input: the state of R45, whatever was in progress (R330, R331). The parameters are the machine's, and the
inputs still to come and the free values drawn are not the block's, so they stay (DESIGN CHOICE, log 11). -/
def State.applyReset (s : State) : State :=
  { State.reset with params := s.params, inputs := s.inputs, freeCount := s.freeCount }

/-- Serving one host input, to completion (R70). -/
def serve (a : Input) (s : State) : Host.Outcome State Fault Refusal :=
  match a with
  | .read bits offset => readPort bits offset s
  | .write bits offset c => writePort bits offset c s
  | .reset => .next s.applyReset

/-- The state in which the first pending input is served: it is taken off the queue, and no word has been returned to
it yet (log 1, 2). -/
def State.take (s : State) (rest : List Input) : State := { s with inputs := rest, reply := none }

end Sys2Proof.Machine
end

