-- ==== Sys2Proof/Machine/Step.lean ====
section
/-! DEFINITION. One step: the service of one host input (10_state.md R27; 20_memory.md R70, R71). -/

namespace Sys2Proof.Machine

/-- One step. "The block executes exactly one command for each write the host makes to `CMD`" (R27) and never acts on its
own (R71): with no input pending it is idle and nothing changes (R314; log 1). -/
def step (s : State) : Host.Outcome State Fault Refusal :=
  match s.inputs with
  | [] => .next s
  | a :: rest => serve a (s.take rest)

/-- The state in which the host's next access is the write of a command word to `CMD`, so that the very next step
executes it. A program is the list of words the host writes (R27), loaded from outside the machine (log 1). -/
def State.withFetchWord (s : State) (nbits w : Nat) : State :=
  { s with inputs := .write 32 0x00 (BitVec.ofNat 32 (w % 2 ^ nbits)) :: s.inputs }

end Sys2Proof.Machine
end

