-- ==== Sys2Proof/Safety.lean ====
section
/-! DEFINITION. What claims call a legal state: the invariants 10_state.md gives the stores, in decidable form; and what a
command reads and writes (30_encoding.md R96). -/

namespace Sys2Proof.Machine

/-- A value register holds nothing or a canonical value of at most `MAXW` words (R21). -/
def legalReg (maxw : Option Nat) : Option Value → Bool
  | none => true
  | some a => a.canonical && fitsIn maxw a.mag

/-- `STATUS` as R28 and R31 allow it: an error code 0 to 11 with no report, or no error and two reports of codes 0 to 5;
bits 31:14 are 0. -/
def legalStatus (w : Word) : Bool :=
  slice w 31 14 == 0 && slice w 7 0 ≤ 11 && slice w 10 8 ≤ 5 && slice w 13 11 ≤ 5 &&
    (slice w 7 0 == 0 || slice w 13 8 == 0)

/-- `ERRLOG`: only bits 1 to 14 exist (R32). -/
def legalErrlog (w : Word) : Bool := w &&& ~~~errlogMask == 0

/-- The state invariants of 10_state.md: R6, R21, R28, R32, R34. -/
def State.legal (s : State) : Bool :=
  s.params.legal && s.v.toList.all (legalReg s.params.maxw) && Memory.wf s && legalStatus s.status &&
    legalErrlog s.errlog

/-- A run is safe as far as it goes when every step of it answers a next state. -/
def Runs (s : State) : Prop := ∃ t, step s = .next t

end Sys2Proof.Machine

namespace Sys2Proof.Claims

/-! ## What a command reads and writes -/

/-- The `V` sources of a command, `ra` before `rb` (R96, R298). -/
def vSources : Instr → List VReg
  | .nop | .const .. | .free .. | .xli .. | .frombytes .. | .fromwords .. | .fromint64 .. => []
  | .mov _ a | .neg _ a | .abs _ a | .not _ a | .pow _ a _ | .testbit _ a _ | .setbit _ a _ | .clrbit _ a _
  | .flipbit _ a _ | .shl _ a _ | .shr _ a _ | .tobytes a | .tozfbytes a _ | .bitlen _ a | .bitcnt _ a
  | .maglen _ a | .signum _ a | .magwf _ a _ | .magwr _ a _ | .wordat _ a _ => [a]
  | .cmp _ a b | .min _ a b | .max _ a b | .add _ a b | .sub _ a b | .mul _ a b | .divrem _ _ a b | .div _ a b
  | .rem _ a b | .mod _ a b | .and _ a b | .or _ a b | .xor _ a b | .andnot _ a b => [a, b]

/-- The `V` destinations of a command (R96). -/
def vDests : Instr → List VReg
  | .const d _ | .mov d _ | .free d | .frombytes d | .fromwords d | .fromint64 d _ | .min d _ _ | .max d _ _
  | .add d _ _ | .sub d _ _ | .neg d _ | .abs d _ | .mul d _ _ | .div d _ _ | .rem d _ _ | .mod d _ _ | .pow d _ _
  | .and d _ _ | .or d _ _ | .xor d _ _ | .andnot d _ _ | .not d _ | .setbit d _ _ | .clrbit d _ _ | .flipbit d _ _
  | .shl d _ _ | .shr d _ _ => [d]
  | .divrem q r _ _ => [q, r]
  | .nop | .xli .. | .cmp .. | .testbit .. | .tobytes .. | .tozfbytes .. | .bitlen .. | .bitcnt .. | .maglen ..
  | .signum .. | .magwf .. | .magwr .. | .wordat .. => []

/-- The `X` destination of a command (R96). -/
def xDests : Instr → List XReg
  | .xli d _ | .cmp d _ _ | .testbit d _ _ | .bitlen d _ | .bitcnt d _ | .maglen d _ | .signum d _ | .magwf d _ _
  | .magwr d _ _ | .wordat d _ _ => [d]
  | .nop | .const .. | .mov .. | .free .. | .frombytes .. | .fromwords .. | .fromint64 .. | .min .. | .max .. | .add ..
  | .sub .. | .neg .. | .abs .. | .mul .. | .divrem .. | .div .. | .rem .. | .mod .. | .pow .. | .and .. | .or ..
  | .xor .. | .andnot .. | .not .. | .setbit .. | .clrbit .. | .flipbit .. | .shl .. | .shr .. | .tobytes ..
  | .tozfbytes .. => []

/-- The two commands that replace the buffer (R287). -/
def storesBuf : Instr → Bool
  | .tobytes .. | .tozfbytes .. => true
  | .nop | .const .. | .mov .. | .free .. | .xli .. | .frombytes .. | .fromwords .. | .fromint64 .. | .cmp .. | .min ..
  | .max .. | .add .. | .sub .. | .neg .. | .abs .. | .mul .. | .divrem .. | .div .. | .rem .. | .mod .. | .pow ..
  | .and .. | .or .. | .xor .. | .andnot .. | .not .. | .testbit .. | .setbit .. | .clrbit .. | .flipbit .. | .shl ..
  | .shr .. | .bitlen .. | .bitcnt .. | .maglen .. | .signum .. | .magwf .. | .magwr .. | .wordat .. => false

end Sys2Proof.Claims
end

