-- ==== Sys2Proof/Certificates/Slice0/Obligations.lean ====
section
/-! DEFINITION. The statements for the provers, with the vocabulary of the spec they are written in. -/

namespace Sys2Proof.Claims

open Sys2Proof Sys2Proof.Machine

/-! ## The states in which a command can leave the block -/

/-- After a normal end that writes `V[vd]`: the value, and `STATUS` with the report (R12, R28, R31). -/
def afterV (s : State) (vd : VReg) (a : Value) (src : Rsrc) : State :=
  { s with v := s.v.set vd.val (some a), status := statusOk src .fresh }

/-- After a normal end that writes `X[xd]` (R12, R31). -/
def afterX (s : State) (xd : XReg) (z : Int) : State :=
  { s with x := s.x.set xd.val (BitVec.ofInt 64 z), status := 0 }

/-- After a normal end that replaces the byte buffer (R12, R31). -/
def afterBuf (s : State) (bytes : List Byte) : State :=
  { s with buf := bytes, brp := 0, status := 0 }

/-- After the command word `c` ended with error code `k` (R300): nothing but the report changes. -/
def afterError (s : State) (k : Nat) (c : Word) : State :=
  { s with status := BitVec.ofNat 32 k, errlog := s.errlog ||| BitVec.ofNat 32 (2 ^ k), errcmd := c }

/-- After a write that ended with the port error `k` (R309): only its `ERRLOG` bit is set. -/
def afterPortError (s : State) (k : Nat) : State :=
  { s with errlog := s.errlog ||| BitVec.ofNat 32 (2 ^ k) }

/-- After a read that ended with the port error `k`: the word returned is a free value, whichever it is (R77, R79; log 5). -/
def afterBadRead (s : State) (k : Nat) : State :=
  { afterPortError s k with reply := some (Config.freeWord s.freeCount), freeCount := s.freeCount + 1 }

/-- After a read that returned `w` (the model holds the returned word in `reply`, log 2). -/
def afterRead (s : State) (w : Word) : State := { s with reply := some w }

/-! ## Fields and tables of the spec -/

/-- `STATUS.ERR` (R28). -/
def errField (s : State) : Nat := slice s.status 7 0

/-- A value that fits a value register: at most `MAXW` words (R21, R299). -/
def fitsWords (s : State) (a : Value) : Bool := s.params.maxw.all (fun m => a.mag.length ≤ m)

/-- A byte count that fits the buffer: at most `BUFCAP` (R34, R299). -/
def fitsBytes (s : State) (n : Nat) : Bool := s.params.bufcap.all (fun m => n ≤ m)

/-- The "raised by" column of R291, for the codes 1 to 11 and the commands that can raise them. -/
def mayRaise (k : Nat) (i : Instr) : Bool :=
  match k, i with
  | 1, .frombytes .. | 1, .fromwords .. => true
  | 2, .divrem .. | 2, .div .. | 2, .rem .. => true
  | 3, .mod .. => true
  | 4, .pow .. => true
  | 5, .testbit .. | 5, .setbit .. | 5, .clrbit .. | 5, .flipbit .. => true
  | 6, .tozfbytes .. => true
  | 8, i => !(vSources i).isEmpty
  | 9, .bitlen .. | 9, .bitcnt .. | 9, .maglen .. => true
  | 9, i => !(vDests i).isEmpty || storesBuf i
  | 10, .magwf .. | 10, .magwr .. | 10, .wordat .. => true
  | 11, .fromwords .. => true
  | _, _ => false

/-- A row of spec/opcode_table.json: its `match` and `mask`, and the command its fields make. -/
structure Row where
  pattern : Word
  mask : Word
  build : (rd ra rb rd2 : Fin 16) → (imm : BitVec 16) → Instr

/-- The row takes a word: `(c & mask) = match` (R95). -/
abbrev Row.takes (r : Row) (c : Word) : Prop := c &&& r.mask = r.pattern

/-- The command a row makes of a word: `rd` in bits 23:20, `ra` 19:16, `rb` 15:12, `rd2` 11:8, `imm16` 15:0 (R91, R92). -/
def Row.command (r : Row) (c : Word) : Instr :=
  r.build (Fin.ofNat 16 (c.extractLsb' 20 4).toNat) (Fin.ofNat 16 (c.extractLsb' 16 4).toNat)
    (Fin.ofNat 16 (c.extractLsb' 12 4).toNat) (Fin.ofNat 16 (c.extractLsb' 8 4).toNat) (c.extractLsb' 0 16)

/-- The rows of the families 0x0 to 0x4 (R96). -/
def rowsLow : List Row :=
  [⟨0x00000000, 0xFFFFFFFF, fun _ _ _ _ _ => .nop⟩, ⟨0x01000000, 0xFF0FFFFC, fun d _ _ _ k => .const d k⟩,
    ⟨0x02000000, 0xFF00FFFF, fun d a _ _ _ => .mov d a⟩, ⟨0x03000000, 0xFF0FFFFF, fun d _ _ _ _ => .free d⟩,
    ⟨0x04000000, 0xFF0F0000, fun d _ _ _ k => .xli d k⟩, ⟨0x10000000, 0xFF0FFFFF, fun d _ _ _ _ => .frombytes d⟩,
    ⟨0x11000000, 0xFF0FFFFF, fun d _ _ _ _ => .fromwords d⟩, ⟨0x12000000, 0xFF00FFFF, fun d a _ _ _ => .fromint64 d a⟩,
    ⟨0x20000000, 0xFF000FFF, fun d a b _ _ => .cmp d a b⟩, ⟨0x21000000, 0xFF000FFF, fun d a b _ _ => .min d a b⟩,
    ⟨0x22000000, 0xFF000FFF, fun d a b _ _ => .max d a b⟩, ⟨0x30000000, 0xFF000FFF, fun d a b _ _ => .add d a b⟩,
    ⟨0x31000000, 0xFF000FFF, fun d a b _ _ => .sub d a b⟩, ⟨0x32000000, 0xFF00FFFF, fun d a _ _ _ => .neg d a⟩,
    ⟨0x33000000, 0xFF00FFFF, fun d a _ _ _ => .abs d a⟩, ⟨0x40000000, 0xFF000FFF, fun d a b _ _ => .mul d a b⟩]

/-- The rows of the families 0x5 to 0x9 (R96). -/
def rowsHigh : List Row :=
  [⟨0x50000000, 0xFF0000FF, fun d a b d2 _ => .divrem d d2 a b⟩, ⟨0x51000000, 0xFF000FFF, fun d a b _ _ => .div d a b⟩,
    ⟨0x52000000, 0xFF000FFF, fun d a b _ _ => .rem d a b⟩, ⟨0x53000000, 0xFF000FFF, fun d a b _ _ => .mod d a b⟩,
    ⟨0x60000000, 0xFF000FFF, fun d a b _ _ => .pow d a b⟩, ⟨0x70000000, 0xFF000FFF, fun d a b _ _ => .and d a b⟩,
    ⟨0x71000000, 0xFF000FFF, fun d a b _ _ => .or d a b⟩, ⟨0x72000000, 0xFF000FFF, fun d a b _ _ => .xor d a b⟩,
    ⟨0x73000000, 0xFF000FFF, fun d a b _ _ => .andnot d a b⟩, ⟨0x74000000, 0xFF00FFFF, fun d a _ _ _ => .not d a⟩,
    ⟨0x75000000, 0xFF000FFF, fun d a b _ _ => .testbit d a b⟩, ⟨0x76000000, 0xFF000FFF, fun d a b _ _ => .setbit d a b⟩,
    ⟨0x77000000, 0xFF000FFF, fun d a b _ _ => .clrbit d a b⟩, ⟨0x78000000, 0xFF000FFF, fun d a b _ _ => .flipbit d a b⟩,
    ⟨0x79000000, 0xFF000FFF, fun d a b _ _ => .shl d a b⟩, ⟨0x7A000000, 0xFF000FFF, fun d a b _ _ => .shr d a b⟩,
    ⟨0x80000000, 0xFFF0FFFF, fun _ a _ _ _ => .tobytes a⟩, ⟨0x81000000, 0xFFF00FFF, fun _ a b _ _ => .tozfbytes a b⟩,
    ⟨0x82000000, 0xFF00FFFF, fun d a _ _ _ => .bitlen d a⟩, ⟨0x83000000, 0xFF00FFFF, fun d a _ _ _ => .bitcnt d a⟩,
    ⟨0x90000000, 0xFF00FFFF, fun d a _ _ _ => .maglen d a⟩, ⟨0x91000000, 0xFF00FFFF, fun d a _ _ _ => .signum d a⟩,
    ⟨0x92000000, 0xFF000FFF, fun d a b _ _ => .magwf d a b⟩, ⟨0x93000000, 0xFF000FFF, fun d a b _ _ => .magwr d a b⟩,
    ⟨0x94000000, 0xFF000FFF, fun d a b _ _ => .wordat d a b⟩]

/-- spec/opcode_table.json. -/
def opcodeRows : List Row := rowsLow ++ rowsHigh

/-- `rd = rd2`, which makes a word of `DIVREM`'s row illegal (R95 step 3). -/
abbrev sameDestinations (c : Word) : Prop :=
  c &&& 0xFF0000FF = 0x50000000 ∧ c.extractLsb' 20 4 = c.extractLsb' 8 4

/-! ## Integers and their encodings -/

/-- The two's-complement reading of a string of `k`-bit units, most significant first (R62, R121). -/
def twosReading {k : Nat} (u : List (BitVec k)) : Int :=
  let n : Nat := u.foldl (fun acc w => acc * 2 ^ k + w.toNat) 0
  if (u.headD 0#k).msb then (n : Int) - 2 ^ (k * u.length) else (n : Int)

/-- The `n`-byte big-endian two's-complement encoding of an integer in its range (R62). -/
def bigEndian (n : Nat) (z : Int) : List Byte := (List.range n).map fun j => BitVec.ofInt 8 (z / 256 ^ (n - 1 - j))

/-- `n >= 1` bytes hold `z`: `-2^(8n-1) <= z <= 2^(8n-1) - 1` (R250). -/
def inBytes (n : Nat) (z : Int) : Bool := 1 ≤ n && -(2 ^ (8 * n - 1)) ≤ z && z < 2 ^ (8 * n - 1)

/-- The number of significant bits of a number, 0 for 0. -/
def sigBits (n : Nat) : Nat := if n = 0 then 0 else n.log2 + 1

/-- The number of 1 bits of a number. -/
def oneBits (n : Nat) : Nat := ((List.range (sigBits n)).filter n.testBit).length

/-- `z` for `z >= 0` and `-z - 1` for `z < 0`: the bits of the view that differ from the sign, as a number (R253, R255). -/
def signStripped (z : Int) : Nat := if 0 ≤ z then z.toNat else (-z - 1).toNat

/-- `floor(z * 2^n)`, for every integer `n` (R226). -/
def shifted (z n : Int) : Int := if 0 ≤ n then z * 2 ^ n.toNat else z / 2 ^ (-n).toNat

/-- `z` with bit `p` of its two's-complement view set (R221). -/
def bitSet (z : Int) (p : Nat) : Int := if z / 2 ^ p % 2 = 1 then z else z + 2 ^ p

/-- `z` with bit `p` of its two's-complement view cleared (R222). -/
def bitCleared (z : Int) (p : Nat) : Int := if z / 2 ^ p % 2 = 1 then z - 2 ^ p else z

/-- `z` with bit `p` of its two's-complement view flipped (R223). -/
def bitFlipped (z : Int) (p : Nat) : Int := if z / 2 ^ p % 2 = 1 then bitCleared z p else bitSet z p

/-- The report of the quotient of `d` by `v` (R175). -/
def quotientReport (v : Int) : Rsrc := if v.natAbs = 1 then .magA else .fresh

/-- The report of the remainder of `d` by `v` (R175). -/
def remainderReport (d v : Int) : Rsrc := if v.natAbs ≠ 1 ∧ d ≠ 0 ∧ d.natAbs < v.natAbs then .sameA else .fresh

/-- A magnitude with no leading zero word (R10). -/
def canonicalMag (ws : List Word) : Bool := ws.head? != some 0#32

end Sys2Proof.Claims

open Sys2Proof Sys2Proof.Machine Sys2Proof.Claims

/-! ## Encoding -/

/-- Decoding the word of a well-formed command gives it back, for every value of every field (R91, R92, R95, R96). -/
def Obligations.DecodeOfEncode : Prop := ∀ i : Instr, i.wellFormed = true → decode (encode i) = .ok i

/-- Each word has one meaning: a word that decodes is the word of the command it decodes to, and that command is
well-formed (R95, R97). With `DecodeOfEncode` it makes `encode i` the command word that `ERRCMD` reports (log 9). -/
def Obligations.EncodeOfDecode : Prop :=
  ∀ (c : Word) (i : Instr), decode c = .ok i → encode i = c ∧ i.wellFormed = true

/-- R95, through the rows of spec/opcode_table.json: a word decodes to a command exactly when a row takes it, the command
is the row's with the row's fields, and `DIVREM` has two destinations; no word is taken by two rows. -/
def Obligations.DecodeMatchesOpcodeTable : Prop :=
  (∀ (c : Word) (i : Instr),
    decode c = .ok i ↔ ∃ r ∈ opcodeRows, r.takes c ∧ i = r.command c ∧ ¬sameDestinations c) ∧
  opcodeRows.Pairwise fun r q => ∀ c : Word, ¬(r.takes c ∧ q.takes c)

/-- The worked encodings of R101, and one word for each other family, laid out from its row (R91, R96). -/
def Obligations.WorkedEncodingsDecode : Prop :=
  decode 0x00000000 = .ok .nop ∧
  decode 0x01000001 = .ok (.const 0 1) ∧
  decode 0x0410000A = .ok (.xli 1 10) ∧
  decode 0x0420FFFF = .ok (.xli 2 0xFFFF) ∧
  decode 0x30312000 = .ok (.add 3 1 2) ∧
  decode 0x50412500 = .ok (.divrem 4 5 1 2) ∧
  decode 0x79211000 = .ok (.shl 2 1 1) ∧
  decode 0x80020000 = .ok (.tobytes 2) ∧
  decode 0x12630000 = .ok (.fromint64 6 3) ∧
  decode 0x20498000 = .ok (.cmp 4 9 8) ∧
  decode 0x407AB000 = .ok (.mul 7 10 11) ∧
  decode 0x60CDE000 = .ok (.pow 12 13 14) ∧
  decode 0x929AB000 = .ok (.magwf 9 10 11) ∧
  decode 0x30312001 = .error .reservedBit ∧
  decode 0x05000000 = .error .unknownOpcode ∧
  decode 0x50412400 = .error .sameDestination

/-- R297: a word that no row takes, or that names one register as both destinations of `DIVREM`, changes nothing but the
error record: code 7. -/
def Obligations.IllegalWordOnlyReports : Prop :=
  ∀ (c : Word) (s : State), ((∀ r ∈ opcodeRows, ¬r.takes c) ∨ sameDestinations c) →
    serve (.write 32 0x00 c) s = .next (afterError s 7 c)

/-! ## Steps -/

/-- A step runs the decoded command: a pending write of `c` to `CMD` is taken off the queue, the reply is emptied (log 1,
log 2), and the step is `exec` of the command `c` decodes to, or the report of an illegal command (R27, R70, R72). So
does the step after `withFetchWord`, whose word is the next one the host writes. -/
def Obligations.StepRunsWrittenCommand : Prop :=
  (∀ (s : State) (c : Word) (rest : List Input), s.inputs = .write 32 0x00 c :: rest →
    (∀ i, decode c = .ok i → step s = exec i { s with inputs := rest, reply := none }) ∧
    (∀ e, decode c = .error e → step s = .next (afterError { s with inputs := rest, reply := none } 7 c))) ∧
  (∀ (s : State) (w : Nat) (i : Instr), decode (BitVec.ofNat 32 w) = .ok i →
    step (s.withFetchWord 32 w) = exec i { s with reply := none })

/-- Every other step: with no input pending nothing changes (R71, R314; log 1); a reset gives the reset state, keeping the
parameters, the inputs still to come and the count of free values (log 11); any other access is served. -/
def Obligations.StepServesFirstInput : Prop :=
  (∀ s : State, s.inputs = [] → step s = .next s) ∧
  (∀ (s : State) (a : Input) (rest : List Input), s.inputs = a :: rest →
    step s = serve a { s with inputs := rest, reply := none }) ∧
  (∀ s : State, serve .reset s =
    .next { State.reset with params := s.params, inputs := s.inputs, freeCount := s.freeCount })

/-- The machine never stops (R290, R303, R336): every command, every access and every step answers a next state. -/
def Obligations.EveryStepCompletes : Prop :=
  (∀ (i : Instr) (s : State), ∃ t, exec i s = .next t) ∧
  (∀ (a : Input) (s : State), ∃ t, serve a s = .next t) ∧
  ∀ s : State, ∃ t, step s = .next t

/-- R45: the state after reset, every store of the table. -/
def Obligations.ResetStores : Prop :=
  (∀ i : VReg, State.reset.vReg i = none) ∧ (∀ i : XReg, State.reset.xReg i = 0) ∧ State.reset.buf = [] ∧
  State.reset.brp = 0 ∧ State.reset.status = 0 ∧ State.reset.errlog = 0 ∧ State.reset.errcmd = 0 ∧ State.reset.xsel = 0

/-- The reset state meets the invariants of R6, R21, R28, R32, R34. -/
def Obligations.ResetStateLegal : Prop := State.reset.legal = true

/-- Every step keeps the invariants of R6, R21, R28, R32, R34: every held value is canonical and within `MAXW`, the buffer
is in canonical form and within `BUFCAP`, `BRP <= BLEN`, `STATUS` and `ERRLOG` have only the bits they may have. -/
def Obligations.StepKeepsLegal : Prop :=
  ∀ s t : State, s.legal = true → step s = .next t → t.legal = true

/-! ## Errors -/

/-- R28, R31 and R291: the fields of the `STATUS` word of a normal end and of an error, code by code. -/
def Obligations.StatusWordLayout : Prop :=
  (∀ a b : Rsrc, slice (statusOk a b) 7 0 = 0 ∧ slice (statusOk a b) 10 8 = a.code ∧
    slice (statusOk a b) 13 11 = b.code ∧ slice (statusOk a b) 31 14 = 0) ∧
  (∀ e : ErrorKind, slice (statusError e) 7 0 = e.code ∧ slice (statusError e) 31 8 = 0) ∧
  [Rsrc.fresh, .sameA, .sameB, .const, .magA, .magB].map Rsrc.code = [0, 1, 2, 3, 4, 5] ∧
  [ErrorKind.constructionError, .divisionByZero, .nonPositiveModulus, .negativeExponent, .negativeBitPosition,
    .fieldWidthOverflow, .illegalCommand, .emptyRegister, .capacityOverflow, .badIndex, .badLength, .bufferOverflow,
    .bufferUnderrun, .badAccess].map ErrorKind.code = [1, 2, 3, 4, 5, 6, 7, 8, 9, 10, 11, 12, 13, 14]

/-- R300, R33: whatever word is written to `CMD`, either the command ends normally and `ERRLOG` and `ERRCMD` keep their
values, or it ends with an error code 1 to 11 and the report of that code is all that changes. -/
def Obligations.ErrorEntryChangesNothingElse : Prop :=
  ∀ (c : Word) (s t : State), serve (.write 32 0x00 c) s = .next t →
    (errField t = 0 → t.errlog = s.errlog ∧ t.errcmd = s.errcmd) ∧
    (errField t ≠ 0 → errField t ≤ 11 ∧ t = afterError s (errField t) c)

/-- R30: what a command does to the stores, and what it reports in `STATUS`, does not depend on the outcome of earlier
commands: two states that differ only in `STATUS`, `ERRLOG`, `ERRCMD` (and `XSEL` and the model's own fields) end alike. -/
def Obligations.CommandsIgnoreEarlierOutcomes : Prop :=
  ∀ (i : Instr) (s s' t t' : State), s.v = s'.v → s.x = s'.x → s.buf = s'.buf → s.brp = s'.brp → s.params = s'.params →
    exec i s = .next t → exec i s' = .next t' →
    t.v = t'.v ∧ t.x = t'.x ∧ t.buf = t'.buf ∧ t.brp = t'.brp ∧ t.status = t'.status

/-- R298 and its place in R302: a command reports `EmptyRegister` exactly when a `V` source is `EMPTY`, whatever its other
operands are. -/
def Obligations.EmptySourceReported : Prop :=
  (∀ (c : Word) (i : Instr) (s : State), decode c = .ok i → (∃ r ∈ vSources i, s.vReg r = none) →
    exec i s = .next (afterError s 8 c)) ∧
  (∀ (i : Instr) (s t : State), exec i s = .next t → errField t = 8 → ∃ r ∈ vSources i, s.vReg r = none)

/-- The "raised by" column of R291: a command word ends with an error only if its row may raise it. -/
def Obligations.ErrorsRaisedByTheirCommands : Prop :=
  ∀ (c : Word) (i : Instr) (s t : State), decode c = .ok i → exec i s = .next t → errField t ≠ 0 →
    mayRaise (errField t) i = true

/-! ## Housekeeping -/

/-- R280, R282: `NOP` only reports a normal end; `MOV` copies the value held and reports `SAME_A`. -/
def Obligations.NopAndMovReport : Prop :=
  (∀ s : State, exec .nop s = .next { s with status := 0 }) ∧
  ∀ (vd va : VReg) (s : State) (a : Value), s.legal = true → s.vReg va = some a →
    exec (.mov vd va) s = .next (afterV s vd a .sameA)

/-- R281 with R24: `CONST` loads the four constants and reports `CONST`; R284 with R94: `XLI` writes the sign-extended
immediate to all 64 bits. -/
def Obligations.ImmediatesLoad : Prop :=
  (∀ (vd : VReg) (s : State), s.legal = true →
    exec (.const vd 0) s = .next (afterV s vd { sign := .zero, mag := [] } .const) ∧
    exec (.const vd 1) s = .next (afterV s vd { sign := .positive, mag := [1] } .const) ∧
    exec (.const vd 2) s = .next (afterV s vd { sign := .positive, mag := [2] } .const) ∧
    exec (.const vd 3) s = .next (afterV s vd { sign := .negative, mag := [1] } .const)) ∧
  ∀ (xd : XReg) (imm : BitVec 16) (s : State),
    exec (.xli xd imm) s =
      .next (afterX s xd (if imm.toNat < 2 ^ 15 then (imm.toNat : Int) else (imm.toNat : Int) - 2 ^ 16))

/-- R283: `FREE` empties its register, also an empty one, and no other command empties any. -/
def Obligations.OnlyFreeEmpties : Prop :=
  (∀ (vd : VReg) (s : State), exec (.free vd) s = .next { s with v := s.v.set vd.val none, status := 0 }) ∧
  (∀ (i : Instr) (s t : State) (r : VReg), exec i s = .next t → s.vReg r ≠ none → t.vReg r = none → i = .free r)

/-! ## Construction -/

/-- R121: the normalizer gives the canonical value of the two's-complement reading of a non-empty unit string, and raises
`ConstructionError` for the empty one. -/
def Obligations.NormalizerReadsTwosComplement : Prop :=
  ∀ (k : Nat) (u : List (BitVec k)), 0 < k →
    (u = [] → norm u = .error .constructionError) ∧ (u ≠ [] → norm u = .ok (canon (twosReading u)))

/-- R122: `FROMBYTES` reads the whole buffer as one big-endian two's-complement number; errors 1 and 9. -/
def Obligations.FrombytesReadsBuffer : Prop :=
  ∀ (vd : VReg) (s : State),
    (s.buf ≠ [] → fitsWords s (canon (twosReading s.buf)) = true →
      exec (.frombytes vd) s = .next (afterV s vd (canon (twosReading s.buf)) .fresh)) ∧
    (∀ c, decode c = .ok (.frombytes vd) → s.buf = [] → exec (.frombytes vd) s = .next (afterError s 1 c)) ∧
    (∀ c, decode c = .ok (.frombytes vd) → s.buf ≠ [] → fitsWords s (canon (twosReading s.buf)) = false →
      exec (.frombytes vd) s = .next (afterError s 9 c))

/-- R123, R124: `FROMWORDS` gives the same value on a buffer of whole words; errors 1, 11, 9 in this order. -/
def Obligations.FromwordsReadsWords : Prop :=
  ∀ (vd : VReg) (s : State),
    (s.buf ≠ [] → s.buf.length % 4 = 0 → fitsWords s (canon (twosReading s.buf)) = true →
      exec (.fromwords vd) s = .next (afterV s vd (canon (twosReading s.buf)) .fresh)) ∧
    (∀ c, decode c = .ok (.fromwords vd) → s.buf = [] → exec (.fromwords vd) s = .next (afterError s 1 c)) ∧
    (∀ c, decode c = .ok (.fromwords vd) → s.buf.length % 4 ≠ 0 → exec (.fromwords vd) s = .next (afterError s 11 c)) ∧
    (∀ c, decode c = .ok (.fromwords vd) → s.buf ≠ [] → s.buf.length % 4 = 0 →
      fitsWords s (canon (twosReading s.buf)) = false → exec (.fromwords vd) s = .next (afterError s 9 c))

/-- R125: `FROMINT64` builds the canonical value of the scalar; no error is possible. -/
def Obligations.Fromint64BuildsValue : Prop :=
  ∀ (vd : VReg) (xa : XReg) (s : State), s.legal = true →
    exec (.fromint64 vd xa) s = .next (afterV s vd (canon (s.xReg xa).toInt) .fresh)

/-! ## Comparison -/

/-- R141, R142: `compare` is the order of the integers, and `CMP` writes -1, 0 or 1. -/
def Obligations.CmpOrdersValues : Prop :=
  ∀ (xd : XReg) (va vb : VReg) (s : State) (a b : Value), s.legal = true → s.vReg va = some a → s.vReg vb = some b →
    compareValues a b = compare a.val b.val ∧
    exec (.cmp xd va vb) s =
      .next (afterX s xd (if a.val < b.val then -1 else if a.val = b.val then 0 else 1))

/-- R143, R144: the lesser and the greater, operand A on a tie. -/
def Obligations.MinMaxChooseOperand : Prop :=
  ∀ (vd va vb : VReg) (s : State) (a b : Value), s.legal = true → s.vReg va = some a → s.vReg vb = some b →
    exec (.min vd va vb) s = .next (if b.val < a.val then afterV s vd b .sameB else afterV s vd a .sameA) ∧
    exec (.max vd va vb) s = .next (if a.val < b.val then afterV s vd b .sameB else afterV s vd a .sameA)

/-! ## Adder, subtractor, multiplier -/

/-- R152: the sum of the integers, with the reports of the two zero cases; error 9. -/
def Obligations.AddIsExact : Prop :=
  ∀ (vd va vb : VReg) (s : State) (a b : Value), s.legal = true → s.vReg va = some a → s.vReg vb = some b →
    (fitsWords s (canon (a.val + b.val)) = true →
      exec (.add vd va vb) s = .next (afterV s vd (canon (a.val + b.val))
        (if a.val = 0 then .sameB else if b.val = 0 then .sameA else .fresh))) ∧
    (∀ c, decode c = .ok (.add vd va vb) → fitsWords s (canon (a.val + b.val)) = false →
      exec (.add vd va vb) s = .next (afterError s 9 c))

/-- R153: the difference of the integers, with the reports of the two zero cases; error 9. -/
def Obligations.SubIsExact : Prop :=
  ∀ (vd va vb : VReg) (s : State) (a b : Value), s.legal = true → s.vReg va = some a → s.vReg vb = some b →
    (fitsWords s (canon (a.val - b.val)) = true →
      exec (.sub vd va vb) s = .next (afterV s vd (canon (a.val - b.val))
        (if a.val = 0 then .magB else if b.val = 0 then .sameA else .fresh))) ∧
    (∀ c, decode c = .ok (.sub vd va vb) → fitsWords s (canon (a.val - b.val)) = false →
      exec (.sub vd va vb) s = .next (afterError s 9 c))

/-- R154, R155: the opposite and the absolute value, with the magnitude of the operand; no capacity error is possible. -/
def Obligations.NegAbsKeepMagnitude : Prop :=
  ∀ (vd va : VReg) (s : State) (a : Value), s.legal = true → s.vReg va = some a →
    (canon (-a.val)).mag = a.mag ∧
    exec (.neg vd va) s = .next (afterV s vd (canon (-a.val)) .magA) ∧
    exec (.abs vd va) s = .next (afterV s vd (canon a.val.natAbs) (if a.val < 0 then .magA else .sameA))

/-- R166: the product of the integers, with the report of the zero short-circuit; error 9. -/
def Obligations.MulIsExact : Prop :=
  ∀ (vd va vb : VReg) (s : State) (a b : Value), s.legal = true → s.vReg va = some a → s.vReg vb = some b →
    (fitsWords s (canon (a.val * b.val)) = true →
      exec (.mul vd va vb) s = .next (afterV s vd (canon (a.val * b.val))
        (if a.val = 0 ∨ b.val = 0 then .const else .fresh))) ∧
    (∀ c, decode c = .ok (.mul vd va vb) → fitsWords s (canon (a.val * b.val)) = false →
      exec (.mul vd va vb) s = .next (afterError s 9 c))

/-! ## Divider -/

/-- R179: both divider paths give the quotient and the remainder of the magnitudes, as canonical magnitudes. -/
def Obligations.DividersAreExact : Prop :=
  (∀ (u : List Word) (d : Word), d ≠ 0 →
    magNat u = d.toNat * magNat (divmag1 u d).1 + magNat (divmag1 u d).2 ∧ magNat (divmag1 u d).2 < d.toNat ∧
    canonicalMag (divmag1 u d).1 = true ∧ canonicalMag (divmag1 u d).2 = true) ∧
  (∀ u v : List Word, canonicalMag u = true → canonicalMag v = true → 2 ≤ v.length → magNat v < magNat u →
    magNat u = magNat v * magNat (divmagD u v).1 + magNat (divmagD u v).2 ∧ magNat (divmagD u v).2 < magNat v ∧
    canonicalMag (divmagD u v).1 = true ∧ canonicalMag (divmagD u v).2 = true)

/-- R180 with R176: `DIVREM` writes the truncating quotient and the remainder, each with its report, and never overflows;
R293: a zero divisor is error 2, also for a zero dividend. -/
def Obligations.DivremTruncates : Prop :=
  ∀ (vq vr va vb : VReg) (s : State) (a b : Value), vq ≠ vr → s.legal = true → s.vReg va = some a →
    s.vReg vb = some b →
    (b.val ≠ 0 → exec (.divrem vq vr va vb) s =
      .next { s with
        v := (s.v.set vq.val (some (canon (a.val.tdiv b.val)))).set vr.val
          (some (canon (a.val - b.val * a.val.tdiv b.val)))
        status := statusOk (quotientReport b.val) (remainderReport a.val b.val) }) ∧
    (∀ c, decode c = .ok (.divrem vq vr va vb) → b.val = 0 →
      exec (.divrem vq vr va vb) s = .next (afterError s 2 c))

/-- R181, R182: `DIV` and `REM` write the quotient and the remainder of `DIVREM`, with its reports; error 2 (R293). -/
def Obligations.DivRemWriteOnePart : Prop :=
  ∀ (vd va vb : VReg) (s : State) (a b : Value), s.legal = true → s.vReg va = some a → s.vReg vb = some b →
    (b.val ≠ 0 →
      exec (.div vd va vb) s = .next (afterV s vd (canon (a.val.tdiv b.val)) (quotientReport b.val)) ∧
      exec (.rem vd va vb) s =
        .next (afterV s vd (canon (a.val - b.val * a.val.tdiv b.val)) (remainderReport a.val b.val))) ∧
    (∀ c, decode c = .ok (.div vd va vb) → b.val = 0 → exec (.div vd va vb) s = .next (afterError s 2 c)) ∧
    (∀ c, decode c = .ok (.rem vd va vb) → b.val = 0 → exec (.rem vd va vb) s = .next (afterError s 2 c))

/-- R183: `MOD` writes the floor remainder, in `0` to `m - 1`; R294: a zero or negative modulus is error 3. -/
def Obligations.ModFloors : Prop :=
  ∀ (vd va vb : VReg) (s : State) (a m : Value), s.legal = true → s.vReg va = some a → s.vReg vb = some m →
    (0 < m.val → exec (.mod vd va vb) s = .next (afterV s vd (canon (a.val % m.val))
      (if a.val.tmod m.val < 0 then .fresh else remainderReport a.val m.val))) ∧
    (∀ c, decode c = .ok (.mod vd va vb) → m.val ≤ 0 → exec (.mod vd va vb) s = .next (afterError s 3 c))

/-! ## Exponentiator -/

/-- R201: the exact power, with the reports of the short-circuits; R295: a negative exponent is error 4; error 9. -/
def Obligations.PowIsExact : Prop :=
  ∀ (vd va : VReg) (xb : XReg) (s : State) (a : Value) (e : Int), s.legal = true → s.vReg va = some a →
    (s.xReg xb).toInt = e →
    (0 ≤ e → fitsWords s (canon (a.val ^ e.toNat)) = true →
      exec (.pow vd va xb) s = .next (afterV s vd (canon (a.val ^ e.toNat))
        (if e = 0 then .const else if e = 1 then .sameA else .fresh))) ∧
    (∀ c, decode c = .ok (.pow vd va xb) → e < 0 → exec (.pow vd va xb) s = .next (afterError s 4 c)) ∧
    (∀ c, decode c = .ok (.pow vd va xb) → 0 ≤ e → fitsWords s (canon (a.val ^ e.toNat)) = false →
      exec (.pow vd va xb) s = .next (afterError s 9 c))

/-- R202: the exponent identities, as the command computes the powers: `x^0 = 1` (also for 0), `x^1 = x`, and the power
of a sum of exponents is the product of the powers. -/
def Obligations.PowExponentIdentities : Prop :=
  ∀ a : Value, a.canonical = true →
    powValue a 0 = .ok { value := canon 1, src := .const } ∧ powValue a 1 = .ok { value := a, src := .sameA } ∧
    ∀ (p q r : Value) (m n : Nat) (ps qs rs : Rsrc),
      powValue a m = .ok { value := p, src := ps } → powValue a n = .ok { value := q, src := qs } →
      powValue a (m + n : Nat) = .ok { value := r, src := rs } → (mulValues p q).value = r

/-! ## Bitwise commands -/

/-- R210, R270: the word-level recipe gives word `i` of the two's-complement view, and `WORDAT` writes it zero-extended;
a negative index is error 10 (R307). -/
def Obligations.WordatReadsView : Prop :=
  (∀ (a : Value) (i : Nat), a.canonical = true → ((wordAt a i).toNat : Int) = a.val / 2 ^ (32 * i) % 2 ^ 32) ∧
  ∀ (xd : XReg) (va : VReg) (xb : XReg) (s : State) (a : Value) (i : Int), s.legal = true → s.vReg va = some a →
    (s.xReg xb).toInt = i →
    (0 ≤ i → exec (.wordat xd va xb) s = .next (afterX s xd (a.val / 2 ^ (32 * i.toNat) % 2 ^ 32))) ∧
    (∀ c, decode c = .ok (.wordat xd va xb) → i < 0 → exec (.wordat xd va xb) s = .next (afterError s 10 c))

/-- R214, R217: `AND` and `ANDNOT` write the canonical value whose two's-complement bits are those of A and those of B,
and those of A and not those of B; error 9 when it does not fit. -/
def Obligations.AndAndnotWorkBitByBit : Prop :=
  ∀ (vd va vb : VReg) (s : State) (a b : Value), s.legal = true → s.vReg va = some a → s.vReg vb = some b →
    (∃ r : Value, r.canonical = true ∧ (∀ p, r.bit p = (a.bit p && b.bit p)) ∧
      (fitsWords s r = true → exec (.and vd va vb) s = .next (afterV s vd r .fresh)) ∧
      (∀ c, decode c = .ok (.and vd va vb) → fitsWords s r = false →
        exec (.and vd va vb) s = .next (afterError s 9 c))) ∧
    (∃ r : Value, r.canonical = true ∧ (∀ p, r.bit p = (a.bit p && !b.bit p)) ∧
      (fitsWords s r = true → exec (.andnot vd va vb) s = .next (afterV s vd r .fresh)) ∧
      (∀ c, decode c = .ok (.andnot vd va vb) → fitsWords s r = false →
        exec (.andnot vd va vb) s = .next (afterError s 9 c)))

/-- R215, R216: `OR` and `XOR` bit by bit; an `OR` always fits, an `XOR` that does not is error 9. -/
def Obligations.OrXorWorkBitByBit : Prop :=
  ∀ (vd va vb : VReg) (s : State) (a b : Value), s.legal = true → s.vReg va = some a → s.vReg vb = some b →
    (∃ r : Value, r.canonical = true ∧ (∀ p, r.bit p = (a.bit p || b.bit p)) ∧
      exec (.or vd va vb) s = .next (afterV s vd r .fresh)) ∧
    (∃ r : Value, r.canonical = true ∧ (∀ p, r.bit p = (a.bit p != b.bit p)) ∧
      (fitsWords s r = true → exec (.xor vd va vb) s = .next (afterV s vd r .fresh)) ∧
      (∀ c, decode c = .ok (.xor vd va vb) → fitsWords s r = false →
        exec (.xor vd va vb) s = .next (afterError s 9 c)))

/-- R218: `NOT` writes `-(x+1)`; error 9 when it does not fit. -/
def Obligations.NotIsMinusOneLess : Prop :=
  ∀ (vd va : VReg) (s : State) (a : Value), s.legal = true → s.vReg va = some a →
    (fitsWords s (canon (-(a.val + 1))) = true →
      exec (.not vd va) s = .next (afterV s vd (canon (-(a.val + 1))) .fresh)) ∧
    (∀ c, decode c = .ok (.not vd va) → fitsWords s (canon (-(a.val + 1))) = false →
      exec (.not vd va) s = .next (afterError s 9 c))

/-- R220: `TESTBIT` writes bit `pos` of the two's-complement view; a negative position is error 5 (R296). -/
def Obligations.TestbitReadsView : Prop :=
  ∀ (xd : XReg) (va : VReg) (xb : XReg) (s : State) (a : Value) (pos : Int), s.legal = true → s.vReg va = some a →
    (s.xReg xb).toInt = pos →
    (0 ≤ pos → exec (.testbit xd va xb) s = .next (afterX s xd (a.val / 2 ^ pos.toNat % 2))) ∧
    (∀ c, decode c = .ok (.testbit xd va xb) → pos < 0 → exec (.testbit xd va xb) s = .next (afterError s 5 c))

/-- R221, R222, R223: setting, clearing and flipping bit `pos` adds or subtracts `2^pos` where that changes the bit;
a negative position is error 5 (R296), a result that does not fit error 9. -/
def Obligations.BitEditsAddPowers : Prop :=
  ∀ (vd va : VReg) (xb : XReg) (s : State) (a : Value) (pos : Int) (i : Instr) (z : Int), s.legal = true →
    s.vReg va = some a → (s.xReg xb).toInt = pos →
    (i = .setbit vd va xb ∧ z = bitSet a.val pos.toNat ∨ i = .clrbit vd va xb ∧ z = bitCleared a.val pos.toNat ∨
      i = .flipbit vd va xb ∧ z = bitFlipped a.val pos.toNat) →
    (0 ≤ pos → fitsWords s (canon z) = true → exec i s = .next (afterV s vd (canon z) .fresh)) ∧
    (∀ c, decode c = .ok i → pos < 0 → exec i s = .next (afterError s 5 c)) ∧
    (∀ c, decode c = .ok i → 0 ≤ pos → fitsWords s (canon z) = false → exec i s = .next (afterError s 9 c))

/-- R226, R227: the shifts write the floor of the value times a power of two, in both directions; error 9. -/
def Obligations.ShiftsFloor : Prop :=
  ∀ (vd va : VReg) (xb : XReg) (s : State) (a : Value) (n : Int), s.legal = true → s.vReg va = some a →
    (s.xReg xb).toInt = n →
    ((fitsWords s (canon (shifted a.val n)) = true →
        exec (.shl vd va xb) s = .next (afterV s vd (canon (shifted a.val n)) .fresh)) ∧
      (∀ c, decode c = .ok (.shl vd va xb) → fitsWords s (canon (shifted a.val n)) = false →
        exec (.shl vd va xb) s = .next (afterError s 9 c))) ∧
    ((fitsWords s (canon (shifted a.val (-n))) = true →
        exec (.shr vd va xb) s = .next (afterV s vd (canon (shifted a.val (-n))) .fresh)) ∧
      (∀ c, decode c = .ok (.shr vd va xb) → fitsWords s (canon (shifted a.val (-n))) = false →
        exec (.shr vd va xb) s = .next (afterError s 9 c)))

/-- R228: a right shift undoes a left shift by the same distance. -/
def Obligations.ShiftRoundTrip : Prop :=
  ∀ (vd va vt : VReg) (xb : XReg) (s t : State) (a : Value), s.legal = true → s.vReg va = some a →
    0 ≤ (s.xReg xb).toInt → exec (.shl vt va xb) s = .next t → errField t = 0 →
    ∃ u, exec (.shr vd vt xb) t = .next u ∧ errField u = 0 ∧ u.vReg vd = some a

/-! ## Export -/

/-- R250, R251: `TOBYTES` replaces the buffer by the shortest big-endian two's-complement encoding of the value. -/
def Obligations.TobytesWritesShortestEncoding : Prop :=
  ∀ (va : VReg) (s : State) (a : Value) (nb : Nat), s.legal = true → s.vReg va = some a → inBytes nb a.val = true →
    (∀ m < nb, inBytes m a.val = false) →
    exec (.tobytes va) s = .next (afterBuf s (bigEndian nb a.val))

/-- R252: `TOZFBYTES` replaces the buffer by the `size`-byte encoding of the value; R306: a size in which the value does
not fit, 0 and every negative size among them, is error 6; a size above `BUFCAP` is error 9. -/
def Obligations.TozfbytesWritesSizedEncoding : Prop :=
  ∀ (va : VReg) (xb : XReg) (s : State) (a : Value) (size : Int), s.legal = true → s.vReg va = some a →
    (s.xReg xb).toInt = size →
    (0 ≤ size → inBytes size.toNat a.val = true → fitsBytes s size.toNat = true →
      exec (.tozfbytes va xb) s = .next (afterBuf s (bigEndian size.toNat a.val))) ∧
    (∀ c, decode c = .ok (.tozfbytes va xb) → (size < 0 ∨ inBytes size.toNat a.val = false) →
      exec (.tozfbytes va xb) s = .next (afterError s 6 c)) ∧
    (∀ c, decode c = .ok (.tozfbytes va xb) → 0 ≤ size → inBytes size.toNat a.val = true →
      fitsBytes s size.toNat = false → exec (.tozfbytes va xb) s = .next (afterError s 9 c))

/-- R126: exporting a value and importing the bytes gives the value again. -/
def Obligations.ExportImportRoundTrip : Prop :=
  ∀ (va vd : VReg) (s : State) (a : Value), s.legal = true → s.vReg va = some a →
    ∃ t u, exec (.tobytes va) s = .next t ∧ exec (.frombytes vd) t = .next u ∧ errField u = 0 ∧ u.vReg vd = some a

/-- R254 with R253, R255: the bit length and the bit count of the value; with `MAXW = INF`, a number of `2^63` or more
is error 9. -/
def Obligations.BitlenBitcntCountBits : Prop :=
  ∀ (xd : XReg) (va : VReg) (s : State) (a : Value), s.legal = true → s.vReg va = some a →
    (sigBits (signStripped a.val) < 2 ^ 63 →
      exec (.bitlen xd va) s = .next (afterX s xd (sigBits (signStripped a.val)))) ∧
    (oneBits (signStripped a.val) < 2 ^ 63 →
      exec (.bitcnt xd va) s = .next (afterX s xd (oneBits (signStripped a.val)))) ∧
    (∀ c, decode c = .ok (.bitlen xd va) → s.params.maxw = none → 2 ^ 63 ≤ sigBits (signStripped a.val) →
      exec (.bitlen xd va) s = .next (afterError s 9 c)) ∧
    (∀ c, decode c = .ok (.bitcnt xd va) → s.params.maxw = none → 2 ^ 63 ≤ oneBits (signStripped a.val) →
      exec (.bitcnt xd va) s = .next (afterError s 9 c))

/-- A length, bit length or bit count of `2^63` or more is error 9 whatever `MAXW` is: for a finite `MAXW` that allows
such a value, which R254 does not expect, this is the model's choice (log 7). -/
def Obligations.HugeCountsOverflow : Prop :=
  ∀ (xd : XReg) (va : VReg) (s : State) (a : Value) (c : Word), s.legal = true → s.vReg va = some a →
    (decode c = .ok (.maglen xd va) → 2 ^ 63 ≤ a.mag.length → exec (.maglen xd va) s = .next (afterError s 9 c)) ∧
    (decode c = .ok (.bitlen xd va) → 2 ^ 63 ≤ sigBits (signStripped a.val) →
      exec (.bitlen xd va) s = .next (afterError s 9 c)) ∧
    (decode c = .ok (.bitcnt xd va) → 2 ^ 63 ≤ oneBits (signStripped a.val) →
      exec (.bitcnt xd va) s = .next (afterError s 9 c))

/-! ## Accessor -/

/-- R266, R267: the number of words and the sign of the value; with `MAXW = INF`, `2^63` words or more is error 9. -/
def Obligations.MaglenSignumReadTag : Prop :=
  ∀ (xd : XReg) (va : VReg) (s : State) (a : Value), s.legal = true → s.vReg va = some a →
    (a.mag.length < 2 ^ 63 → exec (.maglen xd va) s = .next (afterX s xd a.mag.length)) ∧
    (∀ c, decode c = .ok (.maglen xd va) → s.params.maxw = none → 2 ^ 63 ≤ a.mag.length →
      exec (.maglen xd va) s = .next (afterError s 9 c)) ∧
    exec (.signum xd va) s = .next (afterX s xd a.val.sign)

/-- R268, R269: the stored word by forward and by reversed index; R307: an index outside the sequence is error 10. -/
def Obligations.MagwfMagwrReadWords : Prop :=
  ∀ (xd : XReg) (va : VReg) (xb : XReg) (s : State) (a : Value) (i : Int), s.vReg va = some a →
    (s.xReg xb).toInt = i →
    (0 ≤ i → ∀ w, a.mag[i.toNat]? = some w → exec (.magwf xd va xb) s = .next (afterX s xd w.toNat)) ∧
    (0 ≤ i → ∀ w, a.mag.reverse[i.toNat]? = some w → exec (.magwr xd va xb) s = .next (afterX s xd w.toNat)) ∧
    (∀ c, decode c = .ok (.magwf xd va xb) → i < 0 ∨ (a.mag.length : Int) ≤ i →
      exec (.magwf xd va xb) s = .next (afterError s 10 c)) ∧
    (∀ c, decode c = .ok (.magwr xd va xb) → i < 0 ∨ (a.mag.length : Int) ≤ i →
      exec (.magwr xd va xb) s = .next (afterError s 10 c))

/-! ## Frames -/

/-- The frame of the commands that write value registers: only the destinations change; the scalar registers, every byte
of the buffer, `BRP` and `XSEL` are unchanged; a normal end leaves `ERRLOG` and `ERRCMD`; `STATUS` has no bit above 13, and
`RSRC2` only after `DIVREM` (R23, R28, R33, R300). -/
def Obligations.FrameOfValueCommands : Prop :=
  ∀ (i : Instr) (s t : State), vDests i ≠ [] → exec i s = .next t →
    (∀ r, r ∉ vDests i → t.vReg r = s.vReg r) ∧ (∀ r, t.xReg r = s.xReg r) ∧
    (∀ k, t.byteAt k = s.byteAt k) ∧ t.brp = s.brp ∧ t.xsel = s.xsel ∧ t.params = s.params ∧ t.inputs = s.inputs ∧
    t.reply = s.reply ∧ t.freeCount = s.freeCount ∧ (errField t = 0 → t.errlog = s.errlog ∧ t.errcmd = s.errcmd) ∧
    slice t.status 31 14 = 0 ∧ ((∀ q r a b, i ≠ .divrem q r a b) → slice t.status 13 11 = 0)

/-- The frame of the commands that write a scalar register: no value register, no byte of the buffer, not `BRP`, not
`XSEL`, no other scalar register; `STATUS` holds an error code or 0 and nothing else (R26, R28, R31, R33). -/
def Obligations.FrameOfScalarCommands : Prop :=
  ∀ (i : Instr) (s t : State), xDests i ≠ [] → exec i s = .next t →
    (∀ r, t.vReg r = s.vReg r) ∧ (∀ r, r ∉ xDests i → t.xReg r = s.xReg r) ∧
    (∀ k, t.byteAt k = s.byteAt k) ∧ t.brp = s.brp ∧ t.xsel = s.xsel ∧ t.params = s.params ∧ t.inputs = s.inputs ∧
    t.reply = s.reply ∧ t.freeCount = s.freeCount ∧ (errField t = 0 → t.errlog = s.errlog ∧ t.errcmd = s.errcmd) ∧
    slice t.status 31 8 = 0

/-- The frame of the commands that store: `TOBYTES` and `TOZFBYTES` change no register, and the bytes they store are the
whole buffer, from index 0 (R251, R252, R287): after a normal end it is `bytes_of(a)`, respectively `bytes_of(a)` padded to
the size asked for, and no byte of the old buffer is left. -/
def Obligations.FrameOfStoringCommands : Prop :=
  ∀ (i : Instr) (s t : State), storesBuf i = true → exec i s = .next t →
    (∀ r, t.vReg r = s.vReg r) ∧ (∀ r, t.xReg r = s.xReg r) ∧ t.xsel = s.xsel ∧ t.params = s.params ∧
    t.inputs = s.inputs ∧ t.reply = s.reply ∧ t.freeCount = s.freeCount ∧ slice t.status 31 8 = 0 ∧
    (errField t = 0 → t.errlog = s.errlog ∧ t.errcmd = s.errcmd ∧ t.brp = 0 ∧
      (∀ va, i = .tobytes va → ∃ a, s.vReg va = some a ∧ t.buf = bytesOf a) ∧
      (∀ va xb, i = .tozfbytes va xb → ∃ a, s.vReg va = some a ∧ ((bytesOf a).length : Int) ≤ (s.xReg xb).toInt ∧
        t.buf = paddedBytes a (s.xReg xb).toInt.toNat ∧ t.buf.length = (s.xReg xb).toInt.toNat)) ∧
    (errField t ≠ 0 → t.brp = s.brp ∧ ∀ k, t.byteAt k = s.byteAt k)

/-- Only commands write value registers, `STATUS` and `ERRCMD`: any other access leaves them (R23, R28, R33). -/
def Obligations.OnlyCommandsChangeValues : Prop :=
  ∀ (a : Input) (s t : State), (∀ c, a ≠ .write 32 0x00 c) → a ≠ .reset → serve a s = .next t →
    t.v = s.v ∧ t.status = s.status ∧ t.errcmd = s.errcmd ∧ t.params = s.params ∧ t.inputs = s.inputs

/-! ## The host port -/

/-- R67, R73, R35, R36: the reads that change nothing and what each returns. -/
def Obligations.PlainReadsReturnStores : Prop :=
  ∀ s : State,
    serve (.read 32 0x04) s = .next (afterRead s s.status) ∧
    serve (.read 32 0x08) s = .next (afterRead s s.errlog) ∧
    serve (.read 32 0x0C) s = .next (afterRead s s.errcmd) ∧
    serve (.read 32 0x10) s = .next (afterRead s (BitVec.ofNat 32 (s.buf.length % 2 ^ 32))) ∧
    serve (.read 32 0x28) s = .next (afterRead s (BitVec.ofNat 32 (s.brp % 2 ^ 32))) ∧
    serve (.read 32 0x2C) s = .next (afterRead s (BitVec.ofNat 32 s.xsel.toNat)) ∧
    ∃ w : Word, serve (.read 32 0x38) s = .next (afterRead s w) ∧ slice w 31 16 = 0 ∧
      ∀ i : VReg, w.getLsbD i.val = (s.vReg i).isSome

/-- R35, R78: the window onto the scalar register that `XSEL` selects: its halves are read, and replaced one by one. -/
def Obligations.WindowMovesHalves : Prop :=
  ∀ (s : State) (i : XReg) (c : Word), i.val = s.xsel.toNat →
    serve (.read 32 0x30) s = .next (afterRead s (BitVec.ofNat 32 ((s.xReg i).toNat % 2 ^ 32))) ∧
    serve (.read 32 0x34) s = .next (afterRead s (BitVec.ofNat 32 ((s.xReg i).toNat / 2 ^ 32))) ∧
    serve (.write 32 0x30 c) s =
      .next { s with x := s.x.set i.val (BitVec.ofNat 64 ((s.xReg i).toNat / 2 ^ 32 * 2 ^ 32 + c.toNat)) } ∧
    serve (.write 32 0x34 c) s =
      .next { s with x := s.x.set i.val (BitVec.ofNat 64 (c.toNat * 2 ^ 32 + (s.xReg i).toNat % 2 ^ 32)) } ∧
    serve (.write 32 0x2C c) s = .next { s with xsel := BitVec.ofNat 4 (c.toNat % 16) }

/-- R75, R76: a push appends its byte, or its four bytes most significant first; or it is refused whole: error 12.
R74: a write of `BCTL` clears, else rewinds, else does nothing. -/
def Obligations.PushesAppendBctlClears : Prop :=
  ∀ (s : State) (c : Word),
    (fitsBytes s (s.buf.length + 1) = true →
      serve (.write 32 0x18 c) s = .next { s with buf := s.buf ++ [c.extractLsb' 0 8] }) ∧
    (fitsBytes s (s.buf.length + 1) = false → serve (.write 32 0x18 c) s = .next (afterPortError s 12)) ∧
    (fitsBytes s (s.buf.length + 4) = true →
      serve (.write 32 0x1C c) s = .next { s with
        buf := s.buf ++ [c.extractLsb' 24 8, c.extractLsb' 16 8, c.extractLsb' 8 8, c.extractLsb' 0 8] }) ∧
    (fitsBytes s (s.buf.length + 4) = false → serve (.write 32 0x1C c) s = .next (afterPortError s 12)) ∧
    serve (.write 32 0x14 c) s =
      .next (if c.getLsbD 0 then { s with buf := [], brp := 0 }
        else if c.getLsbD 1 then { s with brp := 0 } else s)

/-- R77: a pop returns the bytes at `BRP` and advances it; with too few bytes left it returns a free value: error 13. -/
def Obligations.PopsAdvance : Prop :=
  ∀ s : State,
    (∀ b, s.buf[s.brp]? = some b →
      serve (.read 32 0x20) s = .next { afterRead s (b.setWidth 32) with brp := s.brp + 1 }) ∧
    (s.buf.length ≤ s.brp → serve (.read 32 0x20) s = .next (afterBadRead s 13)) ∧
    (∀ b0 b1 b2 b3, s.buf[s.brp]? = some b0 → s.buf[s.brp + 1]? = some b1 → s.buf[s.brp + 2]? = some b2 →
      s.buf[s.brp + 3]? = some b3 →
      serve (.read 32 0x24) s = .next { afterRead s (BitVec.ofNat 32
        (b0.toNat * 2 ^ 24 + b1.toNat * 2 ^ 16 + b2.toNat * 2 ^ 8 + b3.toNat)) with brp := s.brp + 4 }) ∧
    (s.buf.length < s.brp + 4 → serve (.read 32 0x24) s = .next (afterBadRead s 13))

/-- R79, R65: every read but that of a readable register, and every write but that of a writable one, by 32 bits at its
offset, is a bad access: error 14, and nothing else changes but the free word a read returns. -/
def Obligations.BadAccessOnlyReports : Prop :=
  (∀ (bits offset : Nat) (s : State),
    (bits ≠ 32 ∨ offset ∉ [0x04, 0x08, 0x0C, 0x10, 0x20, 0x24, 0x28, 0x2C, 0x30, 0x34, 0x38]) →
    serve (.read bits offset) s = .next (afterBadRead s 14)) ∧
  (∀ (bits offset : Nat) (c : Word) (s : State),
    (bits ≠ 32 ∨ offset ∉ [0x00, 0x08, 0x14, 0x18, 0x1C, 0x2C, 0x30, 0x34]) →
    serve (.write bits offset c) s = .next (afterPortError s 14))

/-- R32: a write of `ERRLOG` clears, of the positions 1 to 14, those written as 1; no other access clears a bit. -/
def Obligations.ErrlogClearedByWritingOnes : Prop :=
  (∀ (s : State) (c : Word), ∃ w : Word, serve (.write 32 0x08 c) s = .next { s with errlog := w } ∧
    ∀ k, w.getLsbD k = (s.errlog.getLsbD k && !(c.getLsbD k && (1 ≤ k && k ≤ 14)))) ∧
  (∀ (a : Input) (s t : State), (∀ c, a ≠ .write 32 0x08 c) → a ≠ .reset → serve a s = .next t →
    ∀ k, s.errlog.getLsbD k = true → t.errlog.getLsbD k = true)
end

