-- ==== Sys2Proof/Laws/State.lean ====
section
/-! SUPPORT. One lemma per field per update of the state, and the registers after an update. -/

namespace Sys2Proof.Machine

variable (s : State)

/-! ### `State.raise` -/

@[simp] theorem State.raise_v (e : ErrorKind) (w : Word) : (s.raise e w).v = s.v := rfl
@[simp] theorem State.raise_x (e : ErrorKind) (w : Word) : (s.raise e w).x = s.x := rfl
@[simp] theorem State.raise_buf (e : ErrorKind) (w : Word) : (s.raise e w).buf = s.buf := rfl
@[simp] theorem State.raise_brp (e : ErrorKind) (w : Word) : (s.raise e w).brp = s.brp := rfl
@[simp] theorem State.raise_status (e : ErrorKind) (w : Word) : (s.raise e w).status = statusError e := rfl
@[simp] theorem State.raise_errlog (e : ErrorKind) (w : Word) : (s.raise e w).errlog = logError s.errlog e := rfl
@[simp] theorem State.raise_errcmd (e : ErrorKind) (w : Word) : (s.raise e w).errcmd = w := rfl
@[simp] theorem State.raise_xsel (e : ErrorKind) (w : Word) : (s.raise e w).xsel = s.xsel := rfl
@[simp] theorem State.raise_params (e : ErrorKind) (w : Word) : (s.raise e w).params = s.params := rfl
@[simp] theorem State.raise_inputs (e : ErrorKind) (w : Word) : (s.raise e w).inputs = s.inputs := rfl
@[simp] theorem State.raise_reply (e : ErrorKind) (w : Word) : (s.raise e w).reply = s.reply := rfl
@[simp] theorem State.raise_freeCount (e : ErrorKind) (w : Word) : (s.raise e w).freeCount = s.freeCount := rfl

/-! ### `State.logPort` -/

@[simp] theorem State.logPort_v (e : ErrorKind) : (s.logPort e).v = s.v := rfl
@[simp] theorem State.logPort_x (e : ErrorKind) : (s.logPort e).x = s.x := rfl
@[simp] theorem State.logPort_buf (e : ErrorKind) : (s.logPort e).buf = s.buf := rfl
@[simp] theorem State.logPort_brp (e : ErrorKind) : (s.logPort e).brp = s.brp := rfl
@[simp] theorem State.logPort_status (e : ErrorKind) : (s.logPort e).status = s.status := rfl
@[simp] theorem State.logPort_errlog (e : ErrorKind) : (s.logPort e).errlog = logError s.errlog e := rfl
@[simp] theorem State.logPort_errcmd (e : ErrorKind) : (s.logPort e).errcmd = s.errcmd := rfl
@[simp] theorem State.logPort_xsel (e : ErrorKind) : (s.logPort e).xsel = s.xsel := rfl
@[simp] theorem State.logPort_params (e : ErrorKind) : (s.logPort e).params = s.params := rfl
@[simp] theorem State.logPort_inputs (e : ErrorKind) : (s.logPort e).inputs = s.inputs := rfl
@[simp] theorem State.logPort_reply (e : ErrorKind) : (s.logPort e).reply = s.reply := rfl
@[simp] theorem State.logPort_freeCount (e : ErrorKind) : (s.logPort e).freeCount = s.freeCount := rfl

/-! ### `State.putV` -/

@[simp] theorem State.putV_v (i : VReg) (a : Value) (r : Rsrc) : (s.putV i a r).v = s.v.set i.val (some a) := rfl
@[simp] theorem State.putV_x (i : VReg) (a : Value) (r : Rsrc) : (s.putV i a r).x = s.x := rfl
@[simp] theorem State.putV_buf (i : VReg) (a : Value) (r : Rsrc) : (s.putV i a r).buf = s.buf := rfl
@[simp] theorem State.putV_brp (i : VReg) (a : Value) (r : Rsrc) : (s.putV i a r).brp = s.brp := rfl
@[simp] theorem State.putV_status (i : VReg) (a : Value) (r : Rsrc) : (s.putV i a r).status = statusOk r .fresh := rfl
@[simp] theorem State.putV_errlog (i : VReg) (a : Value) (r : Rsrc) : (s.putV i a r).errlog = s.errlog := rfl
@[simp] theorem State.putV_errcmd (i : VReg) (a : Value) (r : Rsrc) : (s.putV i a r).errcmd = s.errcmd := rfl
@[simp] theorem State.putV_xsel (i : VReg) (a : Value) (r : Rsrc) : (s.putV i a r).xsel = s.xsel := rfl
@[simp] theorem State.putV_params (i : VReg) (a : Value) (r : Rsrc) : (s.putV i a r).params = s.params := rfl
@[simp] theorem State.putV_inputs (i : VReg) (a : Value) (r : Rsrc) : (s.putV i a r).inputs = s.inputs := rfl
@[simp] theorem State.putV_reply (i : VReg) (a : Value) (r : Rsrc) : (s.putV i a r).reply = s.reply := rfl
@[simp] theorem State.putV_freeCount (i : VReg) (a : Value) (r : Rsrc) : (s.putV i a r).freeCount = s.freeCount := rfl

/-! ### `State.freeV` -/

@[simp] theorem State.freeV_v (i : VReg) : (s.freeV i).v = s.v.set i.val none := rfl
@[simp] theorem State.freeV_x (i : VReg) : (s.freeV i).x = s.x := rfl
@[simp] theorem State.freeV_buf (i : VReg) : (s.freeV i).buf = s.buf := rfl
@[simp] theorem State.freeV_brp (i : VReg) : (s.freeV i).brp = s.brp := rfl
@[simp] theorem State.freeV_status (i : VReg) : (s.freeV i).status = statusOk .fresh .fresh := rfl
@[simp] theorem State.freeV_errlog (i : VReg) : (s.freeV i).errlog = s.errlog := rfl
@[simp] theorem State.freeV_errcmd (i : VReg) : (s.freeV i).errcmd = s.errcmd := rfl
@[simp] theorem State.freeV_xsel (i : VReg) : (s.freeV i).xsel = s.xsel := rfl
@[simp] theorem State.freeV_params (i : VReg) : (s.freeV i).params = s.params := rfl
@[simp] theorem State.freeV_inputs (i : VReg) : (s.freeV i).inputs = s.inputs := rfl
@[simp] theorem State.freeV_reply (i : VReg) : (s.freeV i).reply = s.reply := rfl
@[simp] theorem State.freeV_freeCount (i : VReg) : (s.freeV i).freeCount = s.freeCount := rfl

/-! ### `State.putX` -/

@[simp] theorem State.putX_v (i : XReg) (z : Int) : (s.putX i z).v = s.v := rfl
@[simp] theorem State.putX_x (i : XReg) (z : Int) : (s.putX i z).x = s.x.set i.val (BitVec.ofInt 64 z) := rfl
@[simp] theorem State.putX_buf (i : XReg) (z : Int) : (s.putX i z).buf = s.buf := rfl
@[simp] theorem State.putX_brp (i : XReg) (z : Int) : (s.putX i z).brp = s.brp := rfl
@[simp] theorem State.putX_status (i : XReg) (z : Int) : (s.putX i z).status = statusOk .fresh .fresh := rfl
@[simp] theorem State.putX_errlog (i : XReg) (z : Int) : (s.putX i z).errlog = s.errlog := rfl
@[simp] theorem State.putX_errcmd (i : XReg) (z : Int) : (s.putX i z).errcmd = s.errcmd := rfl
@[simp] theorem State.putX_xsel (i : XReg) (z : Int) : (s.putX i z).xsel = s.xsel := rfl
@[simp] theorem State.putX_params (i : XReg) (z : Int) : (s.putX i z).params = s.params := rfl
@[simp] theorem State.putX_inputs (i : XReg) (z : Int) : (s.putX i z).inputs = s.inputs := rfl
@[simp] theorem State.putX_reply (i : XReg) (z : Int) : (s.putX i z).reply = s.reply := rfl
@[simp] theorem State.putX_freeCount (i : XReg) (z : Int) : (s.putX i z).freeCount = s.freeCount := rfl

/-! ### `State.putBuf` -/

@[simp] theorem State.putBuf_v (b : List Byte) : (s.putBuf b).v = s.v := rfl
@[simp] theorem State.putBuf_x (b : List Byte) : (s.putBuf b).x = s.x := rfl
@[simp] theorem State.putBuf_buf (b : List Byte) : (s.putBuf b).buf = b := rfl
@[simp] theorem State.putBuf_brp (b : List Byte) : (s.putBuf b).brp = 0 := rfl
@[simp] theorem State.putBuf_status (b : List Byte) : (s.putBuf b).status = statusOk .fresh .fresh := rfl
@[simp] theorem State.putBuf_errlog (b : List Byte) : (s.putBuf b).errlog = s.errlog := rfl
@[simp] theorem State.putBuf_errcmd (b : List Byte) : (s.putBuf b).errcmd = s.errcmd := rfl
@[simp] theorem State.putBuf_xsel (b : List Byte) : (s.putBuf b).xsel = s.xsel := rfl
@[simp] theorem State.putBuf_params (b : List Byte) : (s.putBuf b).params = s.params := rfl
@[simp] theorem State.putBuf_inputs (b : List Byte) : (s.putBuf b).inputs = s.inputs := rfl
@[simp] theorem State.putBuf_reply (b : List Byte) : (s.putBuf b).reply = s.reply := rfl
@[simp] theorem State.putBuf_freeCount (b : List Byte) : (s.putBuf b).freeCount = s.freeCount := rfl

/-! ### `State.answer` -/

@[simp] theorem State.answer_v (w : Word) : (s.answer w).v = s.v := rfl
@[simp] theorem State.answer_x (w : Word) : (s.answer w).x = s.x := rfl
@[simp] theorem State.answer_buf (w : Word) : (s.answer w).buf = s.buf := rfl
@[simp] theorem State.answer_brp (w : Word) : (s.answer w).brp = s.brp := rfl
@[simp] theorem State.answer_status (w : Word) : (s.answer w).status = s.status := rfl
@[simp] theorem State.answer_errlog (w : Word) : (s.answer w).errlog = s.errlog := rfl
@[simp] theorem State.answer_errcmd (w : Word) : (s.answer w).errcmd = s.errcmd := rfl
@[simp] theorem State.answer_xsel (w : Word) : (s.answer w).xsel = s.xsel := rfl
@[simp] theorem State.answer_params (w : Word) : (s.answer w).params = s.params := rfl
@[simp] theorem State.answer_inputs (w : Word) : (s.answer w).inputs = s.inputs := rfl
@[simp] theorem State.answer_reply (w : Word) : (s.answer w).reply = some w := rfl
@[simp] theorem State.answer_freeCount (w : Word) : (s.answer w).freeCount = s.freeCount := rfl

/-! ### `State.answerUnspecified` -/

@[simp] theorem State.answerUnspecified_v (e : ErrorKind) : (s.answerUnspecified e).v = s.v := rfl
@[simp] theorem State.answerUnspecified_x (e : ErrorKind) : (s.answerUnspecified e).x = s.x := rfl
@[simp] theorem State.answerUnspecified_buf (e : ErrorKind) : (s.answerUnspecified e).buf = s.buf := rfl
@[simp] theorem State.answerUnspecified_brp (e : ErrorKind) : (s.answerUnspecified e).brp = s.brp := rfl
@[simp] theorem State.answerUnspecified_status (e : ErrorKind) : (s.answerUnspecified e).status = s.status := rfl
@[simp] theorem State.answerUnspecified_errlog (e : ErrorKind) : (s.answerUnspecified e).errlog = logError s.errlog e := rfl
@[simp] theorem State.answerUnspecified_errcmd (e : ErrorKind) : (s.answerUnspecified e).errcmd = s.errcmd := rfl
@[simp] theorem State.answerUnspecified_xsel (e : ErrorKind) : (s.answerUnspecified e).xsel = s.xsel := rfl
@[simp] theorem State.answerUnspecified_params (e : ErrorKind) : (s.answerUnspecified e).params = s.params := rfl
@[simp] theorem State.answerUnspecified_inputs (e : ErrorKind) : (s.answerUnspecified e).inputs = s.inputs := rfl
@[simp] theorem State.answerUnspecified_reply (e : ErrorKind) : (s.answerUnspecified e).reply = some (Config.freeWord s.freeCount) := rfl
@[simp] theorem State.answerUnspecified_freeCount (e : ErrorKind) : (s.answerUnspecified e).freeCount = s.freeCount + 1 := rfl

/-! ### `State.setLow` -/

@[simp] theorem State.setLow_v (i : XReg) (c : Word) : (s.setLow i c).v = s.v := rfl
@[simp] theorem State.setLow_x (i : XReg) (c : Word) : (s.setLow i c).x = s.x.set i.val ((s.xReg i).extractLsb' 32 32 ++ c) := rfl
@[simp] theorem State.setLow_buf (i : XReg) (c : Word) : (s.setLow i c).buf = s.buf := rfl
@[simp] theorem State.setLow_brp (i : XReg) (c : Word) : (s.setLow i c).brp = s.brp := rfl
@[simp] theorem State.setLow_status (i : XReg) (c : Word) : (s.setLow i c).status = s.status := rfl
@[simp] theorem State.setLow_errlog (i : XReg) (c : Word) : (s.setLow i c).errlog = s.errlog := rfl
@[simp] theorem State.setLow_errcmd (i : XReg) (c : Word) : (s.setLow i c).errcmd = s.errcmd := rfl
@[simp] theorem State.setLow_xsel (i : XReg) (c : Word) : (s.setLow i c).xsel = s.xsel := rfl
@[simp] theorem State.setLow_params (i : XReg) (c : Word) : (s.setLow i c).params = s.params := rfl
@[simp] theorem State.setLow_inputs (i : XReg) (c : Word) : (s.setLow i c).inputs = s.inputs := rfl
@[simp] theorem State.setLow_reply (i : XReg) (c : Word) : (s.setLow i c).reply = s.reply := rfl
@[simp] theorem State.setLow_freeCount (i : XReg) (c : Word) : (s.setLow i c).freeCount = s.freeCount := rfl

/-! ### `State.setHigh` -/

@[simp] theorem State.setHigh_v (i : XReg) (c : Word) : (s.setHigh i c).v = s.v := rfl
@[simp] theorem State.setHigh_x (i : XReg) (c : Word) : (s.setHigh i c).x = s.x.set i.val (c ++ (s.xReg i).extractLsb' 0 32) := rfl
@[simp] theorem State.setHigh_buf (i : XReg) (c : Word) : (s.setHigh i c).buf = s.buf := rfl
@[simp] theorem State.setHigh_brp (i : XReg) (c : Word) : (s.setHigh i c).brp = s.brp := rfl
@[simp] theorem State.setHigh_status (i : XReg) (c : Word) : (s.setHigh i c).status = s.status := rfl
@[simp] theorem State.setHigh_errlog (i : XReg) (c : Word) : (s.setHigh i c).errlog = s.errlog := rfl
@[simp] theorem State.setHigh_errcmd (i : XReg) (c : Word) : (s.setHigh i c).errcmd = s.errcmd := rfl
@[simp] theorem State.setHigh_xsel (i : XReg) (c : Word) : (s.setHigh i c).xsel = s.xsel := rfl
@[simp] theorem State.setHigh_params (i : XReg) (c : Word) : (s.setHigh i c).params = s.params := rfl
@[simp] theorem State.setHigh_inputs (i : XReg) (c : Word) : (s.setHigh i c).inputs = s.inputs := rfl
@[simp] theorem State.setHigh_reply (i : XReg) (c : Word) : (s.setHigh i c).reply = s.reply := rfl
@[simp] theorem State.setHigh_freeCount (i : XReg) (c : Word) : (s.setHigh i c).freeCount = s.freeCount := rfl

/-! ### `State.take` -/

@[simp] theorem State.take_v (rest : List Input) : (s.take rest).v = s.v := rfl
@[simp] theorem State.take_x (rest : List Input) : (s.take rest).x = s.x := rfl
@[simp] theorem State.take_buf (rest : List Input) : (s.take rest).buf = s.buf := rfl
@[simp] theorem State.take_brp (rest : List Input) : (s.take rest).brp = s.brp := rfl
@[simp] theorem State.take_status (rest : List Input) : (s.take rest).status = s.status := rfl
@[simp] theorem State.take_errlog (rest : List Input) : (s.take rest).errlog = s.errlog := rfl
@[simp] theorem State.take_errcmd (rest : List Input) : (s.take rest).errcmd = s.errcmd := rfl
@[simp] theorem State.take_xsel (rest : List Input) : (s.take rest).xsel = s.xsel := rfl
@[simp] theorem State.take_params (rest : List Input) : (s.take rest).params = s.params := rfl
@[simp] theorem State.take_inputs (rest : List Input) : (s.take rest).inputs = rest := rfl
@[simp] theorem State.take_reply (rest : List Input) : (s.take rest).reply = none := rfl
@[simp] theorem State.take_freeCount (rest : List Input) : (s.take rest).freeCount = s.freeCount := rfl

/-! ### Registers after an update -/

theorem State.vReg_def (i : VReg) : s.vReg i = s.v[i.val] := rfl

theorem State.xReg_def (i : XReg) : s.xReg i = s.x[i.val] := rfl

/-- A read of `V[j]` after `V[i]` was written. -/
theorem State.putV_vReg (i j : VReg) (a : Value) (r : Rsrc) :
    (s.putV i a r).vReg j = if i = j then some a else s.vReg j := by
  simp [State.vReg, Vector.getElem_set, Fin.ext_iff]

/-- A read of `V[j]` after `V[i]` was freed. -/
theorem State.freeV_vReg (i j : VReg) :
    (s.freeV i).vReg j = if i = j then none else s.vReg j := by
  simp [State.vReg, Vector.getElem_set, Fin.ext_iff]

/-- A read of `X[j]` after `X[i]` was written. -/
theorem State.putX_xReg (i j : XReg) (z : Int) :
    (s.putX i z).xReg j = if i = j then BitVec.ofInt 64 z else s.xReg j := by
  simp [State.xReg, Vector.getElem_set, Fin.ext_iff]

/-- An integer of the scalar range reads back as itself (R12, R25). -/
theorem State.putX_readX_self (i : XReg) (z : Int) (hlo : -2 ^ 63 ≤ z) (hhi : z < 2 ^ 63) :
    (s.putX i z).readX i = z := by
  rw [State.readX, State.putX_xReg, if_pos rfl, BitVec.toInt_ofInt]
  exact Int.bmod_eq_of_le (by norm_num at hlo ⊢; omega) (by norm_num at hhi ⊢; omega)

/-- Registers that the update does not touch read as before. -/
@[simp] theorem State.raise_vReg (e : ErrorKind) (w : Word) (i : VReg) : (s.raise e w).vReg i = s.vReg i := rfl
@[simp] theorem State.raise_readX (e : ErrorKind) (w : Word) (i : XReg) : (s.raise e w).readX i = s.readX i := rfl
@[simp] theorem State.putV_readX (i : VReg) (a : Value) (r : Rsrc) (j : XReg) :
    (s.putV i a r).readX j = s.readX j := rfl
@[simp] theorem State.putX_vReg (i : XReg) (z : Int) (j : VReg) : (s.putX i z).vReg j = s.vReg j := rfl
@[simp] theorem State.putBuf_vReg (b : List Byte) (j : VReg) : (s.putBuf b).vReg j = s.vReg j := rfl
@[simp] theorem State.putBuf_readX (b : List Byte) (j : XReg) : (s.putBuf b).readX j = s.readX j := rfl
@[simp] theorem State.take_vReg (rest : List Input) (j : VReg) : (s.take rest).vReg j = s.vReg j := rfl
@[simp] theorem State.take_readX (rest : List Input) (j : XReg) : (s.take rest).readX j = s.readX j := rfl

end Sys2Proof.Machine
end

