-- ==== Sys2Proof/Laws/Ops.lean ====
section
/-! SUPPORT. What each shared operation can do, said once: capacity, reading an operand, writing a destination, the end
of a command, and the byte buffer. -/

namespace Sys2Proof.Machine

/-! ### Sequencing -/

@[simp] theorem ok_bind {α β : Type} (a : α) (f : α → Except ErrorKind β) : (Except.ok a >>= f) = f a := rfl

@[simp] theorem error_bind {α β : Type} (e : ErrorKind) (f : α → Except ErrorKind β) :
    ((Except.error e : Except ErrorKind α) >>= f) = .error e := rfl

/-- A sequence ends normally exactly when both parts do. -/
theorem bind_ok_iff {α β : Type} (m : Except ErrorKind α) (f : α → Except ErrorKind β) (b : β) :
    (m >>= f) = .ok b ↔ ∃ a, m = .ok a ∧ f a = .ok b := by
  cases m <;> simp

/-- A sequence raises what its first part raises, else what its second part raises. -/
theorem bind_error_iff {α β : Type} (m : Except ErrorKind α) (f : α → Except ErrorKind β) (e : ErrorKind) :
    (m >>= f) = .error e ↔ m = .error e ∨ ∃ a, m = .ok a ∧ f a = .error e := by
  cases m <;> simp

/-! ### Capacity -/

theorem shorterOrEqual_iff {α : Type} (as : List α) (n : Nat) : shorterOrEqual as n = true ↔ as.length ≤ n := by
  induction as generalizing n with
  | nil => simp [shorterOrEqual]
  | cons a as ih => cases n <;> simp [shorterOrEqual, ih]

/-- A sequence fits exactly when its length is within a finite capacity. -/
theorem fitsIn_iff {α : Type} (cap : Option Nat) (as : List α) :
    fitsIn cap as = true ↔ ∀ n, cap = some n → as.length ≤ n := by
  cases cap <;> simp [fitsIn, shorterOrEqual_iff]

@[simp] theorem fitsIn_none {α : Type} (as : List α) : fitsIn none as = true := rfl

/-- A shorter sequence fits where a longer one does. -/
theorem fitsIn_of_le {α β : Type} {cap : Option Nat} {as : List α} {bs : List β} (h : fitsIn cap as = true)
    (hle : bs.length ≤ as.length) : fitsIn cap bs = true := by
  rw [fitsIn_iff] at *
  exact fun n hn => hle.trans (h n hn)

/-! ### Operands -/

theorem State.readV_of_some {s : State} {i : VReg} {a : Value} (h : s.vReg i = some a) : s.readV i = .ok a := by
  simp [State.readV, h]

theorem State.readV_of_none {s : State} {i : VReg} (h : s.vReg i = none) : s.readV i = .error .emptyRegister := by
  simp [State.readV, h]

theorem State.readV_ok_iff (s : State) (i : VReg) (a : Value) : s.readV i = .ok a ↔ s.vReg i = some a := by
  cases h : s.vReg i <;> simp [State.readV, h]

/-- A value register raises nothing but `EmptyRegister`, and exactly when it is `EMPTY` (R298). -/
theorem State.readV_error_iff (s : State) (i : VReg) (e : ErrorKind) :
    s.readV i = .error e ↔ s.vReg i = none ∧ e = .emptyRegister := by
  cases h : s.vReg i <;> simp [State.readV, h, eq_comm]

/-! ### Destinations -/

theorem State.writeV_ok_iff (s : State) (i : VReg) (r : Reported) (t : State) :
    s.writeV i r = .ok t ↔ fitsIn s.params.maxw r.value.mag = true ∧ t = s.putV i r.value r.src := by
  cases h : fitsIn s.params.maxw r.value.mag <;> simp [State.writeV, h, eq_comm]

theorem State.writeV_error_iff (s : State) (i : VReg) (r : Reported) (e : ErrorKind) :
    s.writeV i r = .error e ↔ fitsIn s.params.maxw r.value.mag = false ∧ e = .capacityOverflow := by
  cases h : fitsIn s.params.maxw r.value.mag <;> simp [State.writeV, h, eq_comm]

theorem State.writeV2_ok_iff (s : State) (i j : VReg) (q r : Reported) (t : State) :
    s.writeV2 i j q r = .ok t ↔
      (fitsIn s.params.maxw q.value.mag = true ∧ fitsIn s.params.maxw r.value.mag = true) ∧
      t = { s with v := (s.v.set i.val (some q.value)).set j.val (some r.value), status := statusOk q.src r.src } := by
  rw [State.writeV2, ← Bool.and_eq_true]
  by_cases h : (fitsIn s.params.maxw q.value.mag && fitsIn s.params.maxw r.value.mag) = true
  · rw [if_pos h, Except.ok.injEq]
    exact ⟨fun he => ⟨h, he.symm⟩, fun he => he.2.symm⟩
  · rw [if_neg h]
    exact ⟨fun he => (nomatch he), fun he => absurd he.1 h⟩

theorem State.writeV2_error_iff (s : State) (i j : VReg) (q r : Reported) (e : ErrorKind) :
    s.writeV2 i j q r = .error e ↔
      ¬(fitsIn s.params.maxw q.value.mag = true ∧ fitsIn s.params.maxw r.value.mag = true) ∧ e = .capacityOverflow := by
  rw [State.writeV2, ← Bool.and_eq_true]
  by_cases h : (fitsIn s.params.maxw q.value.mag && fitsIn s.params.maxw r.value.mag) = true
  · rw [if_pos h]
    exact ⟨fun he => (nomatch he), fun he => absurd h he.1⟩
  · rw [if_neg h, Except.error.injEq]
    exact ⟨fun he => ⟨h, he.symm⟩, fun he => he.2.symm⟩

theorem State.writeCount_ok_iff (s : State) (i : XReg) (n : Nat) (t : State) :
    s.writeCount i n = .ok t ↔ n < 2 ^ 63 ∧ t = s.putX i n := by
  unfold State.writeCount
  split <;> rename_i h <;> simp only [h, Except.ok.injEq, true_and, false_and, reduceCtorEq, eq_comm]

theorem State.writeCount_error_iff (s : State) (i : XReg) (n : Nat) (e : ErrorKind) :
    s.writeCount i n = .error e ↔ 2 ^ 63 ≤ n ∧ e = .capacityOverflow := by
  unfold State.writeCount
  split <;> rename_i h
  · simp only [reduceCtorEq, false_iff, not_and]
    omega
  · rw [Nat.not_lt] at h
    simp only [Except.error.injEq, h, true_and, eq_comm]

theorem State.writeBuf_ok_iff (s : State) (b : List Byte) (t : State) :
    s.writeBuf b = .ok t ↔ fitsIn s.params.bufcap b = true ∧ t = s.putBuf b := by
  cases h : fitsIn s.params.bufcap b <;> simp [State.writeBuf, h, eq_comm]

theorem State.writeBuf_error_iff (s : State) (b : List Byte) (e : ErrorKind) :
    s.writeBuf b = .error e ↔ fitsIn s.params.bufcap b = false ∧ e = .capacityOverflow := by
  cases h : fitsIn s.params.bufcap b <;> simp [State.writeBuf, h, eq_comm]

/-! ### The end of a command -/

@[simp] theorem finish_ok (i : Instr) (s t : State) : finish i s (.ok t) = .next t := rfl

@[simp] theorem finish_error (i : Instr) (s : State) (e : ErrorKind) :
    finish i s (.error e) = .next (s.raise e (encode i)) := rfl

/-- A command always answers a next state: its own effect, or the error entry (R300). -/
theorem finish_next_iff (i : Instr) (s t : State) (r : Except ErrorKind State) :
    finish i s r = .next t ↔ r = .ok t ∨ ∃ e, r = .error e ∧ t = s.raise e (encode i) := by
  cases r <;> simp [finish, eq_comm]

/-! ### Bytes and words -/

/-- A word split into bytes and joined again is the word (R63). -/
theorem joinBytes_byteOfWord (w : Word) :
    joinBytes (byteOfWord w 0) (byteOfWord w 1) (byteOfWord w 2) (byteOfWord w 3) = w := by
  apply BitVec.eq_of_toNat_eq
  have h := w.isLt
  simp only [joinBytes, byteOfWord, BitVec.toNat_append, BitVec.toNat_ofNat]
  rw [← Nat.shiftLeft_add_eq_or_of_lt (by omega), ← Nat.shiftLeft_add_eq_or_of_lt (by omega),
    ← Nat.shiftLeft_add_eq_or_of_lt (by omega)]
  simp only [Nat.shiftLeft_eq]
  omega

/-! ### The byte buffer keeps its canonical form -/

/-- The cells of a buffer are at consecutive addresses from where they start, whatever the bytes. -/
theorem Memory.consecutive_zipIdx (bytes : List Byte) (k : Nat) :
    Memory.consecutive k ((bytes.zipIdx k).map (fun p => (p.2, p.1))) = true := by
  induction bytes generalizing k with
  | nil => rfl
  | cons b bs ih => simp [Memory.consecutive, List.zipIdx_cons, ih]

/-- The canonical form holds exactly when the length and the pointer are within their bounds (R34). -/
theorem Memory.wf_iff (s : State) :
    Memory.wf s = true ↔ fitsIn s.params.bufcap s.buf = true ∧ s.brp ≤ s.buf.length := by
  simp [Memory.wf, Memory.cells, Memory.consecutive_zipIdx]

theorem Memory.wf_reset : Memory.wf State.reset = true := by decide

/-- An update that leaves the parameters, the buffer and its pointer alone keeps the form. -/
theorem Memory.wf_of_same {s t : State} (h : Memory.wf s = true) (hp : t.params = s.params) (hb : t.buf = s.buf)
    (hr : t.brp = s.brp) : Memory.wf t = true := by
  simpa [Memory.wf_iff, hp, hb, hr] using h

theorem Memory.wf_push {s : State} (h : Memory.wf s = true) (bytes : List Byte) : Memory.wf (s.push bytes) = true := by
  unfold State.push
  rw [Memory.wf_iff] at h
  split <;> rename_i hfit <;> rw [Memory.wf_iff]
  · exact ⟨hfit, by simp; omega⟩
  · exact h

theorem Memory.wf_control {s : State} (h : Memory.wf s = true) (c : Word) : Memory.wf (s.control c) = true := by
  rw [Memory.wf_iff] at h
  unfold State.control
  split
  · simp [Memory.wf_iff, fitsIn_iff]
  · split <;> simp [Memory.wf_iff, h]

theorem Memory.wf_writeBuf {s t : State} {b : List Byte} (hw : s.writeBuf b = .ok t) : Memory.wf t = true := by
  obtain ⟨hfit, rfl⟩ := (State.writeBuf_ok_iff s b t).1 hw
  simp [Memory.wf_iff, hfit]

theorem Memory.wf_pop8 {s : State} (h : Memory.wf s = true) : Memory.wf s.pop8 = true := by
  rw [Memory.wf_iff] at h
  unfold State.pop8 State.byteAt
  split <;> rename_i hb <;> rw [Memory.wf_iff]
  · exact ⟨h.1, by have := (List.getElem?_eq_some_iff.1 hb).1; simp; omega⟩
  · exact h

theorem Memory.wf_pop32 {s : State} (h : Memory.wf s = true) : Memory.wf s.pop32 = true := by
  rw [Memory.wf_iff] at h
  unfold State.pop32
  split <;> rename_i hb <;> rw [Memory.wf_iff]
  · refine ⟨h.1, ?_⟩
    have := congrArg List.length hb
    simp at this ⊢
    omega
  · exact h

end Sys2Proof.Machine
end

