-- ==== Sys2Proof/Laws/Value.lean ====
section
/-! SUPPORT. Word sequences as numbers, and the one canonical value of every integer (00_scope.md R9, R10). -/

namespace Sys2Proof.Machine

/-- A word sequence has no leading zero word (R10). -/
abbrev NoLeadingZero (ws : List Word) : Prop := ws.head? ≠ some 0#32

/-! ### Numbers of word sequences -/

@[simp] theorem magNat_nil : magNat [] = 0 := rfl

theorem magNat_foldl (ws : List Word) (acc : Nat) :
    ws.foldl (fun acc w => acc * wordBase + w.toNat) acc = acc * wordBase ^ ws.length + magNat ws := by
  induction ws generalizing acc with
  | nil => simp
  | cons w ws ih =>
    have hw : magNat (w :: ws) = (0 * wordBase + w.toNat) * wordBase ^ ws.length + magNat ws := ih _
    rw [List.foldl_cons, ih, hw, List.length_cons, Nat.pow_succ]
    ring

theorem magNat_cons (w : Word) (ws : List Word) :
    magNat (w :: ws) = w.toNat * wordBase ^ ws.length + magNat ws := by
  rw [magNat, List.foldl_cons, magNat_foldl]
  simp

theorem magNat_append (us ws : List Word) :
    magNat (us ++ ws) = magNat us * wordBase ^ ws.length + magNat ws := by
  rw [magNat, List.foldl_append, magNat_foldl]
  rfl

theorem leNat_append (us ws : List Word) :
    leNat (us ++ ws) = leNat us + wordBase ^ us.length * leNat ws := by
  induction us with
  | nil => simp [leNat]
  | cons u us ih =>
    simp only [List.cons_append, leNat, ih, List.length_cons, Nat.pow_succ]
    ring

/-- The two orders of one sequence stand for one number. -/
theorem magNat_reverse (ws : List Word) : magNat ws.reverse = leNat ws := by
  induction ws with
  | nil => rfl
  | cons w ws ih =>
    rw [List.reverse_cons, magNat_append, ih, magNat_cons]
    simp [leNat]
    ring

theorem leNat_reverse (ws : List Word) : leNat ws.reverse = magNat ws := by
  rw [← magNat_reverse, List.reverse_reverse]

theorem leNat_lt (ws : List Word) : leNat ws < wordBase ^ ws.length := by
  induction ws with
  | nil => simp [leNat]
  | cons w ws ih =>
    have hw := w.isLt
    rw [leNat, List.length_cons, Nat.pow_succ]
    calc w.toNat + wordBase * leNat ws
        < wordBase + wordBase * leNat ws := by simpa using hw
      _ = wordBase * (leNat ws + 1) := by ring
      _ ≤ wordBase * wordBase ^ ws.length := Nat.mul_le_mul_left _ ih
      _ = _ := by ring

theorem magNat_lt (ws : List Word) : magNat ws < wordBase ^ ws.length := by
  simpa [leNat_reverse] using leNat_lt ws.reverse

@[simp] theorem leWords_length (k n : Nat) : (leWords k n).length = k := by
  induction k generalizing n with
  | zero => rfl
  | succ k ih => simp [leWords, ih]

/-- `k` digits of `n` stand for `n` modulo `B^k`. -/
theorem leNat_leWords (k n : Nat) : leNat (leWords k n) = n % wordBase ^ k := by
  induction k generalizing n with
  | zero => simp [leWords, leNat, Nat.mod_one]
  | succ k ih =>
    rw [leWords, leNat, ih, Nat.pow_succ, Nat.mul_comm (wordBase ^ k), Nat.mod_mul]
    simp [wordBase]

@[simp] theorem magNat_replicate_zero (n : Nat) : magNat (List.replicate n 0#32) = 0 := by
  induction n with
  | zero => rfl
  | succ n ih => simp [List.replicate_succ, magNat_cons, ih]

/-! ### Leading zeros -/

theorem magNat_stripZeros (ws : List Word) : magNat (stripZeros ws) = magNat ws := by
  induction ws with
  | nil => rfl
  | cons w ws ih =>
    by_cases h : w = 0#32
    · subst h
      simpa [stripZeros, magNat_cons] using ih
    · simp [stripZeros, h]

theorem stripZeros_noLeadingZero (ws : List Word) : NoLeadingZero (stripZeros ws) := by
  induction ws with
  | nil => simp [NoLeadingZero, stripZeros]
  | cons w ws ih =>
    by_cases h : w = 0#32
    · subst h
      simpa [stripZeros] using ih
    · simp [NoLeadingZero, stripZeros, h]

theorem stripZeros_length_le (ws : List Word) : (stripZeros ws).length ≤ ws.length :=
  List.length_dropWhile_le _ _

theorem magNat_dropZeroTop (ws : List Word) : magNat (dropZeroTop ws) = magNat ws := by
  cases ws with
  | nil => rfl
  | cons w ws =>
    by_cases h : w = 0#32
    · subst h
      simp [dropZeroTop, magNat_cons]
    · simp [dropZeroTop, h]

/-- A sequence with no leading zero is at least as large as its top digit's place. -/
theorem pow_le_magNat {w : Word} {ws : List Word} (h : NoLeadingZero (w :: ws)) :
    wordBase ^ ws.length ≤ magNat (w :: ws) := by
  have hw : 1 ≤ w.toNat := by
    rcases Nat.eq_zero_or_pos w.toNat with h0 | h0
    · exact absurd (BitVec.eq_of_toNat_eq (y := 0#32) (by simpa using h0)) (by simpa [NoLeadingZero] using h)
    · exact h0
  rw [magNat_cons]
  calc wordBase ^ ws.length = 1 * wordBase ^ ws.length := by ring
    _ ≤ w.toNat * wordBase ^ ws.length := Nat.mul_le_mul_right _ hw
    _ ≤ _ := Nat.le_add_right _ _

theorem magNat_pos_of_ne_nil {ws : List Word} (h : NoLeadingZero ws) (hne : ws ≠ []) : 0 < magNat ws := by
  cases ws with
  | nil => exact absurd rfl hne
  | cons w ws => exact Nat.lt_of_lt_of_le (Nat.pow_pos (by norm_num [wordBase])) (pow_le_magNat h)

/-- The digits of a number are unique, for sequences of one length. -/
theorem magNat_inj_of_length {us ws : List Word} (hl : us.length = ws.length) (h : magNat us = magNat ws) : us = ws := by
  induction us generalizing ws with
  | nil => exact (List.length_eq_zero_iff.1 hl.symm).symm
  | cons u us ih =>
    cases ws with
    | nil => simp at hl
    | cons w ws =>
      have hl' : us.length = ws.length := by simpa using hl
      have hu := magNat_lt us
      have hw := magNat_lt ws
      rw [magNat_cons, magNat_cons, hl'] at h
      rw [hl'] at hu
      have hpos : 0 < wordBase ^ ws.length := Nat.pow_pos (by norm_num [wordBase])
      have htop : u.toNat = w.toNat := by
        have h1 : (u.toNat * wordBase ^ ws.length + magNat us) / wordBase ^ ws.length = u.toNat := by
          rw [Nat.mul_comm, Nat.mul_add_div hpos, Nat.div_eq_of_lt hu, Nat.add_zero]
        have h2 : (w.toNat * wordBase ^ ws.length + magNat ws) / wordBase ^ ws.length = w.toNat := by
          rw [Nat.mul_comm, Nat.mul_add_div hpos, Nat.div_eq_of_lt hw, Nat.add_zero]
        rw [← h1, h, h2]
      rw [htop] at h
      rw [BitVec.eq_of_toNat_eq htop, ih hl' (by omega)]

/-- A sequence with no leading zero has the length its number needs. -/
theorem length_le_of_magNat_le {us ws : List Word} (hu : NoLeadingZero us) (h : magNat us ≤ magNat ws) :
    us.length ≤ ws.length := by
  cases us with
  | nil => simp
  | cons u us =>
    have h1 := pow_le_magNat hu
    have h2 := magNat_lt ws
    exact (Nat.pow_lt_pow_iff_right (by norm_num [wordBase])).1 (Nat.lt_of_le_of_lt (h1.trans h) h2)

/-- The digits of a number with no leading zero are unique (R10). -/
theorem magNat_inj {us ws : List Word} (hu : NoLeadingZero us) (hw : NoLeadingZero ws) (h : magNat us = magNat ws) :
    us = ws :=
  magNat_inj_of_length (Nat.le_antisymm (length_le_of_magNat_le hu h.le) (length_le_of_magNat_le hw h.ge)) h

/-- The larger of two numbers has the longer digit sequence, so a bound on the number bounds the length. -/
theorem length_le_iff_magNat_lt {us : List Word} (hu : NoLeadingZero us) (n : Nat) :
    us.length ≤ n ↔ magNat us < wordBase ^ n := by
  constructor
  · intro h
    exact Nat.lt_of_lt_of_le (magNat_lt us) (Nat.pow_le_pow_right (by norm_num [wordBase]) h)
  · intro h
    cases us with
    | nil => simp
    | cons u us =>
      have := Nat.lt_of_le_of_lt (pow_le_magNat hu) h
      have := (Nat.pow_lt_pow_iff_right (a := wordBase) (by norm_num [wordBase])).1 this
      simpa using this

/-! ### Digits of a number -/

theorem magNat_natMag (n : Nat) : magNat (natMag n) = n := by
  rw [natMag, magNat_stripZeros, magNat_reverse, leNat_leWords]
  apply Nat.mod_eq_of_lt
  have h := Nat.lt_log2_self (n := n)
  calc n < 2 ^ (n.log2 + 1) := h
    _ ≤ 2 ^ (32 * (n.log2 / 32 + 1)) := Nat.pow_le_pow_right (by norm_num) (by omega)
    _ = wordBase ^ (n.log2 / 32 + 1) := by rw [Nat.pow_mul]

theorem natMag_noLeadingZero (n : Nat) : NoLeadingZero (natMag n) := stripZeros_noLeadingZero _

@[simp] theorem natMag_zero : natMag 0 = [] := by decide

/-- The digits of the number of a sequence with no leading zero are the sequence. -/
theorem natMag_magNat {ws : List Word} (h : NoLeadingZero ws) : natMag (magNat ws) = ws :=
  magNat_inj (natMag_noLeadingZero _) h (magNat_natMag _)

theorem natMag_eq_nil_iff (n : Nat) : natMag n = [] ↔ n = 0 := by
  constructor
  · intro h
    rw [← magNat_natMag n, h, magNat_nil]
  · rintro rfl
    exact natMag_zero

/-! ### Canonical values -/

theorem canonical_iff (a : Value) :
    a.canonical = true ↔ NoLeadingZero a.mag ∧ (a.sign = .zero ↔ a.mag = []) := by
  unfold Value.canonical
  rw [Bool.and_eq_true, bne_iff_ne, beq_iff_eq]
  constructor
  · rintro ⟨h1, h2⟩
    refine ⟨h1, ?_⟩
    rw [← List.isEmpty_iff, ← h2, beq_iff_eq]
  · rintro ⟨h1, h2⟩
    refine ⟨h1, ?_⟩
    rw [Bool.eq_iff_iff, beq_iff_eq, List.isEmpty_iff]
    exact h2

theorem noLeadingZero_of_canonical {a : Value} (h : a.canonical = true) : NoLeadingZero a.mag :=
  ((canonical_iff a).1 h).1

theorem canonical_canon (z : Int) : (canon z).canonical = true := by
  have hm : z ≠ 0 → natMag z.natAbs ≠ [] := fun hz h => hz (by simpa [natMag_eq_nil_iff] using h)
  rw [canonical_iff]
  unfold canon
  split
  · simp [NoLeadingZero]
  · rename_i hz
    split <;> exact ⟨natMag_noLeadingZero _, by simpa using hm hz⟩

/-- The canonical value of `z` stands for `z` (R10). -/
theorem val_canon (z : Int) : (canon z).val = z := by
  unfold canon
  split
  · simp [Value.val, Sign.num, *]
  · split <;> simp only [Value.val, Sign.num, magNat_natMag] <;> omega

/-- A canonical value is the canonical value of the integer it stands for: there is exactly one (R10). -/
theorem canon_val {a : Value} (h : a.canonical = true) : canon a.val = a := by
  obtain ⟨hz, hs⟩ := (canonical_iff a).1 h
  obtain ⟨sg, m⟩ := a
  have hpos : m ≠ [] → 0 < magNat m := magNat_pos_of_ne_nil hz
  cases sg with
  | zero =>
    have hm : m = [] := hs.1 rfl
    subst hm
    rfl
  | positive =>
    have := hpos (fun hm => by simpa using hs.2 hm)
    have hv : Value.val { sign := .positive, mag := m } = (magNat m : Int) := by simp [Value.val, Sign.num]
    rw [hv, canon, if_neg (by omega), if_pos (by omega), Int.natAbs_natCast, natMag_magNat hz]
  | negative =>
    have := hpos (fun hm => by simpa using hs.2 hm)
    have hv : Value.val { sign := .negative, mag := m } = -(magNat m : Int) := by simp [Value.val, Sign.num]
    rw [hv, canon, if_neg (by omega), if_neg (by omega), Int.natAbs_neg, Int.natAbs_natCast, natMag_magNat hz]

/-- Two canonical values that stand for one integer are one value. -/
theorem eq_of_val_eq {a b : Value} (ha : a.canonical = true) (hb : b.canonical = true) (h : a.val = b.val) : a = b := by
  rw [← canon_val ha, ← canon_val hb, h]

/-- A canonical value that stands for `z` is `canon z`. -/
theorem eq_canon_of_val {a : Value} {z : Int} (ha : a.canonical = true) (h : a.val = z) : a = canon z := by
  rw [← canon_val ha, h]

/-- The absolute value of a canonical value is the number of its magnitude. -/
theorem natAbs_val {a : Value} (h : a.canonical = true) : a.val.natAbs = magNat a.mag := by
  obtain ⟨sg, m⟩ := a
  cases sg with
  | zero =>
    have : m = [] := ((canonical_iff _).1 h).2.1 rfl
    simp [Value.val, Sign.num, this]
  | positive => simp [Value.val, Sign.num]
  | negative => simp [Value.val, Sign.num]

/-- The sign tag of a canonical value is the sign of the integer. -/
theorem sign_num_eq {a : Value} (h : a.canonical = true) : a.sign.num = a.val.sign := by
  obtain ⟨hz, hs⟩ := (canonical_iff a).1 h
  obtain ⟨sg, m⟩ := a
  have hpos : m ≠ [] → 0 < magNat m := magNat_pos_of_ne_nil hz
  cases sg with
  | zero => simp [Value.val, Sign.num]
  | positive =>
    have := hpos (fun hm => by simpa using hs.2 hm)
    simp [Value.val, Sign.num, Int.sign_eq_one_of_pos (Int.natCast_pos.2 this)]
  | negative =>
    have := hpos (fun hm => by simpa using hs.2 hm)
    simp [Value.val, Sign.num, Int.sign_eq_one_of_pos (Int.natCast_pos.2 this)]

theorem canonical_zeroValue : zeroValue.canonical = true := by decide
theorem canonical_oneValue : oneValue.canonical = true := by decide
theorem canonical_twoValue : twoValue.canonical = true := by decide
theorem canonical_minusOneValue : minusOneValue.canonical = true := by decide

end Sys2Proof.Machine
end

