-- ==== Sys2Proof/Laws/Magnitude.lean ====
section
/-! SUPPORT. What the shared magnitude operations compute: `cmpmag`, `addmag`, `submag`, `mulmag`
(41_compare.md R140; 42_additive.md R150, R151; 43_multiply.md R165). -/

namespace Sys2Proof.Machine

theorem wordBase_pos : 0 < wordBase := by norm_num [wordBase]

/-- A sequence read from its least-significant end: the first word (0 if there is none) and the rest. -/
theorem leNat_headD_tail (ws : List Word) : leNat ws = (ws.headD 0#32).toNat + wordBase * leNat ws.tail := by
  cases ws <;> simp [leNat]

theorem headD_toNat_lt (ws : List Word) : (ws.headD 0#32).toNat < wordBase := (ws.headD 0#32).isLt

theorem toNat_ofNat_word (t : Nat) : (BitVec.ofNat 32 t).toNat = t % wordBase := BitVec.toNat_ofNat t 32

/-! ### Comparison -/

/-- `cmpmag` orders canonical magnitudes as the numbers they stand for (R140). -/
theorem cmpmag_eq {p q : List Word} (hp : NoLeadingZero p) (hq : NoLeadingZero q) :
    cmpmag p q = compare (magNat p) (magNat q) := by
  have hwords : ∀ p q : List Word, p.length = q.length → cmpWords p q = compare (magNat p) (magNat q) := by
    intro p
    induction p with
    | nil => intro q h; simp [List.length_eq_zero_iff.1 h.symm, cmpWords]
    | cons u us ih =>
      intro q h
      cases q with
      | nil => simp at h
      | cons w ws =>
        have hl : us.length = ws.length := by simpa using h
        have h1 := magNat_lt us
        have h2 := magNat_lt ws
        have hpos : 0 < wordBase ^ ws.length := Nat.pow_pos wordBase_pos
        rw [cmpWords, ih ws hl, magNat_cons, magNat_cons, hl]
        rw [hl] at h1
        have step : ∀ a b : Nat, a < b → ∀ x y, x < wordBase ^ ws.length → y < wordBase ^ ws.length →
            a * wordBase ^ ws.length + x < b * wordBase ^ ws.length + y := by
          intro a b hab x y hx _
          calc a * wordBase ^ ws.length + x < a * wordBase ^ ws.length + wordBase ^ ws.length := by omega
            _ = (a + 1) * wordBase ^ ws.length := by ring
            _ ≤ b * wordBase ^ ws.length := Nat.mul_le_mul_right _ hab
            _ ≤ _ := Nat.le_add_right _ _
        rcases Nat.lt_trichotomy u.toNat w.toNat with hlt | heq | hgt
        · rw [if_pos hlt, eq_comm, Nat.compare_eq_lt]
          exact step _ _ hlt _ _ h1 h2
        · rw [if_neg (by omega), if_neg (by omega), heq]
          rcases Nat.lt_trichotomy (magNat us) (magNat ws) with h | h | h
          · rw [Nat.compare_eq_lt.2 h, eq_comm, Nat.compare_eq_lt]; omega
          · rw [Nat.compare_eq_eq.2 h, eq_comm, Nat.compare_eq_eq]; omega
          · rw [Nat.compare_eq_gt.2 h, eq_comm, Nat.compare_eq_gt]; omega
        · rw [if_neg (by omega), if_pos hgt, eq_comm, Nat.compare_eq_gt]
          exact step _ _ hgt _ _ h2 h1
  unfold cmpmag
  split
  · rename_i h
    rw [eq_comm, Nat.compare_eq_lt]
    rcases Nat.lt_or_ge (magNat p) (magNat q) with h' | h'
    · exact h'
    · exact absurd (length_le_of_magNat_le hq h') (by omega)
  · split
    · rename_i h
      rw [eq_comm, Nat.compare_eq_gt]
      rcases Nat.lt_or_ge (magNat q) (magNat p) with h' | h'
      · exact h'
      · exact absurd (length_le_of_magNat_le hp h') (by omega)
    · exact hwords p q (by omega)

/-! ### Leading zeros of a result -/

/-- A sequence one word longer than its number needs, or just as long, has at most one leading zero word. -/
theorem dropZeroTop_noLeadingZero {ws : List Word} {n : Nat} (hl : ws.length = n + 2)
    (h : wordBase ^ n ≤ magNat ws) : NoLeadingZero (dropZeroTop ws) := by
  obtain ⟨w, ws, rfl⟩ := List.exists_cons_of_ne_nil (l := ws) (by rintro rfl; simp at hl)
  by_cases hw : w = 0#32
  · subst hw
    obtain ⟨x, xs, rfl⟩ := List.exists_cons_of_ne_nil (l := ws) (by rintro rfl; simp at hl)
    have hx : x ≠ 0#32 := by
      rintro rfl
      have hlen : xs.length = n := by simpa using hl
      have := magNat_lt xs
      simp [magNat_cons, hlen] at h this
      omega
    simp [dropZeroTop, NoLeadingZero, hx]
  · simp [dropZeroTop, NoLeadingZero, hw]

/-! ### Addition -/

theorem leNat_addLoop (n : Nat) (p q : List Word) (c : Nat) (hp : p.length ≤ n) (hq : q.length ≤ n) (hc : c ≤ 1) :
    leNat (addLoop n p q c) = leNat p + leNat q + c := by
  induction n generalizing p q c with
  | zero =>
    have hp0 : p = [] := List.length_eq_zero_iff.1 (by omega)
    have hq0 : q = [] := List.length_eq_zero_iff.1 (by omega)
    subst hp0 hq0
    simp [addLoop, leNat]
    omega
  | succ n ih =>
    have h1 := headD_toNat_lt p
    have h2 := headD_toNat_lt q
    rw [addLoop, leNat, ih _ _ _ (by simp; omega) (by simp; omega) (by simp [wordBase] at *; omega),
      leNat_headD_tail p, leNat_headD_tail q, toNat_ofNat_word]
    have := Nat.mod_add_div ((p.headD 0#32).toNat + (q.headD 0#32).toNat + c) wordBase
    simp only [wordBase] at *
    omega

@[simp] theorem addLoop_length (n : Nat) (p q : List Word) (c : Nat) : (addLoop n p q c).length = n + 1 := by
  induction n generalizing p q c with
  | zero => rfl
  | succ n ih => simp [addLoop, ih]

/-- `addmag` gives the magnitude of the sum (R150). -/
theorem magNat_addmag (p q : List Word) : magNat (addmag p q) = magNat p + magNat q := by
  rw [addmag, magNat_dropZeroTop, magNat_reverse, leNat_addLoop, leNat_reverse, leNat_reverse, Nat.add_zero]
  · simp
  · simp
  · omega

theorem addmag_noLeadingZero {p q : List Word} (hp : NoLeadingZero p) (hq : NoLeadingZero q) :
    NoLeadingZero (addmag p q) := by
  have hval : magNat (addLoop (Nat.max p.length q.length) p.reverse q.reverse 0).reverse = magNat p + magNat q := by
    rw [← magNat_dropZeroTop]
    exact magNat_addmag p q
  by_cases h0 : Nat.max p.length q.length = 0
  · have h1 := Nat.le_max_left p.length q.length
    have h2 := Nat.le_max_right p.length q.length
    have hp0 : p = [] := List.length_eq_zero_iff.1 (by simp only [Nat.max_def] at *; omega)
    have hq0 : q = [] := List.length_eq_zero_iff.1 (by simp only [Nat.max_def] at *; omega)
    subst hp0 hq0
    decide
  · obtain ⟨n, hn⟩ := Nat.exists_eq_succ_of_ne_zero h0
    refine dropZeroTop_noLeadingZero (n := n) (by simp [hn]) ?_
    rw [hval]
    have big : ∀ ws : List Word, NoLeadingZero ws → ws.length = n + 1 → wordBase ^ n ≤ magNat ws := by
      intro ws hws hl
      obtain ⟨w, ws, rfl⟩ := List.exists_cons_of_ne_nil (l := ws) (by rintro rfl; simp at hl)
      have : ws.length = n := by simpa using hl
      exact this ▸ pow_le_magNat hws
    rcases Nat.le_total p.length q.length with h | h
    · have := big q hq (by rw [← Nat.succ_eq_add_one, ← hn]; simp only [Nat.max_def]; split <;> omega)
      omega
    · have := big p hp (by rw [← Nat.succ_eq_add_one, ← hn]; simp only [Nat.max_def]; split <;> omega)
      omega

/-! ### Subtraction -/

theorem leNat_subLoop (p q : List Word) (b : Int) (hq : q.length ≤ p.length) (hb : b = 0 ∨ b = 1) :
    (leNat (subLoop p q b) : Int) = ((leNat p : Int) - leNat q - b) % (wordBase : Int) ^ p.length := by
  induction p generalizing q b with
  | nil =>
    have hq0 : q = [] := List.length_eq_zero_iff.1 (by simpa using hq)
    subst hq0
    simp [subLoop, leNat]
  | cons w ws ih =>
    have hlt := headD_toNat_lt q
    have hw := w.isLt
    rw [subLoop]
    set t : Int := (w.toNat : Int) - ((q.headD 0#32).toNat : Int) - b with ht
    have hcarry : -(if t < 0 then (1 : Int) else 0) = t / (wordBase : Int) := by
      simp only [wordBase] at *
      split <;> rcases hb with rfl | rfl <;> omega
    rw [leNat, Nat.cast_add, Nat.cast_mul, ih _ _ (by simp at hq ⊢; omega) (by split <;> simp), BitVec.toNat_ofInt,
      leNat_headD_tail q]
    have hB : (0 : Int) < (wordBase : Int) := by norm_num [wordBase]
    have hM : (0 : Int) < (wordBase : Int) ^ ws.length := Int.pow_pos hB
    have hmod : ∀ a y : Int, 0 ≤ a → a < (wordBase : Int) →
        (a + (wordBase : Int) * y) % ((wordBase : Int) ^ ws.length * (wordBase : Int)) =
          a + (wordBase : Int) * (y % (wordBase : Int) ^ ws.length) := by
      intro a y h0 h1
      have hy := Int.emod_add_mul_ediv y ((wordBase : Int) ^ ws.length)
      have hlo := Int.emod_nonneg y hM.ne'
      have hhi := Int.emod_lt_of_pos y hM
      have : a + (wordBase : Int) * y = (a + (wordBase : Int) * (y % (wordBase : Int) ^ ws.length)) +
          ((wordBase : Int) ^ ws.length * (wordBase : Int)) * (y / (wordBase : Int) ^ ws.length) := by
        conv_lhs => rw [← hy]
        ring
      rw [this, Int.add_mul_emod_self_left]
      apply Int.emod_eq_of_lt
      · have := Int.mul_nonneg hB.le hlo
        omega
      · calc a + (wordBase : Int) * (y % (wordBase : Int) ^ ws.length)
            < (wordBase : Int) + (wordBase : Int) * (y % (wordBase : Int) ^ ws.length) := by omega
          _ = (wordBase : Int) * (y % (wordBase : Int) ^ ws.length + 1) := by ring
          _ ≤ (wordBase : Int) * (wordBase : Int) ^ ws.length := Int.mul_le_mul_of_nonneg_left (by omega) hB.le
          _ = _ := by ring
    have hdigit : (((t % (2 ^ 32 : Nat)).toNat : Nat) : Int) = t % (wordBase : Int) := by
      have : ((2 ^ 32 : Nat) : Int) = (wordBase : Int) := by norm_num [wordBase]
      rw [this, Int.toNat_of_nonneg (Int.emod_nonneg _ hB.ne')]
    rw [hdigit, List.length_cons, pow_succ, ← hmod _ _ (Int.emod_nonneg _ hB.ne') (Int.emod_lt_of_pos _ hB)]
    congr 1
    have := Int.emod_add_mul_ediv t (wordBase : Int)
    rw [leNat]
    push_cast
    linear_combination this + (wordBase : Int) * hcarry - ht

/-- `submag` gives the magnitude of the difference (R151). -/
theorem magNat_submag {p q : List Word} (hl : q.length ≤ p.length) (h : magNat q ≤ magNat p) :
    magNat (submag p q) = magNat p - magNat q := by
  rw [submag, magNat_stripZeros, magNat_reverse]
  have hsub := leNat_subLoop p.reverse q.reverse 0 (by simpa using hl) (Or.inl rfl)
  have hlt := magNat_lt p
  rw [leNat_reverse, leNat_reverse, List.length_reverse, Int.emod_eq_of_lt] at hsub
  · omega
  · omega
  · have : ((magNat p : Nat) : Int) < ((wordBase ^ p.length : Nat) : Int) := by exact_mod_cast hlt
    push_cast at this ⊢
    omega

theorem submag_noLeadingZero (p q : List Word) : NoLeadingZero (submag p q) := stripZeros_noLeadingZero _

/-! ### Multiplication -/

theorem mulRow_drop (q : Word) (p r : List Word) (c : Nat) :
    (mulRow q p r c).drop (p.length + 1) = r.drop (p.length + 1) := by
  induction p generalizing r c with
  | nil => simp [mulRow]
  | cons w ws ih => simpa [mulRow] using ih r.tail _

theorem mulRow_length (q : Word) (p r : List Word) (c : Nat) (h : p.length < r.length) :
    (mulRow q p r c).length = r.length := by
  induction p generalizing r c with
  | nil => simp [mulRow] at *; omega
  | cons w ws ih =>
    rw [mulRow, List.length_cons, ih r.tail _ (by simp at *; omega), List.length_tail]
    simp at h
    omega

theorem leNat_mulRow (q : Word) (p r : List Word) (c : Nat) (hc : c < wordBase)
    (hr : ∀ w ∈ r.drop p.length, w = 0#32) :
    leNat (mulRow q p r c) = leNat r + leNat p * q.toNat + c := by
  induction p generalizing r c with
  | nil =>
    have h0 : (r.headD 0#32).toNat = 0 := by
      cases r with
      | nil => rfl
      | cons w ws => simp [hr w (by simp)]
    have hr := leNat_headD_tail r
    rw [h0] at hr
    rw [mulRow]
    simp only [leNat, toNat_ofNat_word, Nat.mod_eq_of_lt hc]
    omega
  | cons w ws ih =>
    have h1 := headD_toNat_lt r
    have h2 := q.isLt
    have h3 := w.isLt
    have hprod : w.toNat * q.toNat ≤ (wordBase - 1) * (wordBase - 1) :=
      Nat.mul_le_mul (by simp only [wordBase]; omega) (by simp only [wordBase]; omega)
    rw [mulRow, leNat, ih r.tail _ (by simp only [wordBase] at *; omega) (by simpa using hr), toNat_ofNat_word,
      leNat_headD_tail r, leNat]
    have := Nat.mod_add_div (w.toNat * q.toNat + (r.headD 0#32).toNat + c) wordBase
    generalize hx : (w.toNat * q.toNat + (r.headD 0#32).toNat + c) / wordBase = x at *
    generalize hy : (w.toNat * q.toNat + (r.headD 0#32).toNat + c) % wordBase = y at *
    linear_combination this

theorem leNat_mulLoop (p qs r : List Word) (hr : ∀ w ∈ r.drop p.length, w = 0#32) :
    leNat (mulLoop p qs r) = leNat r + leNat p * leNat qs := by
  induction qs generalizing r with
  | nil => simp [mulLoop, leNat]
  | cons q qs ih =>
    have hrow := leNat_mulRow q p r 0 (by norm_num [wordBase]) hr
    have hdrop := mulRow_drop q p r 0
    have htail : ∀ w ∈ (mulRow q p r 0).tail.drop p.length, w = 0#32 := by
      intro w hw
      rw [List.drop_tail, hdrop] at hw
      exact hr w (List.mem_of_mem_drop (i := 1) (by simpa [List.drop_drop, Nat.add_comm] using hw))
    rw [mulLoop]
    simp only [leNat]
    rw [ih _ htail]
    have := leNat_headD_tail (mulRow q p r 0)
    linear_combination hrow - this

theorem mulLoop_length (p qs r : List Word) (h : r.length = p.length + qs.length) :
    (mulLoop p qs r).length = p.length + qs.length := by
  induction qs generalizing r with
  | nil => simpa [mulLoop] using h
  | cons q qs ih =>
    have hl := mulRow_length q p r 0 (by simp at h; omega)
    rw [mulLoop]
    simp only [List.length_cons] at *
    rw [ih _ (by rw [List.length_tail, hl]; omega)]
    omega

/-- `mulmag` gives the magnitude of the product (R165). -/
theorem magNat_mulmag (p q : List Word) : magNat (mulmag p q) = magNat p * magNat q := by
  rw [mulmag, magNat_dropZeroTop, magNat_reverse, leNat_mulLoop, leNat_reverse, leNat_reverse]
  · have : leNat (List.replicate (p.length + q.length) 0#32) = 0 := by
      rw [← magNat_reverse, List.reverse_replicate, magNat_replicate_zero]
    omega
  · intro w hw
    exact List.eq_of_mem_replicate (List.mem_of_mem_drop hw)

theorem mulmag_noLeadingZero {p q : List Word} (hp : NoLeadingZero p) (hq : NoLeadingZero q) (hp0 : p ≠ [])
    (hq0 : q ≠ []) : NoLeadingZero (mulmag p q) := by
  obtain ⟨u, us, rfl⟩ := List.exists_cons_of_ne_nil hp0
  obtain ⟨w, ws, rfl⟩ := List.exists_cons_of_ne_nil hq0
  refine dropZeroTop_noLeadingZero (n := us.length + ws.length) ?_ ?_
  · rw [List.length_reverse, mulLoop_length _ _ _ (by simp)]
    simp
    omega
  · rw [← magNat_dropZeroTop]
    have h := magNat_mulmag (u :: us) (w :: ws)
    rw [mulmag] at h
    rw [h, Nat.pow_add]
    exact Nat.mul_le_mul (pow_le_magNat hp) (pow_le_magNat hq)

end Sys2Proof.Machine
end

