-- ==== Sys2Proof/Laws/Divide.lean ====
section
/-! SUPPORT. What the parts of the dividers compute: the loop of R177, and Steps 3 and 4 of R178 (44_divide.md). -/

namespace Sys2Proof.Machine

/-- One digit taken out of a number modulo a power of the base. -/
theorem emod_base_succ (n : Nat) (a y : Int) (h0 : 0 ≤ a) (h1 : a < (wordBase : Int)) :
    (a + (wordBase : Int) * y) % (wordBase : Int) ^ (n + 1) = a + (wordBase : Int) * (y % (wordBase : Int) ^ n) := by
  have hB : (0 : Int) < (wordBase : Int) := by norm_num [wordBase]
  have hM : (0 : Int) < (wordBase : Int) ^ n := Int.pow_pos hB
  have hy := Int.emod_add_mul_ediv y ((wordBase : Int) ^ n)
  have hlo := Int.mul_nonneg hB.le (Int.emod_nonneg y hM.ne')
  have hhi := Int.emod_lt_of_pos y hM
  have hsplit : a + (wordBase : Int) * y = (a + (wordBase : Int) * (y % (wordBase : Int) ^ n)) +
      (wordBase : Int) ^ (n + 1) * (y / (wordBase : Int) ^ n) := by
    rw [pow_succ]
    linear_combination (-(wordBase : Int)) * hy
  rw [hsplit, Int.add_mul_emod_self_left]
  apply Int.emod_eq_of_lt (by omega)
  calc a + (wordBase : Int) * (y % (wordBase : Int) ^ n)
      < (wordBase : Int) + (wordBase : Int) * (y % (wordBase : Int) ^ n) := by omega
    _ = (wordBase : Int) * (y % (wordBase : Int) ^ n + 1) := by ring
    _ ≤ (wordBase : Int) * (wordBase : Int) ^ n := Int.mul_le_mul_of_nonneg_left (by omega) hB.le
    _ = _ := by rw [pow_succ, Int.mul_comm]

/-- The same for numbers. -/
theorem mod_base_succ (n a y : Nat) (h : a < wordBase) :
    (a + wordBase * y) % wordBase ^ (n + 1) = a + wordBase * (y % wordBase ^ n) := by
  rw [Nat.pow_succ, Nat.mul_comm (wordBase ^ n), Nat.mod_mul, Nat.add_mul_mod_self_left, Nat.mod_eq_of_lt h,
    Nat.add_mul_div_left _ _ wordBase_pos, Nat.div_eq_of_lt h, Nat.zero_add]

theorem toNat_ofInt_word (t : Int) : ((BitVec.ofInt 32 t).toNat : Int) = t % (wordBase : Int) := by
  have hB : ((2 ^ 32 : Nat) : Int) = (wordBase : Int) := by norm_num [wordBase]
  rw [BitVec.toNat_ofInt, hB, Int.toNat_of_nonneg (Int.emod_nonneg _ (by norm_num [wordBase]))]

/-- The running remainder and the digits of the single-word divider (R177). -/
theorem divLoop1_spec (d : Nat) (u : List Word) (rem : Nat) (hrem : rem < d) :
    rem * wordBase ^ u.length + magNat u = d * magNat (divLoop1 d u rem).1 + (divLoop1 d u rem).2 ∧
    (divLoop1 d u rem).2 < d ∧ (divLoop1 d u rem).1.length = u.length := by
  induction u generalizing rem with
  | nil => exact ⟨by simp [divLoop1], hrem, rfl⟩
  | cons w ws ih =>
    have hpos : 0 < d := by omega
    obtain ⟨h1, h2, h3⟩ := ih _ (Nat.mod_lt (rem * wordBase + w.toNat) hpos)
    have hdef : divLoop1 d (w :: ws) rem =
        (BitVec.ofNat 32 ((rem * wordBase + w.toNat) / d) :: (divLoop1 d ws ((rem * wordBase + w.toNat) % d)).1,
          (divLoop1 d ws ((rem * wordBase + w.toNat) % d)).2) := by rw [divLoop1]
    rw [hdef]
    refine ⟨?_, h2, by simp [h3]⟩
    have hlt : rem * wordBase + w.toNat < d * wordBase := by
      have hw : w.toNat < wordBase := w.isLt
      calc rem * wordBase + w.toNat < rem * wordBase + wordBase := by omega
        _ = (rem + 1) * wordBase := by ring
        _ ≤ d * wordBase := Nat.mul_le_mul_right _ hrem
    have hq : (rem * wordBase + w.toNat) / d < wordBase := by
      rw [Nat.div_lt_iff_lt_mul hpos, Nat.mul_comm wordBase]
      exact hlt
    have hmod := Nat.mod_add_div (rem * wordBase + w.toNat) d
    simp only [magNat_cons, toNat_ofNat_word, Nat.mod_eq_of_lt hq, h3, List.length_cons, Nat.pow_succ]
    clear hlt hq ih
    generalize wordBase = B at *
    generalize (rem * B + w.toNat) / d = x at *
    generalize (rem * B + w.toNat) % d = y at *
    have hmod' : B ^ ws.length * (y + d * x) = B ^ ws.length * (rem * B + w.toNat) := by rw [hmod]
    linear_combination h1 - hmod'

/-- Step 3 of R178: the window less `qhat` times the divisor, modulo the window's range, and whether it is negative. -/
theorem mulSub_spec (qhat : Nat) (vs u : List Word) (carry : Nat) (borrow : Int) (hq : qhat < wordBase)
    (hl : u.length = vs.length + 1) (hc : carry < wordBase) (hb : borrow = 0 ∨ borrow = 1) :
    (leNat (mulSub qhat vs u carry borrow).1 : Int) =
      ((leNat u : Int) - qhat * leNat vs - carry - borrow) % (wordBase : Int) ^ (vs.length + 1) ∧
    (mulSub qhat vs u carry borrow).2 = decide ((leNat u : Int) - qhat * leNat vs - carry - borrow < 0) ∧
    (mulSub qhat vs u carry borrow).1.length = vs.length + 1 := by
  induction vs generalizing u carry borrow with
  | nil =>
    obtain ⟨w, rfl⟩ := List.length_eq_one_iff.1 hl
    refine ⟨?_, ?_, rfl⟩
    · simp only [mulSub, leNat, List.headD_cons, Nat.mul_zero, Nat.add_zero, toNat_ofInt_word, List.length_nil]
      simp
    · simp [mulSub, leNat]
  | cons v vs ih =>
    obtain ⟨w, us, rfl⟩ := List.exists_cons_of_ne_nil (l := u) (by rintro rfl; simp at hl)
    have hus : us.length = vs.length + 1 := by simpa using hl
    have hw : w.toNat < wordBase := w.isLt
    have hv : v.toNat < wordBase := v.isLt
    have hprod : qhat * v.toNat ≤ (wordBase - 1) * (wordBase - 1) :=
      Nat.mul_le_mul (by omega) (by omega)
    have hcarry : (qhat * v.toNat + carry) / wordBase < wordBase := by
      simp only [wordBase] at *
      omega
    set p := qhat * v.toNat + carry with hp
    set t : Int := (w.toNat : Int) - ((p % wordBase : Nat) : Int) - borrow with ht
    obtain ⟨h1, h2, h3⟩ := ih us (p / wordBase) (if t < 0 then 1 else 0) hus hcarry (by split <;> simp)
    have hB : (0 : Int) < (wordBase : Int) := by norm_num [wordBase]
    have hpm := Nat.mod_lt p wordBase_pos
    have hdiv : -(if t < 0 then (1 : Int) else 0) = t / (wordBase : Int) := by
      simp only [wordBase] at *
      split <;> rcases hb with rfl | rfl <;> omega
    have hmodt := Int.emod_add_mul_ediv t (wordBase : Int)
    have hmodp : ((p % wordBase : Nat) : Int) + (wordBase : Int) * ((p / wordBase : Nat) : Int) = (p : Int) := by
      exact_mod_cast Nat.mod_add_div p wordBase
    have hx : ((leNat (w :: us) : Nat) : Int) - qhat * (leNat (v :: vs) : Nat) - carry - borrow =
        t % (wordBase : Int) + (wordBase : Int) *
          ((leNat us : Int) - qhat * leNat vs - (p / wordBase : Nat) - (if t < 0 then 1 else 0)) := by
      have hpz : (p : Int) = (qhat : Int) * v.toNat + carry := by rw [hp]; push_cast; ring
      rw [leNat, leNat]
      rw [Nat.cast_add, Nat.cast_mul, Nat.cast_add, Nat.cast_mul]
      linear_combination (-1 : Int) * hmodt + hmodp + hpz - ht - (wordBase : Int) * hdiv
    have hdef : mulSub qhat (v :: vs) (w :: us) carry borrow =
        (BitVec.ofInt 32 t :: (mulSub qhat vs us (p / wordBase) (if t < 0 then 1 else 0)).1,
          (mulSub qhat vs us (p / wordBase) (if t < 0 then 1 else 0)).2) := by
      rw [mulSub]
      rfl
    have hlo := Int.emod_nonneg t hB.ne'
    have hhi := Int.emod_lt_of_pos t hB
    rw [hdef, hx]
    refine ⟨?_, ?_, by simp [h3]⟩
    · rw [List.length_cons, emod_base_succ _ _ _ hlo hhi, leNat, Nat.cast_add, Nat.cast_mul, h1, toNat_ofInt_word]
    · rw [h2]
      apply decide_eq_decide.2
      constructor
      · intro h
        have := Int.mul_le_mul_of_nonneg_left (Int.le_sub_one_of_lt h) hB.le
        have hm : (wordBase : Int) * (0 - 1) = -(wordBase : Int) := by ring
        rw [hm] at this
        omega
      · intro h
        by_contra hn
        have := Int.mul_nonneg hB.le (Int.not_lt.1 hn)
        omega

/-- Step 4 of R178: the window plus the divisor, modulo the window's range. -/
theorem leNat_addBack (vs u : List Word) (carry : Nat) (hl : u.length = vs.length + 1) (hc : carry ≤ 1) :
    leNat (addBack vs u carry) = (leNat u + leNat vs + carry) % wordBase ^ (vs.length + 1) ∧
    (addBack vs u carry).length = vs.length + 1 := by
  induction vs generalizing u carry with
  | nil =>
    obtain ⟨w, rfl⟩ := List.length_eq_one_iff.1 hl
    refine ⟨?_, rfl⟩
    simp [addBack, leNat, wordBase]
  | cons v vs ih =>
    obtain ⟨w, us, rfl⟩ := List.exists_cons_of_ne_nil (l := u) (by rintro rfl; simp at hl)
    have hus : us.length = vs.length + 1 := by simpa using hl
    have hw : w.toNat < wordBase := w.isLt
    have hv : v.toNat < wordBase := v.isLt
    obtain ⟨h1, h2⟩ := ih us ((w.toNat + v.toNat + carry) / wordBase) hus (by simp only [wordBase] at *; omega)
    have hdef : addBack (v :: vs) (w :: us) carry = BitVec.ofNat 32 (w.toNat + v.toNat + carry) ::
        addBack vs us ((w.toNat + v.toNat + carry) / wordBase) := by
      rw [addBack]
      rfl
    refine ⟨?_, by simp [hdef, h2]⟩
    have hmod := Nat.mod_add_div (w.toNat + v.toNat + carry) wordBase
    rw [hdef, leNat, toNat_ofNat_word, h1, List.length_cons, leNat, leNat]
    have hsum : w.toNat + wordBase * leNat us + (v.toNat + wordBase * leNat vs) + carry =
        (w.toNat + v.toNat + carry) % wordBase +
          wordBase * (leNat us + leNat vs + (w.toNat + v.toNat + carry) / wordBase) := by
      rw [Nat.mul_add, Nat.mul_add]
      omega
    have hlt := Nat.mod_lt (w.toNat + v.toNat + carry) wordBase_pos
    rw [hsum, mod_base_succ _ _ _ hlt]

end Sys2Proof.Machine
end

