-- ==== Sys2Proof/Laws/Preconditions.lean ====
section
/-! SUPPORT. When each shared operation raises its own error, and that it raises no other (60_exceptions.md R292 to R296,
R306 to R308). -/

namespace Sys2Proof.Machine

theorem norm_ok_iff {k : Nat} (u : List (BitVec k)) (a : Value) : norm u = .ok a ↔ u ≠ [] ∧ a = normUnits u := by
  cases u <;> simp [norm, eq_comm]

theorem norm_error_iff {k : Nat} (u : List (BitVec k)) (e : ErrorKind) :
    norm u = .error e ↔ u = [] ∧ e = .constructionError := by
  cases u <;> simp [norm, eq_comm]

theorem bitPosition_ok_iff (pos : Int) (p : Nat) : bitPosition pos = .ok p ↔ 0 ≤ pos ∧ p = pos.toNat := by
  unfold bitPosition
  split
  · simp only [reduceCtorEq, false_iff, not_and]
    omega
  · simp only [Except.ok.injEq]
    omega

theorem bitPosition_error_iff (pos : Int) (e : ErrorKind) :
    bitPosition pos = .error e ↔ pos < 0 ∧ e = .negativeBitPosition := by
  unfold bitPosition
  split <;> rename_i h <;> simp [h, eq_comm]

theorem viewIndex_ok_iff (i : Int) (n : Nat) : viewIndex i = .ok n ↔ 0 ≤ i ∧ n = i.toNat := by
  unfold viewIndex
  split
  · simp only [reduceCtorEq, false_iff, not_and]
    omega
  · simp only [Except.ok.injEq]
    omega

theorem viewIndex_error_iff (i : Int) (e : ErrorKind) : viewIndex i = .error e ↔ i < 0 ∧ e = .badIndex := by
  unfold viewIndex
  split <;> rename_i h <;> simp [h, eq_comm]

theorem wordIndex_ok_iff (i : Int) (len n : Nat) :
    wordIndex i len = .ok n ↔ (0 ≤ i ∧ i < len) ∧ n = i.toNat := by
  unfold wordIndex
  split
  · simp only [reduceCtorEq, false_iff, not_and]
    omega
  · simp only [Except.ok.injEq]
    omega

theorem wordIndex_error_iff (i : Int) (len : Nat) (e : ErrorKind) :
    wordIndex i len = .error e ↔ (i < 0 ∨ (len : Int) ≤ i) ∧ e = .badIndex := by
  unfold wordIndex
  split <;> rename_i h
  · have h' : i < 0 ∨ (len : Int) ≤ i := by omega
    simp [h', eq_comm]
  · simp only [reduceCtorEq, false_iff, not_and]
    omega

/-- `divrem` raises nothing but `DivisionByZero`, and exactly for a zero divisor (R293). -/
theorem divrem_error_iff (a b : Value) (e : ErrorKind) :
    divrem a b = .error e ↔ b.sign = .zero ∧ e = .divisionByZero := by
  unfold divrem
  split
  · rename_i h
    simp [h, eq_comm]
  · rename_i h
    simp only [h, false_and, iff_false]
    split
    · simp
    · split
      · simp
      · split <;> simp

/-- `mod` raises nothing but `NonPositiveModulus`, and exactly for a modulus that is not positive (R294). -/
theorem modValues_error_iff (a m : Value) (e : ErrorKind) :
    modValues a m = .error e ↔ m.sign ≠ .positive ∧ e = .nonPositiveModulus := by
  unfold modValues
  split
  · rename_i h
    simp [h, eq_comm]
  · rename_i h
    rw [ne_eq, not_not] at h
    simp only [h, ne_eq, not_true, false_and, iff_false, bind_error_iff, divrem_error_iff, reduceCtorEq, false_or,
      not_exists, not_and]
    intro d _
    split <;> simp

/-- `pow` raises nothing but `NegativeExponent`, and exactly for a negative exponent (R295). -/
theorem powValue_error_iff (a : Value) (e : Int) (k : ErrorKind) :
    powValue a e = .error k ↔ e < 0 ∧ k = .negativeExponent := by
  unfold powValue
  split
  · rename_i h
    simp [h, eq_comm]
  · rename_i h
    simp only [h, false_and, iff_false]
    split
    · simp
    · split
      · simp
      · split <;> simp

end Sys2Proof.Machine
end

