-- ==== Sys2Proof/Laws/Exec.lean ====
section
/-! SUPPORT. What a command can do, said once: every command ends in one of the ways of `Ends`, or with an error that a
command may raise (00_scope.md R12; 60_exceptions.md R291, R300). -/

namespace Sys2Proof.Machine

open Sys2Proof.Claims

/-- The ways a command can end normally: which store it wrote, with the check that let it. -/
inductive Ends (i : Instr) (s : State) : State → Prop where
  | nothing (h : i = .nop) : Ends i s { s with status := statusOk .fresh .fresh }
  | emptied (d : VReg) (h : i = .free d) : Ends i s (s.freeV d)
  | value (d : VReg) (a : Value) (src : Rsrc) (h : vDests i = [d]) (hfit : fitsIn s.params.maxw a.mag = true)
      (hi : ∀ d, i ≠ .free d) : Ends i s (s.putV d a src)
  | values (q r va vb : VReg) (a b : Value) (sa sb : Rsrc) (h : i = .divrem q r va vb)
      (ha : fitsIn s.params.maxw a.mag = true) (hb : fitsIn s.params.maxw b.mag = true) :
      Ends i s { s with v := (s.v.set q.val (some a)).set r.val (some b), status := statusOk sa sb }
  | scalar (d : XReg) (z : Int) (h : xDests i = [d]) : Ends i s (s.putX d z)
  | bytes (b : List Byte) (h : storesBuf i = true) (hfit : fitsIn s.params.bufcap b = true) : Ends i s (s.putBuf b)

/-- A result that satisfies `P`, or an error that a command may raise (codes 1 to 11, R291). -/
def Sound {α : Type} (P : α → Prop) (r : Except ErrorKind α) : Prop :=
  (∀ t, r = .ok t → P t) ∧ ∀ e, r = .error e → e.code ≤ 11

theorem Sound.ok {α : Type} {P : α → Prop} {t : α} (h : P t) : Sound P (.ok t) :=
  ⟨fun _ ht => Except.ok.inj ht ▸ h, fun _ he => (nomatch he)⟩

theorem Sound.error {α : Type} {P : α → Prop} {e : ErrorKind} (h : e.code ≤ 11) : Sound P (.error e : Except ErrorKind α) :=
  ⟨fun _ ht => (nomatch ht), fun _ he => Except.error.inj he ▸ h⟩

theorem Sound.bind {α β : Type} {P : β → Prop} {m : Except ErrorKind α} {f : α → Except ErrorKind β}
    (hm : Sound (fun _ => True) m) (hf : ∀ a, Sound P (f a)) : Sound P (m >>= f) := by
  constructor
  · intro t ht
    obtain ⟨a, -, h⟩ := (bind_ok_iff m f t).1 ht
    exact (hf a).1 t h
  · intro e he
    rcases (bind_error_iff m f e).1 he with h | ⟨a, -, h⟩
    · exact hm.2 e h
    · exact (hf a).2 e h

/-- An operation whose only error is one that a command may raise. -/
theorem Sound.of_error {α : Type} {m : Except ErrorKind α} (h : ∀ e, m = .error e → e.code ≤ 11) :
    Sound (fun _ => True) m := ⟨fun _ _ => trivial, h⟩

theorem sound_readV (s : State) (i : VReg) : Sound (fun _ => True) (s.readV i) :=
  .of_error fun e h => by rw [((s.readV_error_iff i e).1 h).2]; decide

theorem sound_norm {k : Nat} (u : List (BitVec k)) : Sound (fun _ => True) (norm u) :=
  .of_error fun e h => by rw [((norm_error_iff u e).1 h).2]; decide

theorem sound_bitPosition (pos : Int) : Sound (fun _ => True) (bitPosition pos) :=
  .of_error fun e h => by rw [((bitPosition_error_iff pos e).1 h).2]; decide

theorem sound_viewIndex (i : Int) : Sound (fun _ => True) (viewIndex i) :=
  .of_error fun e h => by rw [((viewIndex_error_iff i e).1 h).2]; decide

theorem sound_wordIndex (i : Int) (n : Nat) : Sound (fun _ => True) (wordIndex i n) :=
  .of_error fun e h => by rw [((wordIndex_error_iff i n e).1 h).2]; decide

theorem sound_divrem (a b : Value) : Sound (fun _ => True) (divrem a b) :=
  .of_error fun e h => by rw [((divrem_error_iff a b e).1 h).2]; decide

theorem sound_modValues (a b : Value) : Sound (fun _ => True) (modValues a b) :=
  .of_error fun e h => by rw [((modValues_error_iff a b e).1 h).2]; decide

theorem sound_powValue (a : Value) (e : Int) : Sound (fun _ => True) (powValue a e) :=
  .of_error fun k h => by rw [((powValue_error_iff a e k).1 h).2]; decide

theorem sound_writeV {i : Instr} (s : State) (d : VReg) (r : Reported) (h : vDests i = [d]) (hi : ∀ d, i ≠ .free d) :
    Sound (Ends i s) (s.writeV d r) := by
  constructor
  · intro t ht
    obtain ⟨hfit, rfl⟩ := (s.writeV_ok_iff d r t).1 ht
    exact .value d _ _ h hfit hi
  · intro e he
    rw [((s.writeV_error_iff d r e).1 he).2]
    decide

theorem sound_writeV2 {i : Instr} (s : State) (q r va vb : VReg) (a b : Reported) (h : i = .divrem q r va vb) :
    Sound (Ends i s) (s.writeV2 q r a b) := by
  constructor
  · intro t ht
    obtain ⟨⟨ha, hb⟩, rfl⟩ := (s.writeV2_ok_iff q r a b t).1 ht
    exact .values q r va vb _ _ _ _ h ha hb
  · intro e he
    rw [((s.writeV2_error_iff q r a b e).1 he).2]
    decide

theorem sound_writeCount {i : Instr} (s : State) (d : XReg) (n : Nat) (h : xDests i = [d]) :
    Sound (Ends i s) (s.writeCount d n) := by
  constructor
  · intro t ht
    obtain ⟨-, rfl⟩ := (s.writeCount_ok_iff d n t).1 ht
    exact .scalar d _ h
  · intro e he
    rw [((s.writeCount_error_iff d n e).1 he).2]
    decide

theorem sound_writeBuf {i : Instr} (s : State) (b : List Byte) (h : storesBuf i = true) :
    Sound (Ends i s) (s.writeBuf b) := by
  constructor
  · intro t ht
    obtain ⟨hfit, rfl⟩ := (s.writeBuf_ok_iff b t).1 ht
    exact .bytes b h hfit
  · intro e he
    rw [((s.writeBuf_error_iff b e).1 he).2]
    decide

/-- Every command is the end of a sound result. -/
theorem exec_sound (i : Instr) (s : State) : ∃ r, exec i s = finish i s r ∧ Sound (Ends i s) r := by
  cases i
  case nop => exact ⟨_, Eq.refl (finish .nop s (.ok _)), .ok (.nothing rfl)⟩
  case free d => exact ⟨_, Eq.refl (finish (.free d) s (.ok _)), .ok (.emptied d rfl)⟩
  case xli d imm => exact ⟨_, Eq.refl (finish (.xli d imm) s (.ok _)), .ok (.scalar d _ rfl)⟩
  all_goals
    refine ⟨_, rfl, ?_⟩
    repeat' with_reducible_and_instances first
      | refine Sound.bind (sound_readV _ _) fun _ => ?_
      | refine Sound.bind (sound_norm _) fun _ => ?_
      | refine Sound.bind (sound_bitPosition _) fun _ => ?_
      | refine Sound.bind (sound_viewIndex _) fun _ => ?_
      | refine Sound.bind (sound_wordIndex _ _) fun _ => ?_
      | refine Sound.bind (sound_divrem _ _) fun _ => ?_
      | refine Sound.bind (sound_modValues _ _) fun _ => ?_
      | refine Sound.bind (sound_powValue _ _) fun _ => ?_
      | split
      | dsimp only
    all_goals first
      | exact sound_writeV _ _ _ rfl (by simp)
      | exact sound_writeV2 _ _ _ _ _ _ _ rfl
      | exact sound_writeCount _ _ _ rfl
      | exact sound_writeBuf _ _ rfl
      | exact Sound.ok (.scalar _ _ rfl)
      | exact Sound.error (by decide)

/-- What a command can do: it ends normally in one of the ways of `Ends`, or with the error entry of a code 1 to 11. -/
theorem exec_cases {i : Instr} {s t : State} (h : exec i s = .next t) :
    Ends i s t ∨ ∃ e : ErrorKind, e.code ≤ 11 ∧ t = s.raise e (encode i) := by
  obtain ⟨r, hr, hok, herr⟩ := exec_sound i s
  rw [hr, finish_next_iff] at h
  rcases h with h | ⟨e, h, rfl⟩
  · exact .inl (hok t h)
  · exact .inr ⟨e, herr e h, rfl⟩

end Sys2Proof.Machine
end

