-- ==== Sys2Proof/Laws/Export.lean ====
section
/-! SUPPORT. The lengths of the exported byte strings (47_export.md R250, R252). -/

namespace Sys2Proof.Machine

@[simp] theorem length_bytesOf (a : Value) : (bytesOf a).length = bitlen a / 8 + 1 := by
  simp [bytesOf]

theorem bytesOf_ne_nil (a : Value) : bytesOf a ≠ [] :=
  List.ne_nil_of_length_pos (by simp)

theorem length_paddedBytes {a : Value} {n : Nat} (h : (bytesOf a).length ≤ n) : (paddedBytes a n).length = n := by
  simp only [paddedBytes, List.length_append, List.length_replicate]
  omega

/-- With the shortest size there is nothing to pad. -/
theorem paddedBytes_length_bytesOf (a : Value) : paddedBytes a (bytesOf a).length = bytesOf a := by
  simp [paddedBytes]

end Sys2Proof.Machine
end

