-- ==== Sys2Proof/Laws/PerInstr.lean ====
section
/-! SUPPORT. The family `OpcodeField`: the command word of every constructor carries the opcode of its row in bits 31:24
(30_encoding.md R91, R92, R96). -/

namespace Sys2Proof.Laws.OpcodeField

/-- The opcode of a constructor's row in R96. -/
def opcode : Instr → Nat
  | .nop => 0x00
  | .const .. => 0x01
  | .mov .. => 0x02
  | .free .. => 0x03
  | .xli .. => 0x04
  | .frombytes .. => 0x10
  | .fromwords .. => 0x11
  | .fromint64 .. => 0x12
  | .cmp .. => 0x20
  | .min .. => 0x21
  | .max .. => 0x22
  | .add .. => 0x30
  | .sub .. => 0x31
  | .neg .. => 0x32
  | .abs .. => 0x33
  | .mul .. => 0x40
  | .divrem .. => 0x50
  | .div .. => 0x51
  | .rem .. => 0x52
  | .mod .. => 0x53
  | .pow .. => 0x60
  | .and .. => 0x70
  | .or .. => 0x71
  | .xor .. => 0x72
  | .andnot .. => 0x73
  | .not .. => 0x74
  | .testbit .. => 0x75
  | .setbit .. => 0x76
  | .clrbit .. => 0x77
  | .flipbit .. => 0x78
  | .shl .. => 0x79
  | .shr .. => 0x7A
  | .tobytes .. => 0x80
  | .tozfbytes .. => 0x81
  | .bitlen .. => 0x82
  | .bitcnt .. => 0x83
  | .maglen .. => 0x90
  | .signum .. => 0x91
  | .magwf .. => 0x92
  | .magwr .. => 0x93
  | .wordat .. => 0x94

/-- The word of `i` has the opcode of its row in bits 31:24. -/
def Statement (i : Instr) : Prop := opField (encode i) = opcode i

theorem opField_encodeR (op : Nat) (hop : op < 256) (rd ra rb rd2 : Fin 16) : opField (encodeR op rd ra rb rd2) = op := by
  have h1 := rd.isLt
  have h2 := ra.isLt
  have h3 := rb.isLt
  have h4 := rd2.isLt
  simp only [opField, slice, encodeR, BitVec.toNat_ofNat]
  omega

theorem opField_encodeI (op : Nat) (hop : op < 256) (rd : Fin 16) (imm : BitVec 16) : opField (encodeI op rd imm) = op := by
  have h1 := rd.isLt
  have h2 := imm.isLt
  simp only [opField, slice, encodeI, BitVec.toNat_ofNat]
  omega

theorem nop : Statement .nop := opField_encodeR _ (by decide) _ _ _ _
theorem const (vd : VReg) (k : BitVec 16) : Statement (.const vd k) := opField_encodeI _ (by decide) _ _
theorem mov (vd : VReg) (va : VReg) : Statement (.mov vd va) := opField_encodeR _ (by decide) _ _ _ _
theorem free (vd : VReg) : Statement (.free vd) := opField_encodeR _ (by decide) _ _ _ _
theorem xli (xd : XReg) (imm : BitVec 16) : Statement (.xli xd imm) := opField_encodeI _ (by decide) _ _
theorem frombytes (vd : VReg) : Statement (.frombytes vd) := opField_encodeR _ (by decide) _ _ _ _
theorem fromwords (vd : VReg) : Statement (.fromwords vd) := opField_encodeR _ (by decide) _ _ _ _
theorem fromint64 (vd : VReg) (xa : XReg) : Statement (.fromint64 vd xa) := opField_encodeR _ (by decide) _ _ _ _
theorem cmp (xd : XReg) (va : VReg) (vb : VReg) : Statement (.cmp xd va vb) := opField_encodeR _ (by decide) _ _ _ _
theorem min (vd : VReg) (va : VReg) (vb : VReg) : Statement (.min vd va vb) := opField_encodeR _ (by decide) _ _ _ _
theorem max (vd : VReg) (va : VReg) (vb : VReg) : Statement (.max vd va vb) := opField_encodeR _ (by decide) _ _ _ _
theorem add (vd : VReg) (va : VReg) (vb : VReg) : Statement (.add vd va vb) := opField_encodeR _ (by decide) _ _ _ _
theorem sub (vd : VReg) (va : VReg) (vb : VReg) : Statement (.sub vd va vb) := opField_encodeR _ (by decide) _ _ _ _
theorem neg (vd : VReg) (va : VReg) : Statement (.neg vd va) := opField_encodeR _ (by decide) _ _ _ _
theorem abs (vd : VReg) (va : VReg) : Statement (.abs vd va) := opField_encodeR _ (by decide) _ _ _ _
theorem mul (vd : VReg) (va : VReg) (vb : VReg) : Statement (.mul vd va vb) := opField_encodeR _ (by decide) _ _ _ _
theorem divrem (vq : VReg) (vr : VReg) (va : VReg) (vb : VReg) : Statement (.divrem vq vr va vb) := opField_encodeR _ (by decide) _ _ _ _
theorem div (vd : VReg) (va : VReg) (vb : VReg) : Statement (.div vd va vb) := opField_encodeR _ (by decide) _ _ _ _
theorem rem (vd : VReg) (va : VReg) (vb : VReg) : Statement (.rem vd va vb) := opField_encodeR _ (by decide) _ _ _ _
theorem mod (vd : VReg) (va : VReg) (vb : VReg) : Statement (.mod vd va vb) := opField_encodeR _ (by decide) _ _ _ _
theorem pow (vd : VReg) (va : VReg) (xb : XReg) : Statement (.pow vd va xb) := opField_encodeR _ (by decide) _ _ _ _
theorem and (vd : VReg) (va : VReg) (vb : VReg) : Statement (.and vd va vb) := opField_encodeR _ (by decide) _ _ _ _
theorem or (vd : VReg) (va : VReg) (vb : VReg) : Statement (.or vd va vb) := opField_encodeR _ (by decide) _ _ _ _
theorem xor (vd : VReg) (va : VReg) (vb : VReg) : Statement (.xor vd va vb) := opField_encodeR _ (by decide) _ _ _ _
theorem andnot (vd : VReg) (va : VReg) (vb : VReg) : Statement (.andnot vd va vb) := opField_encodeR _ (by decide) _ _ _ _
theorem not (vd : VReg) (va : VReg) : Statement (.not vd va) := opField_encodeR _ (by decide) _ _ _ _
theorem testbit (xd : XReg) (va : VReg) (xb : XReg) : Statement (.testbit xd va xb) := opField_encodeR _ (by decide) _ _ _ _
theorem setbit (vd : VReg) (va : VReg) (xb : XReg) : Statement (.setbit vd va xb) := opField_encodeR _ (by decide) _ _ _ _
theorem clrbit (vd : VReg) (va : VReg) (xb : XReg) : Statement (.clrbit vd va xb) := opField_encodeR _ (by decide) _ _ _ _
theorem flipbit (vd : VReg) (va : VReg) (xb : XReg) : Statement (.flipbit vd va xb) := opField_encodeR _ (by decide) _ _ _ _
theorem shl (vd : VReg) (va : VReg) (xb : XReg) : Statement (.shl vd va xb) := opField_encodeR _ (by decide) _ _ _ _
theorem shr (vd : VReg) (va : VReg) (xb : XReg) : Statement (.shr vd va xb) := opField_encodeR _ (by decide) _ _ _ _
theorem tobytes (va : VReg) : Statement (.tobytes va) := opField_encodeR _ (by decide) _ _ _ _
theorem tozfbytes (va : VReg) (xb : XReg) : Statement (.tozfbytes va xb) := opField_encodeR _ (by decide) _ _ _ _
theorem bitlen (xd : XReg) (va : VReg) : Statement (.bitlen xd va) := opField_encodeR _ (by decide) _ _ _ _
theorem bitcnt (xd : XReg) (va : VReg) : Statement (.bitcnt xd va) := opField_encodeR _ (by decide) _ _ _ _
theorem maglen (xd : XReg) (va : VReg) : Statement (.maglen xd va) := opField_encodeR _ (by decide) _ _ _ _
theorem signum (xd : XReg) (va : VReg) : Statement (.signum xd va) := opField_encodeR _ (by decide) _ _ _ _
theorem magwf (xd : XReg) (va : VReg) (xb : XReg) : Statement (.magwf xd va xb) := opField_encodeR _ (by decide) _ _ _ _
theorem magwr (xd : XReg) (va : VReg) (xb : XReg) : Statement (.magwr xd va xb) := opField_encodeR _ (by decide) _ _ _ _
theorem wordat (xd : XReg) (va : VReg) (xb : XReg) : Statement (.wordat xd va xb) := opField_encodeR _ (by decide) _ _ _ _

end Sys2Proof.Laws.OpcodeField
end

