-- ==== Sys2Proof/Laws/Shift.lean ====
section
/-! SUPPORT. What the magnitude shifters compute: `shlmag`, `shrmag` (46_bitwise.md R224, R225). -/

namespace Sys2Proof.Machine

/-! ### Left -/

/-- One word of the left shift: what stays in the word and what is carried out of it. -/
theorem shl_word (bq p carry : Nat) (hb : bq ≤ 32) (hc : carry < 2 ^ bq) :
    (p * 2 ^ bq + carry) % wordBase + wordBase * (p / 2 ^ (32 - bq)) = p * 2 ^ bq + carry := by
  have hB : wordBase = 2 ^ (32 - bq) * 2 ^ bq := by
    rw [← Nat.pow_add, Nat.sub_add_cancel hb]
  have hdiv : (p * 2 ^ bq + carry) / wordBase = p / 2 ^ (32 - bq) := by
    rw [hB, Nat.mul_comm (2 ^ (32 - bq)), ← Nat.div_div_eq_div_mul, Nat.mul_comm p,
      Nat.mul_add_div (Nat.two_pow_pos bq), Nat.div_eq_of_lt hc, Nat.add_zero]
  rw [← hdiv]
  exact Nat.mod_add_div _ _

theorem leNat_shlBits (bq : Nat) (ps : List Word) (carry : Nat) (hb : bq ≤ 32) (hc : carry < 2 ^ bq) :
    leNat (shlBits bq ps carry).1 + wordBase ^ ps.length * (shlBits bq ps carry).2 = leNat ps * 2 ^ bq + carry ∧
    (shlBits bq ps carry).1.length = ps.length ∧ (shlBits bq ps carry).2 < 2 ^ bq := by
  induction ps generalizing carry with
  | nil => exact ⟨by simp [shlBits, leNat], rfl, hc⟩
  | cons p ps ih =>
    have hcarry : p.toNat / 2 ^ (32 - bq) < 2 ^ bq := by
      rw [Nat.div_lt_iff_lt_mul (Nat.two_pow_pos _), ← Nat.pow_add, Nat.add_sub_cancel' hb]
      exact p.isLt
    obtain ⟨h1, h2, h3⟩ := ih _ hcarry
    have hw := shl_word bq p.toNat carry hb hc
    refine ⟨?_, by simp [shlBits, h2], h3⟩
    simp only [shlBits, leNat, toNat_ofNat_word, List.length_cons, Nat.pow_succ]
    linear_combination hw + wordBase * h1

/-- `shlmag` gives the magnitude times a power of two (R224). -/
theorem magNat_shlmag (p : List Word) (n : Nat) : magNat (shlmag p n) = magNat p * 2 ^ n := by
  have hpow : (2 : Nat) ^ n = 2 ^ (n % 32) * wordBase ^ (n / 32) := by
    have h : wordBase ^ (n / 32) = 2 ^ (32 * (n / 32)) := by rw [Nat.pow_mul]
    rw [h, ← Nat.pow_add]
    congr 1
    omega
  have hzeros : ∀ ws : List Word, magNat (ws ++ List.replicate (n / 32) 0#32) = magNat ws * wordBase ^ (n / 32) := by
    intro ws
    rw [magNat_append, magNat_replicate_zero, List.length_replicate, Nat.add_zero]
  by_cases h0 : n % 32 = 0
  · have hs : shlmag p n = p ++ List.replicate (n / 32) 0#32 := by simp [shlmag, h0]
    rw [hs, hzeros, hpow, h0, Nat.pow_zero, Nat.one_mul]
  · obtain ⟨h1, h2, h3⟩ := leNat_shlBits (n % 32) p.reverse 0 (by omega) (Nat.two_pow_pos _)
    have hs : shlmag p n = ((if (shlBits (n % 32) p.reverse 0).2 ≠ 0 then
        [BitVec.ofNat 32 (shlBits (n % 32) p.reverse 0).2] else []) ++
        (shlBits (n % 32) p.reverse 0).1.reverse) ++ List.replicate (n / 32) 0#32 := by simp [shlmag, h0]
    have htop : (shlBits (n % 32) p.reverse 0).2 % wordBase = (shlBits (n % 32) p.reverse 0).2 := by
      apply Nat.mod_eq_of_lt
      calc (shlBits (n % 32) p.reverse 0).2 < 2 ^ (n % 32) := h3
        _ ≤ 2 ^ 32 := Nat.pow_le_pow_right (by norm_num) (by omega)
    have hm : magNat (if (shlBits (n % 32) p.reverse 0).2 ≠ 0 then
        [BitVec.ofNat 32 (shlBits (n % 32) p.reverse 0).2] else []) = (shlBits (n % 32) p.reverse 0).2 := by
      split
      · simp only [magNat_cons, magNat_nil, List.length_nil, Nat.pow_zero, toNat_ofNat_word, htop]
        omega
      · rename_i h
        rw [magNat_nil]
        exact (not_not.1 h).symm
    rw [hs, hzeros, magNat_append, hm, magNat_reverse, List.length_reverse, h2, hpow]
    rw [leNat_reverse, List.length_reverse] at h1
    rw [List.length_reverse]
    linear_combination wordBase ^ (n / 32) * h1

theorem shlmag_noLeadingZero {p : List Word} (hp : NoLeadingZero p) (hne : p ≠ []) (n : Nat) :
    NoLeadingZero (shlmag p n) := by
  obtain ⟨w, ws, rfl⟩ := List.exists_cons_of_ne_nil hne
  by_cases h0 : n % 32 = 0
  · have hs : shlmag (w :: ws) n = (w :: ws) ++ List.replicate (n / 32) 0#32 := by simp [shlmag, h0]
    rw [hs]
    exact hp
  · obtain ⟨h1, h2, h3⟩ := leNat_shlBits (n % 32) (w :: ws).reverse 0 (by omega) (Nat.two_pow_pos _)
    have hbig := pow_le_magNat hp
    rw [leNat_reverse, List.length_reverse] at h1
    rw [List.length_reverse] at h2
    have hs : shlmag (w :: ws) n = ((if (shlBits (n % 32) (w :: ws).reverse 0).2 ≠ 0 then
        [BitVec.ofNat 32 (shlBits (n % 32) (w :: ws).reverse 0).2] else []) ++
        (shlBits (n % 32) (w :: ws).reverse 0).1.reverse) ++ List.replicate (n / 32) 0#32 := by simp [shlmag, h0]
    rw [hs]
    generalize shlBits (n % 32) (w :: ws).reverse 0 = r at *
    obtain ⟨us, top⟩ := r
    have hlt : top < wordBase := by
      calc top < 2 ^ (n % 32) := h3
        _ ≤ 2 ^ 32 := Nat.pow_le_pow_right (by norm_num) (by omega)
    by_cases ht : top = 0
    · subst ht
      have hle : wordBase ^ ws.length ≤ magNat us.reverse := by
        rw [magNat_reverse]
        have := Nat.le_mul_of_pos_right (magNat (w :: ws)) (Nat.two_pow_pos (n % 32))
        simp only [Nat.mul_zero] at h1
        omega
      obtain ⟨u, us', hu⟩ : ∃ u us', us.reverse = u :: us' := by
        apply List.exists_cons_of_ne_nil
        intro hnil
        rw [hnil, magNat_nil] at hle
        have := Nat.pow_pos (n := ws.length) wordBase_pos
        omega
      have hl : us'.length = ws.length := by
        have := congrArg List.length hu
        simp [h2] at this
        omega
      rw [hu] at hle
      have hne0 : u ≠ 0#32 := by
        rintro rfl
        have := magNat_lt us'
        simp [magNat_cons, hl] at hle this
        omega
      simpa [NoLeadingZero, hu] using hne0
    · have : BitVec.ofNat 32 top ≠ 0#32 := by
        intro h
        have h := congrArg BitVec.toNat h
        rw [toNat_ofNat_word, Nat.mod_eq_of_lt hlt] at h
        exact ht h
      simpa [NoLeadingZero, ht] using this

/-! ### Right -/

theorem magNat_shrBits (bq : Nat) (ps : List Word) (carry : Nat) (hb : bq ≤ 32) (hc : carry < 2 ^ bq) :
    magNat (shrBits bq ps carry).1 * 2 ^ bq + (shrBits bq ps carry).2 = carry * wordBase ^ ps.length + magNat ps ∧
    (shrBits bq ps carry).1.length = ps.length ∧ (shrBits bq ps carry).2 < 2 ^ bq := by
  induction ps generalizing carry with
  | nil => exact ⟨by simp [shrBits], rfl, hc⟩
  | cons p ps ih =>
    obtain ⟨h1, h2, h3⟩ := ih (p.toNat % 2 ^ bq) (Nat.mod_lt _ (Nat.two_pow_pos _))
    refine ⟨?_, by simp [shrBits, h2], h3⟩
    have hB : wordBase = 2 ^ (32 - bq) * 2 ^ bq := by rw [← Nat.pow_add, Nat.sub_add_cancel hb]
    have hp : p.toNat / 2 ^ bq < 2 ^ (32 - bq) := by
      rw [Nat.div_lt_iff_lt_mul (Nat.two_pow_pos _), ← hB]
      exact p.isLt
    have hw : (carry * 2 ^ (32 - bq) + p.toNat / 2 ^ bq) % wordBase = carry * 2 ^ (32 - bq) + p.toNat / 2 ^ bq := by
      apply Nat.mod_eq_of_lt
      calc carry * 2 ^ (32 - bq) + p.toNat / 2 ^ bq < carry * 2 ^ (32 - bq) + 2 ^ (32 - bq) := by omega
        _ = (carry + 1) * 2 ^ (32 - bq) := by ring
        _ ≤ 2 ^ bq * 2 ^ (32 - bq) := Nat.mul_le_mul_right _ hc
        _ = wordBase := by rw [hB, Nat.mul_comm]
    have hmod := Nat.mod_add_div p.toNat (2 ^ bq)
    have hcB : carry * wordBase = carry * 2 ^ (32 - bq) * 2 ^ bq := by rw [hB, Nat.mul_assoc]
    simp only [shrBits, magNat_cons, toNat_ofNat_word, hw, h2, List.length_cons, Nat.pow_succ]
    linear_combination h1 + wordBase ^ ps.length * (hmod - hcB)

theorem any_ne_zero_iff (ws : List Word) : ws.any (· != 0#32) = true ↔ magNat ws ≠ 0 := by
  induction ws with
  | nil => simp
  | cons w ws ih =>
    have hpos : 0 < wordBase ^ ws.length := Nat.pow_pos wordBase_pos
    have hw : w = 0#32 ↔ w.toNat = 0 := ⟨fun h => by simp [h], fun h => BitVec.eq_of_toNat_eq (by simpa using h)⟩
    rw [List.any_cons, Bool.or_eq_true, ih, bne_iff_ne, magNat_cons, ne_eq, hw]
    constructor
    · rintro (h | h) h'
      · rcases Nat.add_eq_zero_iff.1 h' with ⟨h1, _⟩
        rcases Nat.mul_eq_zero.1 h1 with h1 | h1
        · exact h h1
        · omega
      · omega
    · intro h
      by_cases h0 : w.toNat = 0
      · right
        rw [h0] at h
        simpa using h
      · exact Or.inl h0

/-- `shrmag` gives the floor of the magnitude over a power of two, and whether a 1 bit was lost (R225). -/
theorem shrmag_spec (p : List Word) (n : Nat) :
    magNat (shrmag p n).1 = magNat p / 2 ^ n ∧ ((shrmag p n).2 = true ↔ magNat p % 2 ^ n ≠ 0) ∧
    NoLeadingZero (shrmag p n).1 := by
  refine ⟨?_, ?_, stripZeros_noLeadingZero _⟩ <;>
  · obtain ⟨h1, -, h3⟩ := magNat_shrBits (n % 32) (p.take (p.length - n / 32)) 0 (by omega) (Nat.two_pow_pos _)
    have hsplit := magNat_append (p.take (p.length - n / 32)) (p.drop (p.length - n / 32))
    rw [List.take_append_drop] at hsplit
    have hlow := magNat_lt (p.drop (p.length - n / 32))
    have hany := any_ne_zero_iff (p.drop (p.length - n / 32))
    have hp0 : shrmag p n = (stripZeros (shrBits (n % 32) (p.take (p.length - n / 32)) 0).1,
      (p.drop (p.length - n / 32)).any (· != 0#32) ||
        (shrBits (n % 32) (p.take (p.length - n / 32)) 0).2 != 0) := rfl
    rw [hp0]
    simp only [magNat_stripZeros, Bool.or_eq_true, hany, bne_iff_ne, ne_eq]
    generalize hr : shrBits (n % 32) (p.take (p.length - n / 32)) 0 = r at *
    obtain ⟨ws, out⟩ := r
    simp only [Nat.zero_mul, Nat.zero_add] at h1 h3
    rw [hsplit, ← h1]
    simp only [List.length_drop] at *
    rcases Nat.le_total (n / 32) p.length with hle | hle
    · have hl : p.length - (p.length - n / 32) = n / 32 := by omega
      rw [hl] at hlow ⊢
      have hpow : (2 : Nat) ^ n = wordBase ^ (n / 32) * 2 ^ (n % 32) := by
        have h : wordBase ^ (n / 32) = 2 ^ (32 * (n / 32)) := by rw [Nat.pow_mul]
        rw [h, ← Nat.pow_add]
        congr 1
        omega
      have hform : (magNat ws * 2 ^ (n % 32) + out) * wordBase ^ (n / 32) +
            magNat (p.drop (p.length - n / 32)) =
          (out * wordBase ^ (n / 32) + magNat (p.drop (p.length - n / 32))) + 2 ^ n * magNat ws := by
        rw [hpow]
        ring
      have hlt : out * wordBase ^ (n / 32) + magNat (p.drop (p.length - n / 32)) < 2 ^ n := by
        calc out * wordBase ^ (n / 32) + magNat (p.drop (p.length - n / 32))
            < out * wordBase ^ (n / 32) + wordBase ^ (n / 32) := by omega
          _ = (out + 1) * wordBase ^ (n / 32) := by ring
          _ ≤ 2 ^ (n % 32) * wordBase ^ (n / 32) := Nat.mul_le_mul_right _ h3
          _ = 2 ^ n := by rw [hpow, Nat.mul_comm]
      have hpos : 0 < wordBase ^ (n / 32) := Nat.pow_pos wordBase_pos
      rw [hform]
      first
        | rw [Nat.add_mul_div_left _ _ (Nat.two_pow_pos n), Nat.div_eq_of_lt hlt, Nat.zero_add]
        | rw [Nat.add_mul_mod_self_left, Nat.mod_eq_of_lt hlt, Nat.add_eq_zero_iff, Nat.mul_eq_zero]
          constructor
          · rintro (h | h) ⟨h', h''⟩
            · exact h h''
            · omega
          · intro h
            by_cases ho : out = 0
            · left
              intro hm
              exact h ⟨Or.inl ho, hm⟩
            · exact Or.inr ho
    · have hk : p.length - n / 32 = 0 := by omega
      simp only [hk, List.take_zero, shrBits, Prod.mk.injEq] at hr
      obtain ⟨rfl, rfl⟩ := hr
      have hlt : magNat p < 2 ^ n := by
        calc magNat p < wordBase ^ p.length := magNat_lt p
          _ = 2 ^ (32 * p.length) := by rw [Nat.pow_mul]
          _ ≤ 2 ^ n := Nat.pow_le_pow_right (by norm_num) (by omega)
      simp [hk, Nat.div_eq_of_lt hlt, Nat.mod_eq_of_lt hlt]

end Sys2Proof.Machine
end

