-- ==== Sys2Proof/Tests/Slice0.lean ====
section
/-! SUPPORT. Small tests: expected results are the spec's own (30_encoding.md R101, the worked examples and corner cases
of the instruction rules, 95_test_vectors.md); and for every statement with hypotheses a witness that meets them. -/

namespace Sys2Proof.Tests

open Sys2Proof Sys2Proof.Machine Sys2Proof.Claims

/-! ## Small states, as 95_test_vectors.md sets them up -/

/-- `(POSITIVE, words)`. -/
abbrev pos (words : List Word) : Value := { sign := .positive, mag := words }

/-- `(NEGATIVE, words)`. -/
abbrev neg (words : List Word) : Value := { sign := .negative, mag := words }

/-- `(ZERO, [])`. -/
abbrev nil : Value := { sign := .zero, mag := [] }

/-- The reset state with `V[1] = a`, `V[2] = b`, `X[1] = n`. -/
def st (a b : Value) (n : Int) : State :=
  { State.reset with
    v := (State.reset.v.set 1 (some a)).set 2 (some b)
    x := State.reset.x.set 1 (BitVec.ofInt 64 n) }

/-- The same with `MAXW = 2` and `BUFCAP = 9`. -/
def small (a b : Value) (n : Int) : State := { st a b n with params := { maxw := some 2, bufcap := some 9 } }

/-- The reset state with bytes in the buffer. -/
def withBuf (bytes : List Byte) : State := { State.reset with buf := bytes }

/-- The next state of an outcome; every outcome of this machine is one. -/
def nextOr (s : State) : Host.Outcome State Fault Refusal → State
  | .next t => t
  | _ => s

/-- The state after the host writes the word `c` to `CMD`. -/
def cmd (c : Word) (s : State) : State := nextOr s (serve (.write 32 0x00 c) s)

/-- The state after `exec`. -/
def after (i : Instr) (s : State) : State := nextOr s (exec i s)

/-! ## WellFormed: each check refuses an ill-formed term -/

theorem test_const_number_four_ill_formed : (Instr.const 0 4).wellFormed = false ∧ (Instr.const 0 3).wellFormed = true := by
  decide
theorem test_divrem_same_destination_ill_formed :
    (Instr.divrem 4 4 1 2).wellFormed = false ∧ (Instr.divrem 4 5 1 2).wellFormed = true := by decide

/-! ## Decoding: words written field by field from R91, R92 and R96 (op, rd = 13, ra = 10, rb = 11, rd2 = 12) -/

theorem test_decode_housekeeping :
    decode 0x00000000 = .ok .nop ∧
    decode 0x01D00002 = .ok (.const 13 2) ∧
    decode 0x02DA0000 = .ok (.mov 13 10) ∧
    decode 0x03D00000 = .ok (.free 13) ∧
    decode 0x04D08001 = .ok (.xli 13 0x8001) := by
  decide
theorem test_decode_construct :
    decode 0x10D00000 = .ok (.frombytes 13) ∧
    decode 0x11D00000 = .ok (.fromwords 13) ∧
    decode 0x12DA0000 = .ok (.fromint64 13 10) := by
  decide
theorem test_decode_compare :
    decode 0x20DAB000 = .ok (.cmp 13 10 11) ∧
    decode 0x21DAB000 = .ok (.min 13 10 11) ∧
    decode 0x22DAB000 = .ok (.max 13 10 11) := by
  decide
theorem test_decode_additive :
    decode 0x30DAB000 = .ok (.add 13 10 11) ∧
    decode 0x31DAB000 = .ok (.sub 13 10 11) ∧
    decode 0x32DA0000 = .ok (.neg 13 10) ∧
    decode 0x33DA0000 = .ok (.abs 13 10) := by
  decide
theorem test_decode_multiply_divide_pow :
    decode 0x40DAB000 = .ok (.mul 13 10 11) ∧
    decode 0x50DABC00 = .ok (.divrem 13 12 10 11) ∧
    decode 0x51DAB000 = .ok (.div 13 10 11) ∧
    decode 0x52DAB000 = .ok (.rem 13 10 11) ∧
    decode 0x53DAB000 = .ok (.mod 13 10 11) ∧
    decode 0x60DAB000 = .ok (.pow 13 10 11) := by
  decide
theorem test_decode_bitwise :
    decode 0x70DAB000 = .ok (.and 13 10 11) ∧
    decode 0x71DAB000 = .ok (.or 13 10 11) ∧
    decode 0x72DAB000 = .ok (.xor 13 10 11) ∧
    decode 0x73DAB000 = .ok (.andnot 13 10 11) ∧
    decode 0x74DA0000 = .ok (.not 13 10) ∧
    decode 0x75DAB000 = .ok (.testbit 13 10 11) ∧
    decode 0x76DAB000 = .ok (.setbit 13 10 11) ∧
    decode 0x77DAB000 = .ok (.clrbit 13 10 11) ∧
    decode 0x78DAB000 = .ok (.flipbit 13 10 11) ∧
    decode 0x79DAB000 = .ok (.shl 13 10 11) ∧
    decode 0x7ADAB000 = .ok (.shr 13 10 11) := by
  decide
theorem test_decode_export :
    decode 0x800A0000 = .ok (.tobytes 10) ∧
    decode 0x810AB000 = .ok (.tozfbytes 10 11) ∧
    decode 0x82DA0000 = .ok (.bitlen 13 10) ∧
    decode 0x83DA0000 = .ok (.bitcnt 13 10) := by
  decide
theorem test_decode_accessor :
    decode 0x90DA0000 = .ok (.maglen 13 10) ∧
    decode 0x91DA0000 = .ok (.signum 13 10) ∧
    decode 0x92DAB000 = .ok (.magwf 13 10 11) ∧
    decode 0x93DAB000 = .ok (.magwr 13 10 11) ∧
    decode 0x94DAB000 = .ok (.wordat 13 10 11) := by
  decide
theorem test_decode_reserved_bits : decode 0x01000004 = .error .reservedBit ∧ decode 0x800A0001 = .error .reservedBit ∧
    decode 0x80100000 = .error .reservedBit ∧ decode 0x02001000 = .error .reservedBit ∧
    decode 0x04010000 = .error .reservedBit ∧ decode 0x00000001 = .error .reservedBit := by
  decide
theorem test_decode_unknown_opcodes : decode 0x7B000000 = .error .unknownOpcode ∧ decode 0xFF000000 = .error .unknownOpcode ∧
    decode 0x95000000 = .error .unknownOpcode := by
  decide
theorem test_decode_table_word : decodeTableWord 32 0x30312000 = some (.add 3 1 2) ∧ decodeTableWord 32 0x05000000 = none := by
  decide

/-! ## One step per test -/

theorem test_nop_clears_status :
    cmd 0x00000000 { afterError State.reset 2 0x51312000 with brp := 0 } =
      { afterError State.reset 2 0x51312000 with status := 0 } := by
  decide
theorem test_const_minus_one :
    (cmd 0x01000003 State.reset).vReg 0 = some (neg [1]) ∧ (cmd 0x01000003 State.reset).status = 0x300 := by
  decide
theorem test_mov :
    (cmd 0x02310000 (st (pos [5]) nil 0)).vReg 3 = some (pos [5]) ∧ (cmd 0x02310000 (st (pos [5]) nil 0)).status = 0x100 := by
  decide
theorem test_mov_empty :
    cmd 0x02340000 (st (pos [5]) nil 0) = afterError (st (pos [5]) nil 0) 8 0x02340000 := by
  decide
theorem test_free :
    (cmd 0x03200000 (st nil nil 0)).vReg 2 = none ∧ (cmd 0x03200000 (st nil nil 0)).vReg 1 = some nil := by
  decide
theorem test_xli_sign_extends :
    (cmd 0x0420FFFF State.reset).xReg 2 = 0xFFFFFFFFFFFFFFFF ∧ (cmd 0x0410000A State.reset).readX 1 = 10 := by
  decide
theorem test_frombytes_step_d :
    (cmd 0x10300000 (withBuf [0xFF, 0, 0, 0, 0])).vReg 3 = some (neg [1, 0]) ∧ (cmd 0x10300000 (withBuf [0xFF, 0, 0, 0, 0])).status = 0 := by
  decide
theorem test_frombytes_negative :
    (cmd 0x10300000 (withBuf [0xFE, 0xDC, 0xBA, 0x98, 0x76, 0x54])).vReg 3 = some (neg [0x123, 0x456789AC]) ∧ (cmd 0x10300000 (withBuf [0xFE, 0xDC, 0xBA, 0x98, 0x76, 0x54])).status = 0 := by
  decide
theorem test_fromwords_step_d :
    (cmd 0x11300000 (withBuf [0xFF, 0xFF, 0xFF, 0xFF, 0, 0, 0, 0])).vReg 3 = some (neg [1, 0]) ∧ (cmd 0x11300000 (withBuf [0xFF, 0xFF, 0xFF, 0xFF, 0, 0, 0, 0])).status = 0 := by
  decide
theorem test_fromwords_bad_length :
    cmd 0x11300000 (withBuf [0, 0, 0, 0, 0]) = afterError (withBuf [0, 0, 0, 0, 0]) 11 0x11300000 := by
  decide
theorem test_fromint64_least :
    (cmd 0x12310000 (st nil nil (-9223372036854775808))).vReg 3 = some (neg [0x80000000, 0]) ∧ (cmd 0x12310000 (st nil nil (-9223372036854775808))).status = 0 := by
  decide
theorem test_cmp_negatives :
    (cmd 0x20312000 (st (neg [1, 0]) (neg [0xFFFFFFFF]) 0)).readX 3 = (-1) ∧ (cmd 0x20312000 (st (neg [1, 0]) (neg [0xFFFFFFFF]) 0)).status = 0 := by
  decide
theorem test_cmp_mixed_signs :
    (cmd 0x20312000 (st (pos [1, 0]) (neg [1, 0, 0]) 0)).readX 3 = 1 ∧ (cmd 0x20312000 (st (pos [1, 0]) (neg [1, 0, 0]) 0)).status = 0 := by
  decide
theorem test_min_negatives :
    (cmd 0x21312000 (st (neg [3]) (neg [5]) 0)).vReg 3 = some (neg [5]) ∧ (cmd 0x21312000 (st (neg [3]) (neg [5]) 0)).status = 0x200 := by
  decide
theorem test_max_tie_is_a :
    (cmd 0x22312000 (st (neg [7]) (neg [7]) 0)).vReg 3 = some (neg [7]) ∧ (cmd 0x22312000 (st (neg [7]) (neg [7]) 0)).status = 0x100 := by
  decide
theorem test_add_carry_word :
    (cmd 0x30312000 (st (pos [0xFFFFFFFF]) (pos [1]) 0)).vReg 3 = some (pos [1, 0]) ∧ (cmd 0x30312000 (st (pos [0xFFFFFFFF]) (pos [1]) 0)).status = 0 := by
  decide
theorem test_add_zeros_same_b :
    (cmd 0x30312000 (st nil nil 0)).vReg 3 = some nil ∧ (cmd 0x30312000 (st nil nil 0)).status = 0x200 := by
  decide
theorem test_sub_borrow :
    (cmd 0x31312000 (st (pos [1, 0]) (pos [1]) 0)).vReg 3 = some (pos [0xFFFFFFFF]) ∧ (cmd 0x31312000 (st (pos [1, 0]) (pos [1]) 0)).status = 0 := by
  decide
theorem test_sub_from_zero_mag_b :
    (cmd 0x31312000 (st nil (pos [7]) 0)).vReg 3 = some (neg [7]) ∧ (cmd 0x31312000 (st nil (pos [7]) 0)).status = 0x500 := by
  decide
theorem test_neg :
    (cmd 0x32310000 (st (pos [7]) nil 0)).vReg 3 = some (neg [7]) ∧ (cmd 0x32310000 (st (pos [7]) nil 0)).status = 0x400 := by
  decide
theorem test_abs_zero_same_a :
    (cmd 0x33310000 (st nil nil 0)).vReg 3 = some nil ∧ (cmd 0x33310000 (st nil nil 0)).status = 0x100 := by
  decide
theorem test_mul_two_words :
    (cmd 0x40312000 (st (pos [0xFFFFFFFF]) (pos [0xFFFFFFFF]) 0)).vReg 3 = some (pos [0xFFFFFFFE, 1]) ∧ (cmd 0x40312000 (st (pos [0xFFFFFFFF]) (pos [0xFFFFFFFF]) 0)).status = 0 := by
  decide
theorem test_mul_strips_top :
    (cmd 0x40312000 (st (pos [1, 0]) (neg [3]) 0)).vReg 3 = some (neg [3, 0]) ∧ (cmd 0x40312000 (st (pos [1, 0]) (neg [3]) 0)).status = 0 := by
  decide
theorem test_divrem_truncates :
    (cmd 0x50312400 (st (neg [7]) (pos [2]) 0)).vReg 3 = some (neg [3]) ∧
    (cmd 0x50312400 (st (neg [7]) (pos [2]) 0)).vReg 4 = some (neg [1]) := by
  decide
theorem test_divrem_knuth :
    (cmd 0x50312400 (st (neg [0x10, 0, 0, 0x3039]) (pos [0x100, 7]) 0)).vReg 3 = some (neg [0x0FFFFFFF, 0xFF900000]) ∧
    (cmd 0x50312400 (st (neg [0x10, 0, 0, 0x3039]) (pos [0x100, 7]) 0)).vReg 4 = some (neg [0x03103039]) := by
  decide +kernel
theorem test_div_by_minus_one_mag_a :
    (cmd 0x51312000 (st (neg [0x80000000, 0]) (neg [1]) 0)).vReg 3 = some (pos [0x80000000, 0]) ∧ (cmd 0x51312000 (st (neg [0x80000000, 0]) (neg [1]) 0)).status = 0x400 := by
  decide
theorem test_div_zero_by_zero : cmd 0x51312000 (st nil nil 0) = afterError (st nil nil 0) 2 0x51312000 := by decide
theorem test_rem_smaller_same_a :
    (cmd 0x52312000 (st (neg [5]) (pos [7]) 0)).vReg 3 = some (neg [5]) ∧ (cmd 0x52312000 (st (neg [5]) (pos [7]) 0)).status = 0x100 := by
  decide
theorem test_mod_adds_modulus :
    (cmd 0x53312000 (st (neg [7]) (pos [3]) 0)).vReg 3 = some (pos [2]) ∧ (cmd 0x53312000 (st (neg [7]) (pos [3]) 0)).status = 0 := by
  decide
theorem test_mod_zero_modulus :
    cmd 0x53312000 (st (neg [7]) nil 0) = afterError (st (neg [7]) nil 0) 3 0x53312000 := by
  decide
theorem test_pow :
    (cmd 0x60311000 (st (pos [2]) nil 10)).vReg 3 = some (pos [0x400]) ∧ (cmd 0x60311000 (st (pos [2]) nil 10)).status = 0 := by
  decide
theorem test_pow_zero_zero :
    (cmd 0x60311000 (st nil nil 0)).vReg 3 = some (pos [1]) ∧ (cmd 0x60311000 (st nil nil 0)).status = 0x300 := by
  decide
theorem test_and_grows_a_word :
    (cmd 0x70312000 (st (neg [0xFFFFFFFF]) (neg [0xFFFFFFFE]) 0)).vReg 3 = some (neg [1, 0]) ∧ (cmd 0x70312000 (st (neg [0xFFFFFFFF]) (neg [0xFFFFFFFE]) 0)).status = 0 := by
  decide
theorem test_or_negative :
    (cmd 0x71312000 (st (pos [12]) (neg [10]) 0)).vReg 3 = some (neg [2]) ∧ (cmd 0x71312000 (st (pos [12]) (neg [10]) 0)).status = 0 := by
  decide
theorem test_xor_grows_a_word :
    (cmd 0x72312000 (st (neg [1]) (pos [0xFFFFFFFF]) 0)).vReg 3 = some (neg [1, 0]) ∧ (cmd 0x72312000 (st (neg [1]) (pos [0xFFFFFFFF]) 0)).status = 0 := by
  decide
theorem test_andnot :
    (cmd 0x73312000 (st (neg [1]) (pos [10]) 0)).vReg 3 = some (neg [11]) ∧ (cmd 0x73312000 (st (neg [1]) (pos [10]) 0)).status = 0 := by
  decide
theorem test_not_step_d :
    (cmd 0x74310000 (st (pos [0xFFFFFFFF]) nil 0)).vReg 3 = some (neg [1, 0]) ∧ (cmd 0x74310000 (st (pos [0xFFFFFFFF]) nil 0)).status = 0 := by
  decide
theorem test_testbit_sign_extension :
    (cmd 0x75311000 (st (neg [1]) nil 100)).readX 3 = 1 ∧ (cmd 0x75311000 (st (neg [1]) nil 100)).status = 0 := by
  decide
theorem test_testbit_negative_position :
    cmd 0x75311000 (st (neg [1]) nil (-1)) = afterError (st (neg [1]) nil (-1)) 5 0x75311000 := by
  decide
theorem test_setbit_second_word :
    (cmd 0x76311000 (st nil nil 32)).vReg 3 = some (pos [1, 0]) ∧ (cmd 0x76311000 (st nil nil 32)).status = 0 := by
  decide
theorem test_clrbit_sign_extension :
    (cmd 0x77311000 (st (neg [1]) nil 32)).vReg 3 = some (neg [1, 1]) ∧ (cmd 0x77311000 (st (neg [1]) nil 32)).status = 0 := by
  decide
theorem test_flipbit :
    (cmd 0x78311000 (st (pos [5]) nil 2)).vReg 3 = some (pos [1]) ∧ (cmd 0x78311000 (st (pos [5]) nil 2)).status = 0 := by
  decide
theorem test_shl_extra_word :
    (cmd 0x79311000 (st (pos [0x80000000]) nil 1)).vReg 3 = some (pos [1, 0]) ∧ (cmd 0x79311000 (st (pos [0x80000000]) nil 1)).status = 0 := by
  decide
theorem test_shl_negative_distance :
    (cmd 0x79311000 (st (neg [5]) nil (-1))).vReg 3 = some (neg [3]) ∧ (cmd 0x79311000 (st (neg [5]) nil (-1))).status = 0 := by
  decide
theorem test_shr_floor_carries :
    (cmd 0x7A311000 (st (neg [1, 0xFFFFFFFF]) nil 1)).vReg 3 = some (neg [1, 0]) ∧ (cmd 0x7A311000 (st (neg [1, 0xFFFFFFFF]) nil 1)).status = 0 := by
  decide
theorem test_shr_all_bits :
    (cmd 0x7A311000 (st (neg [5]) nil 9223372036854775807)).vReg 3 = some (neg [1]) ∧ (cmd 0x7A311000 (st (neg [5]) nil 9223372036854775807)).status = 0 := by
  decide
theorem test_tobytes_five_bytes :
    (cmd 0x80010000 (st (pos [0x80000000]) nil 0)).buf = [0, 0x80, 0, 0, 0] ∧ (cmd 0x80010000 (st (pos [0x80000000]) nil 0)).brp = 0 ∧ (cmd 0x80010000 (st (pos [0x80000000]) nil 0)).status = 0 := by
  decide
theorem test_tobytes_negative :
    (cmd 0x80010000 (st (neg [0x81]) nil 0)).buf = [0xFF, 0x7F] ∧ (cmd 0x80010000 (st (neg [0x81]) nil 0)).brp = 0 ∧ (cmd 0x80010000 (st (neg [0x81]) nil 0)).status = 0 := by
  decide
theorem test_tozfbytes_pads_with_sign :
    (cmd 0x81011000 (st (neg [1]) nil 4)).buf = [0xFF, 0xFF, 0xFF, 0xFF] ∧ (cmd 0x81011000 (st (neg [1]) nil 4)).brp = 0 ∧ (cmd 0x81011000 (st (neg [1]) nil 4)).status = 0 := by
  decide
theorem test_tozfbytes_too_narrow :
    cmd 0x81011000 (st (pos [0x80]) nil 1) = afterError (st (pos [0x80]) nil 1) 6 0x81011000 := by
  decide
theorem test_bitlen_power_of_two :
    (cmd 0x82310000 (st (neg [1, 0]) nil 0)).readX 3 = 32 ∧ (cmd 0x82310000 (st (neg [1, 0]) nil 0)).status = 0 := by
  decide
theorem test_bitcnt_negative :
    (cmd 0x83310000 (st (neg [0x100]) nil 0)).readX 3 = 8 ∧ (cmd 0x83310000 (st (neg [0x100]) nil 0)).status = 0 := by
  decide
theorem test_maglen :
    (cmd 0x90310000 (st (pos [1, 0]) nil 0)).readX 3 = 2 ∧ (cmd 0x90310000 (st (pos [1, 0]) nil 0)).status = 0 := by
  decide
theorem test_signum :
    (cmd 0x91310000 (st (neg [7]) nil 0)).readX 3 = (-1) ∧ (cmd 0x91310000 (st (neg [7]) nil 0)).status = 0 := by
  decide
theorem test_magwf :
    (cmd 0x92311000 (st (neg [1, 5]) nil 0)).readX 3 = 1 ∧ (cmd 0x92311000 (st (neg [1, 5]) nil 0)).status = 0 := by
  decide
theorem test_magwr :
    (cmd 0x93311000 (st (neg [1, 5]) nil 0)).readX 3 = 5 ∧ (cmd 0x93311000 (st (neg [1, 5]) nil 0)).status = 0 := by
  decide
theorem test_magwr_bad_index :
    cmd 0x93311000 (st (neg [1, 5]) nil 2) = afterError (st (neg [1, 5]) nil 2) 10 0x93311000 := by
  decide
theorem test_wordat_above_lowest :
    (cmd 0x94311000 (st (neg [1, 5]) nil 1)).readX 3 = 4294967294 ∧ (cmd 0x94311000 (st (neg [1, 5]) nil 1)).status = 0 := by
  decide
theorem test_wordat_beyond :
    (cmd 0x94311000 (st (neg [1, 5]) nil 2)).readX 3 = 4294967295 ∧ (cmd 0x94311000 (st (neg [1, 5]) nil 2)).status = 0 := by
  decide

/-! ## Knuth's Algorithm D: the clipped estimate and the add-back (95_test_vectors.md, 44_divide.md R178) -/

/-- The clipped estimate: the top words are equal. -/
theorem test_divmagD_clipped : divmagD [0x80000000, 0, 0] [0x80000000, 1] = ([0xFFFFFFFF], [0x7FFFFFFF, 0x00000001]) := by
  decide +kernel

/-! ## The port, the step and the buffer -/

theorem test_first_command_after_reset :
    (nextOr State.reset (step (State.reset.withFetchWord 32 0x01000003))).vReg 0 = some (neg [1]) := by decide
theorem test_illegal_word : cmd 0x05000000 State.reset = afterError State.reset 7 0x05000000 := by decide
theorem test_push_pop_order :
    (nextOr State.reset (serve (.write 32 0x1C 0x11223344) State.reset)).buf = [0x11, 0x22, 0x33, 0x44] ∧
    (nextOr State.reset (serve (.read 32 0x24) (withBuf [0x11, 0x22, 0x33, 0x44]))).reply = some 0x11223344 := by decide
theorem test_push_refused_whole :
    let s := { small nil nil 0 with buf := [1, 2, 3, 4, 5, 6] }
    nextOr s (serve (.write 32 0x1C 0) s) = { s with errlog := 0x1000 } := by decide
theorem test_errlog_write_one_to_clear :
    (nextOr State.reset (serve (.write 32 0x08 0x0004) { State.reset with errlog := 0x0006 })).errlog = 0x0002 := by decide
theorem test_vstat : (nextOr State.reset (serve (.read 32 0x38) (st nil nil 0))).reply = some 0x0006 := by decide
theorem test_window_high_half :
    let s := { st nil nil (-2) with xsel := 1 }
    (nextOr s (serve (.read 32 0x34) s)).reply = some 0xFFFFFFFF ∧
    (nextOr s (serve (.write 32 0x34 5) s)).xReg 1 = 0x00000005FFFFFFFE := by decide
theorem test_memory_wf : Memory.wf (withBuf [1, 2]) = true ∧ Memory.wf { withBuf [1, 2] with brp := 3 } = false := by decide
/-- The add-back at the only digit. -/
theorem test_divmagD_add_back : divmagD [0x80000000, 0, 3] [0x20000000, 0, 1] = ([3], [0x20000000, 0, 0]) := by
  decide +kernel
/-- The add-back at a digit below a zero one. -/
theorem test_divmagD_add_back_low : divmagD [0x7FFFFFFF, 0x80000000, 0, 0] [0x80000000, 0, 1] =
    ([0xFFFFFFFE], [0x7FFFFFFF, 0xFFFFFFFF, 2]) := by
  decide +kernel
/-- Two refinements of the estimate. -/
theorem test_divmagD_refined_twice : divmagD [0x80000000, 0x80000001, 0xFFFFFFFE] [0x80000001, 0xFFFFFFFF] =
    ([0xFFFFFFFD], [8, 0xFFFFFFFB]) := by
  decide +kernel

/-! ## Witnesses: for every statement with hypotheses, states and operands that meet them, clause by clause -/

/-- `2^64 - 1`, the greatest value that two words hold. -/
abbrev top : Value := pos [0xFFFFFFFF, 0xFFFFFFFF]

/-- `-(2^64 - 1)`. -/
abbrev bottom : Value := neg [0xFFFFFFFF, 0xFFFFFFFF]


theorem witness_DecodeOfEncode :
    (Instr.divrem 15 0 1 2).wellFormed = true ∧
    (Instr.const 0 3).wellFormed = true := by
  decide
theorem witness_EncodeOfDecode :
    decode 0x50FABE00 = .ok (.divrem 15 14 10 11) ∧
    decode 0x01000003 = .ok (.const 0 3) := by
  decide
theorem witness_IllegalWordOnlyReports :
    (∀ r ∈ opcodeRows, ¬r.takes 0x05000000) ∧
    (∀ r ∈ opcodeRows, ¬r.takes 0x01000004) ∧
    sameDestinations 0x50412400 := by
  decide
theorem witness_StepRunsWrittenCommand :
    (State.reset.withFetchWord 32 0x30312000).inputs = .write 32 0x00 0x30312000 :: [] ∧
    decode 0x30312000 = .ok (.add 3 1 2) ∧
    decode 0x05000000 = .error .unknownOpcode ∧
    decode (BitVec.ofNat 32 0x30312000) = .ok (.add 3 1 2) := by
  decide
theorem witness_StepServesFirstInput :
    State.reset.inputs = [] ∧
    { State.reset with inputs := [.reset] }.inputs = .reset :: [] := by
  decide
theorem witness_StepKeepsLegal :
    (State.reset.withFetchWord 32 0x01000003).legal = true ∧
    step (State.reset.withFetchWord 32 0x01000003) =
      .next (nextOr State.reset (step (State.reset.withFetchWord 32 0x01000003))) := ⟨by decide, rfl⟩
theorem witness_ErrorEntryChangesNothingElse :
    (serve (.write 32 0x00 0x00000000) State.reset = .next (cmd 0x00000000 State.reset) ∧
      errField (cmd 0x00000000 State.reset) = 0) ∧
    (serve (.write 32 0x00 0x51312000) (st nil nil 0) = .next (cmd 0x51312000 (st nil nil 0)) ∧
      errField (cmd 0x51312000 (st nil nil 0)) ≠ 0) := ⟨⟨rfl, by decide⟩, rfl, by decide⟩
theorem witness_CommandsIgnoreEarlierOutcomes :
    let s := st (pos [5]) (neg [3]) 2
    let s' := { s with status := 2, errlog := 4, errcmd := 0x51312000, xsel := 7 }
    s.v = s'.v ∧ s.x = s'.x ∧ s.buf = s'.buf ∧ s.brp = s'.brp ∧ s.params = s'.params ∧
    exec (.add 3 1 2) s = .next (after (.add 3 1 2) s) ∧ exec (.add 3 1 2) s' = .next (after (.add 3 1 2) s') :=
  ⟨rfl, rfl, rfl, rfl, rfl, rfl, rfl⟩
theorem witness_EmptySourceReported :
    (decode 0x30314000 = .ok (.add 3 1 4) ∧ ∃ r ∈ vSources (.add 3 1 4), (st nil nil 0).vReg r = none) ∧
    (exec (.add 3 1 4) (st nil nil 0) = .next (after (.add 3 1 4) (st nil nil 0)) ∧
      errField (after (.add 3 1 4) (st nil nil 0)) = 8) := ⟨by decide, rfl, by decide⟩
theorem witness_ErrorsRaisedByTheirCommands :
    decode 0x51312000 = .ok (.div 3 1 2) ∧ exec (.div 3 1 2) (st nil nil 0) = .next (after (.div 3 1 2) (st nil nil 0)) ∧
    errField (after (.div 3 1 2) (st nil nil 0)) = 2 := ⟨by decide, rfl, by decide⟩
theorem witness_NopAndMovReport :
    (st (pos [5]) nil 0).legal = true ∧
    (st (pos [5]) nil 0).vReg 1 = some (pos [5]) := by
  decide
theorem witness_OnlyFreeEmpties :
    exec (.free 1) (st nil nil 0) = .next (after (.free 1) (st nil nil 0)) ∧ (st nil nil 0).vReg 1 ≠ none ∧
    (after (.free 1) (st nil nil 0)).vReg 1 = none := ⟨rfl, by decide, by decide⟩
theorem witness_ImmediatesLoad :
    State.reset.legal = true ∧
    (small top bottom 0).legal = true := by
  decide
theorem witness_NormalizerReadsTwosComplement :
    0 < 8 ∧
    ([] : List Byte) = [] ∧
    ([0x80] : List Byte) ≠ [] := by
  decide
theorem witness_FrombytesReadsBuffer :
    ((withBuf [0xFF]).buf ≠ [] ∧ fitsWords (withBuf [0xFF]) (canon (twosReading [0xFF#8])) = true) ∧
    (decode 0x10300000 = .ok (.frombytes 3) ∧ State.reset.buf = []) ∧
    (let s := { small nil nil 0 with buf := [0, 1, 0, 0, 0, 0, 0, 0, 0, 0] }; s.buf ≠ [] ∧ fitsWords s (canon (twosReading s.buf)) = false) := by
  decide
theorem witness_FromwordsReadsWords :
    (let s := withBuf [0xFF, 0xFF, 0xFF, 0xFF]; s.buf ≠ [] ∧ s.buf.length % 4 = 0 ∧ fitsWords s (canon (twosReading s.buf)) = true) ∧
    (decode 0x11300000 = .ok (.fromwords 3) ∧ State.reset.buf = []) ∧
    (withBuf [1, 2, 3, 4, 5]).buf.length % 4 ≠ 0 ∧
    (let s := { small nil nil 0 with buf := [0, 0, 0, 1, 0, 0, 0, 0, 0, 0, 0, 0] }; s.buf ≠ [] ∧ s.buf.length % 4 = 0 ∧ fitsWords s (canon (twosReading s.buf)) = false) := by
  decide
theorem witness_Fromint64BuildsValue :
    (small nil nil (-9223372036854775808)).legal = true := by
  decide
theorem witness_CmpOrdersValues :
    (st (neg [5]) (neg [3]) 0).legal = true ∧
    (st (neg [5]) (neg [3]) 0).vReg 1 = some (neg [5]) ∧
    (st (neg [5]) (neg [3]) 0).vReg 2 = some (neg [3]) := by
  decide
theorem witness_MinMaxChooseOperand :
    (st (neg [7]) (neg [7]) 0).legal = true ∧
    (st (neg [7]) (neg [7]) 0).vReg 1 = some (neg [7]) ∧
    (st (neg [7]) (neg [7]) 0).vReg 2 = some (neg [7]) := by
  decide
theorem witness_AddIsExact :
    ((small top nil 0).legal = true ∧ (small top nil 0).vReg 1 = some top ∧ (small top nil 0).vReg 2 = some nil ∧
      fitsWords (small top nil 0) (canon (Value.val top + Value.val nil)) = true) ∧
    ((small top (pos [1]) 0).legal = true ∧ (small top (pos [1]) 0).vReg 1 = some top ∧ (small top (pos [1]) 0).vReg 2 = some (pos [1]) ∧
      decode 0x30312000 = .ok (.add 3 1 2) ∧ fitsWords (small top (pos [1]) 0) (canon (Value.val top + Value.val (pos [1]))) = false) := by
  decide
theorem witness_SubIsExact :
    ((small top top 0).legal = true ∧ (small top top 0).vReg 1 = some top ∧ (small top top 0).vReg 2 = some top ∧
      fitsWords (small top top 0) (canon (Value.val top - Value.val top)) = true) ∧
    ((small top (neg [1]) 0).legal = true ∧ (small top (neg [1]) 0).vReg 1 = some top ∧ (small top (neg [1]) 0).vReg 2 = some (neg [1]) ∧
      decode 0x31312000 = .ok (.sub 3 1 2) ∧ fitsWords (small top (neg [1]) 0) (canon (Value.val top - Value.val (neg [1]))) = false) := by
  decide
theorem witness_NegAbsKeepMagnitude :
    (small bottom nil 0).legal = true ∧
    (small bottom nil 0).vReg 1 = some bottom := by
  decide
theorem witness_MulIsExact :
    ((small top (neg [1]) 0).legal = true ∧ (small top (neg [1]) 0).vReg 1 = some top ∧ (small top (neg [1]) 0).vReg 2 = some (neg [1]) ∧
      fitsWords (small top (neg [1]) 0) (canon (Value.val top * Value.val (neg [1]))) = true) ∧
    ((small top (pos [2]) 0).legal = true ∧ (small top (pos [2]) 0).vReg 1 = some top ∧ (small top (pos [2]) 0).vReg 2 = some (pos [2]) ∧
      decode 0x40312000 = .ok (.mul 3 1 2) ∧ fitsWords (small top (pos [2]) 0) (canon (Value.val top * Value.val (pos [2]))) = false) := by
  decide
theorem witness_DividersAreExact :
    (1#32 ≠ 0) ∧
    canonicalMag [0x80000000, 0, 3] = true ∧
    canonicalMag [0x20000000, 0, 1] = true ∧
    2 ≤ [0x20000000, 0, 1].length ∧
    magNat [0x20000000, 0, 1] < magNat [0x80000000, 0, 3] := by
  decide
theorem witness_DivremTruncates :
    ((3 : VReg) ≠ 4 ∧ (st (neg [7]) (pos [2]) 0).legal = true ∧ (st (neg [7]) (pos [2]) 0).vReg 1 = some (neg [7]) ∧ (st (neg [7]) (pos [2]) 0).vReg 2 = some (pos [2]) ∧ (pos [2]).val ≠ 0) ∧
    ((st (neg [7]) nil 0).legal = true ∧ (st (neg [7]) nil 0).vReg 1 = some (neg [7]) ∧ (st (neg [7]) nil 0).vReg 2 = some nil ∧
      decode 0x50312400 = .ok (.divrem 3 4 1 2) ∧ Value.val nil = 0) := by
  decide
theorem witness_DivRemWriteOnePart :
    ((st (neg [7]) (neg [1]) 0).legal = true ∧ (st (neg [7]) (neg [1]) 0).vReg 1 = some (neg [7]) ∧ (st (neg [7]) (neg [1]) 0).vReg 2 = some (neg [1]) ∧ (neg [1]).val ≠ 0) ∧
    ((st nil nil 0).legal = true ∧ (st nil nil 0).vReg 1 = some nil ∧ (st nil nil 0).vReg 2 = some nil ∧
      decode 0x51312000 = .ok (.div 3 1 2) ∧ decode 0x52312000 = .ok (.rem 3 1 2) ∧ Value.val nil = 0) := by
  decide
theorem witness_ModFloors :
    ((st (neg [7]) (pos [1]) 0).legal = true ∧ (st (neg [7]) (pos [1]) 0).vReg 1 = some (neg [7]) ∧ (st (neg [7]) (pos [1]) 0).vReg 2 = some (pos [1]) ∧ 0 < (pos [1]).val) ∧
    ((st nil nil 0).legal = true ∧ (st nil nil 0).vReg 1 = some nil ∧ (st nil nil 0).vReg 2 = some nil ∧
      decode 0x53312000 = .ok (.mod 3 1 2) ∧ Value.val nil ≤ 0) := by
  decide
theorem witness_PowIsExact :
    ((small top nil 0).legal = true ∧ (small top nil 0).vReg 1 = some top ∧ ((small top nil 0).xReg 1).toInt = 0 ∧
      fitsWords (small top nil 0) (canon (top.val ^ (0 : Int).toNat)) = true) ∧
    (decode 0x60311000 = .ok (.pow 3 1 1) ∧ ((small top nil (-1)).xReg 1).toInt = -1) ∧
    ((small top nil 2).legal = true ∧ (small top nil 2).vReg 1 = some top ∧ ((small top nil 2).xReg 1).toInt = 2 ∧
      fitsWords (small top nil 2) (canon (top.val ^ (2 : Int).toNat)) = false) := by
  decide
theorem witness_PowExponentIdentities :
    (neg [3]).canonical = true ∧
    powValue (neg [3]) (0 : Nat) = .ok { value := pos [1], src := .const } ∧
    powValue (neg [3]) (2 : Nat) = .ok { value := pos [9], src := .fresh } ∧
    powValue (neg [3]) (0 + 2 : Nat) = .ok { value := pos [9], src := .fresh } := by
  decide
theorem witness_WordatReadsView :
    (neg [1, 0]).canonical = true ∧
    ((st (neg [1, 0]) nil 0).legal = true ∧ (st (neg [1, 0]) nil 0).vReg 1 = some (neg [1, 0]) ∧ ((st (neg [1, 0]) nil 0).xReg 1).toInt = 0) ∧
    (decode 0x94311000 = .ok (.wordat 3 1 1) ∧ ((st nil nil (-1)).xReg 1).toInt = -1) := by
  decide
theorem witness_AndAndnotWorkBitByBit :
    ((small top bottom 0).legal = true ∧ (small top bottom 0).vReg 1 = some top ∧ (small top bottom 0).vReg 2 = some bottom ∧ decode 0x70312000 = .ok (.and 3 1 2) ∧
      fitsWords (small top bottom 0) (bitop (fun x y => x &&& y) top bottom) = true) ∧
    ((small bottom (neg [0xFFFFFFFF, 0xFFFFFFFE]) 0).legal = true ∧ (small bottom (neg [0xFFFFFFFF, 0xFFFFFFFE]) 0).vReg 1 = some bottom ∧ (small bottom (neg [0xFFFFFFFF, 0xFFFFFFFE]) 0).vReg 2 = some (neg [0xFFFFFFFF, 0xFFFFFFFE]) ∧ decode 0x70312000 = .ok (.and 3 1 2) ∧
      fitsWords (small bottom (neg [0xFFFFFFFF, 0xFFFFFFFE]) 0) (bitop (fun x y => x &&& y) bottom (neg [0xFFFFFFFF, 0xFFFFFFFE])) = false) ∧
    ((small top bottom 0).legal = true ∧ (small top bottom 0).vReg 1 = some top ∧ (small top bottom 0).vReg 2 = some bottom ∧ decode 0x73312000 = .ok (.andnot 3 1 2) ∧
      fitsWords (small top bottom 0) (bitop (fun x y => x &&& ~~~y) top bottom) = true) ∧
    ((small bottom (pos [1]) 0).legal = true ∧ (small bottom (pos [1]) 0).vReg 1 = some bottom ∧ (small bottom (pos [1]) 0).vReg 2 = some (pos [1]) ∧ decode 0x73312000 = .ok (.andnot 3 1 2) ∧
      fitsWords (small bottom (pos [1]) 0) (bitop (fun x y => x &&& ~~~y) bottom (pos [1])) = false) := by
  decide
theorem witness_OrXorWorkBitByBit :
    ((small top bottom 0).legal = true ∧ (small top bottom 0).vReg 1 = some top ∧ (small top bottom 0).vReg 2 = some bottom ∧ decode 0x71312000 = .ok (.or 3 1 2) ∧
      fitsWords (small top bottom 0) (bitop (fun x y => x ||| y) top bottom) = true) ∧
    ((small top top 0).legal = true ∧ (small top top 0).vReg 1 = some top ∧ (small top top 0).vReg 2 = some top ∧ decode 0x72312000 = .ok (.xor 3 1 2) ∧
      fitsWords (small top top 0) (bitop (fun x y => x ^^^ y) top top) = true) ∧
    ((small (neg [1]) top 0).legal = true ∧ (small (neg [1]) top 0).vReg 1 = some (neg [1]) ∧ (small (neg [1]) top 0).vReg 2 = some top ∧ decode 0x72312000 = .ok (.xor 3 1 2) ∧
      fitsWords (small (neg [1]) top 0) (bitop (fun x y => x ^^^ y) (neg [1]) top) = false) := by
  decide
theorem witness_NotIsMinusOneLess :
    ((small bottom nil 0).legal = true ∧ (small bottom nil 0).vReg 1 = some bottom ∧ fitsWords (small bottom nil 0) (canon (-(bottom.val + 1))) = true) ∧
    ((small top nil 0).legal = true ∧ (small top nil 0).vReg 1 = some top ∧ decode 0x74310000 = .ok (.not 3 1) ∧
      fitsWords (small top nil 0) (canon (-(top.val + 1))) = false) := by
  decide
theorem witness_TestbitReadsView :
    ((st bottom nil 0).legal = true ∧ (st bottom nil 0).vReg 1 = some bottom ∧ ((st bottom nil 0).xReg 1).toInt = 0) ∧
    (decode 0x75311000 = .ok (.testbit 3 1 1) ∧ ((st nil nil (-1)).xReg 1).toInt = -1) := by
  decide
theorem witness_BitEditsAddPowers :
    ((small top nil 0).legal = true ∧ (small top nil 0).vReg 1 = some top ∧ ((small top nil 0).xReg 1).toInt = 0 ∧
      decode 0x76311000 = .ok (.setbit 3 1 1) ∧ fitsWords (small top nil 0) (canon (bitSet top.val 0)) = true) ∧
    ((small top nil 64).legal = true ∧ (small top nil 64).vReg 1 = some top ∧ ((small top nil 64).xReg 1).toInt = 64 ∧
      decode 0x76311000 = .ok (.setbit 3 1 1) ∧ fitsWords (small top nil 64) (canon (bitSet top.val 64)) = false) ∧
    (((small nil nil (-1)).xReg 1).toInt = -1 ∧ decode 0x76311000 = .ok (.setbit 3 1 1)) ∧
    ((small bottom nil 1).legal = true ∧ (small bottom nil 1).vReg 1 = some bottom ∧ ((small bottom nil 1).xReg 1).toInt = 1 ∧
      decode 0x77311000 = .ok (.clrbit 3 1 1) ∧ fitsWords (small bottom nil 1) (canon (bitCleared bottom.val 1)) = true) ∧
    ((small bottom nil 64).legal = true ∧ (small bottom nil 64).vReg 1 = some bottom ∧ ((small bottom nil 64).xReg 1).toInt = 64 ∧
      decode 0x77311000 = .ok (.clrbit 3 1 1) ∧ fitsWords (small bottom nil 64) (canon (bitCleared bottom.val 64)) = false) ∧
    (((small nil nil (-1)).xReg 1).toInt = -1 ∧ decode 0x77311000 = .ok (.clrbit 3 1 1)) ∧
    ((small top nil 0).legal = true ∧ (small top nil 0).vReg 1 = some top ∧ ((small top nil 0).xReg 1).toInt = 0 ∧
      decode 0x78311000 = .ok (.flipbit 3 1 1) ∧ fitsWords (small top nil 0) (canon (bitFlipped top.val 0)) = true) ∧
    ((small top nil 64).legal = true ∧ (small top nil 64).vReg 1 = some top ∧ ((small top nil 64).xReg 1).toInt = 64 ∧
      decode 0x78311000 = .ok (.flipbit 3 1 1) ∧ fitsWords (small top nil 64) (canon (bitFlipped top.val 64)) = false) ∧
    (((small nil nil (-1)).xReg 1).toInt = -1 ∧ decode 0x78311000 = .ok (.flipbit 3 1 1)) := by
  decide
theorem witness_ShiftsFloor :
    ((small top nil (0)).legal = true ∧ (small top nil (0)).vReg 1 = some top ∧ ((small top nil (0)).xReg 1).toInt = 0 ∧
      decode 0x79311000 = .ok (.shl 3 1 1) ∧ fitsWords (small top nil (0)) (canon (shifted top.val ((0)))) = true) ∧
    ((small top nil (1)).legal = true ∧ (small top nil (1)).vReg 1 = some top ∧ ((small top nil (1)).xReg 1).toInt = 1 ∧
      decode 0x79311000 = .ok (.shl 3 1 1) ∧ fitsWords (small top nil (1)) (canon (shifted top.val ((1)))) = false) ∧
    ((small top nil (0)).legal = true ∧ (small top nil (0)).vReg 1 = some top ∧ ((small top nil (0)).xReg 1).toInt = 0 ∧
      decode 0x7A311000 = .ok (.shr 3 1 1) ∧ fitsWords (small top nil (0)) (canon (shifted top.val (-(0)))) = true) ∧
    ((small top nil (-1)).legal = true ∧ (small top nil (-1)).vReg 1 = some top ∧ ((small top nil (-1)).xReg 1).toInt = -1 ∧
      decode 0x7A311000 = .ok (.shr 3 1 1) ∧ fitsWords (small top nil (-1)) (canon (shifted top.val (-(-1)))) = false) := by
  decide
theorem witness_ShiftRoundTrip :
    let s := st (neg [5]) nil 33
    s.legal = true ∧ s.vReg 1 = some (neg [5]) ∧ 0 ≤ (s.xReg 1).toInt ∧
    exec (.shl 3 1 1) s = .next (after (.shl 3 1 1) s) ∧ errField (after (.shl 3 1 1) s) = 0 :=
  ⟨by decide, by decide, by decide, rfl, by decide⟩
theorem witness_TobytesWritesShortestEncoding :
    ((small top nil 0).legal = true ∧ (small top nil 0).vReg 1 = some top ∧
      inBytes 9 top.val = true ∧ ∀ m < 9, inBytes m top.val = false) ∧
    ((st nil nil 0).legal = true ∧ (st nil nil 0).vReg 1 = some nil ∧
      inBytes 1 (Value.val nil) = true ∧ ∀ m < 1, inBytes m (Value.val nil) = false) := by
  decide
theorem witness_TozfbytesWritesSizedEncoding :
    ((small top nil 9).legal = true ∧ (small top nil 9).vReg 1 = some top ∧ ((small top nil 9).xReg 1).toInt = 9 ∧
      inBytes 9 top.val = true ∧ fitsBytes (small top nil 9) 9 = true) ∧
    (decode 0x81011000 = .ok (.tozfbytes 1 1) ∧ ((small top nil 8).xReg 1).toInt = 8 ∧ inBytes 8 top.val = false) ∧
    (((small top nil (-1)).xReg 1).toInt = -1 ∧ ((small top nil 0).xReg 1).toInt = 0 ∧ inBytes 0 top.val = false) ∧
    ((small top nil 10).legal = true ∧ (small top nil 10).vReg 1 = some top ∧ ((small top nil 10).xReg 1).toInt = 10 ∧
      inBytes 10 top.val = true ∧ fitsBytes (small top nil 10) 10 = false) := by
  decide
theorem witness_ExportImportRoundTrip :
    (small bottom nil 0).legal = true ∧
    (small bottom nil 0).vReg 1 = some bottom := by
  decide
theorem witness_BitlenBitcntCountBits :
    ((st bottom nil 0).legal = true ∧ (st bottom nil 0).vReg 1 = some bottom ∧
      sigBits (signStripped bottom.val) < 2 ^ 63 ∧ oneBits (signStripped bottom.val) < 2 ^ 63) := by
  decide
theorem witness_MaglenSignumReadTag :
    ((st nil nil 0).legal = true ∧ (st nil nil 0).vReg 1 = some nil ∧ nil.mag.length < 2 ^ 63) := by
  decide
theorem witness_MagwfMagwrReadWords :
    ((st (neg [1, 5]) nil 1).vReg 1 = some (neg [1, 5]) ∧ ((st (neg [1, 5]) nil 1).xReg 1).toInt = 1 ∧
      [1#32, 5#32][1]? = some 5#32 ∧ [1#32, 5#32].reverse[1]? = some 1#32) ∧
    (decode 0x92311000 = .ok (.magwf 3 1 1) ∧ decode 0x93311000 = .ok (.magwr 3 1 1) ∧
      ((st (neg [1, 5]) nil (-1)).xReg 1).toInt = -1 ∧ ((st (neg [1, 5]) nil 2).xReg 1).toInt = 2 ∧ (([1#32, 5#32].length : Nat) : Int) ≤ 2) := by
  decide
theorem witness_FrameOfValueCommands :
    vDests (.add 3 1 2) ≠ [] ∧
    exec (.add 3 1 2) (st nil nil 0) = .next (after (.add 3 1 2) (st nil nil 0)) ∧ errField (after (.add 3 1 2) (st nil nil 0)) = 0 ∧
    exec (.add 3 1 2) State.reset = .next (after (.add 3 1 2) State.reset) ∧ errField (after (.add 3 1 2) State.reset) ≠ 0 :=
  ⟨by decide, rfl, by decide, rfl, by decide⟩
theorem witness_FrameOfScalarCommands :
    xDests (.cmp 3 1 2) ≠ [] ∧
    exec (.cmp 3 1 2) (st nil nil 0) = .next (after (.cmp 3 1 2) (st nil nil 0)) ∧ errField (after (.cmp 3 1 2) (st nil nil 0)) = 0 ∧
    exec (.cmp 3 1 2) State.reset = .next (after (.cmp 3 1 2) State.reset) ∧ errField (after (.cmp 3 1 2) State.reset) ≠ 0 :=
  ⟨by decide, rfl, by decide, rfl, by decide⟩
theorem witness_FrameOfStoringCommands :
    storesBuf (.tobytes 1) = true ∧
    exec (.tobytes 1) (st nil nil 0) = .next (after (.tobytes 1) (st nil nil 0)) ∧ errField (after (.tobytes 1) (st nil nil 0)) = 0 ∧
    exec (.tobytes 1) State.reset = .next (after (.tobytes 1) State.reset) ∧ errField (after (.tobytes 1) State.reset) ≠ 0 :=
  ⟨by decide, rfl, by decide, rfl, by decide⟩
theorem witness_FrameOfStoringCommands_sized :
    storesBuf (.tozfbytes 1 1) = true ∧
    exec (.tozfbytes 1 1) (st bottom nil 9) = .next (after (.tozfbytes 1 1) (st bottom nil 9)) ∧
    errField (after (.tozfbytes 1 1) (st bottom nil 9)) = 0 ∧
    exec (.tozfbytes 1 1) (st nil nil 0) = .next (after (.tozfbytes 1 1) (st nil nil 0)) ∧
    errField (after (.tozfbytes 1 1) (st nil nil 0)) ≠ 0 :=
  ⟨by decide, rfl, by decide, rfl, by decide⟩
theorem witness_OnlyCommandsChangeValues :
    (∀ c, (.write 32 0x18 5 : Input) ≠ .write 32 0x00 c) ∧ (.write 32 0x18 5 : Input) ≠ .reset ∧
    serve (.write 32 0x18 5) State.reset = .next (nextOr State.reset (serve (.write 32 0x18 5) State.reset)) :=
  ⟨by simp, by simp, rfl⟩
theorem witness_WindowMovesHalves :
    (15 : XReg).val = { State.reset with xsel := 15 }.xsel.toNat := by
  decide
theorem witness_PushesAppendBctlClears :
    fitsBytes { small nil nil 0 with buf := [1, 2, 3, 4, 5, 6, 7, 8] } (8 + 1) = true ∧
    fitsBytes { small nil nil 0 with buf := [1, 2, 3, 4, 5, 6, 7, 8, 9] } (9 + 1) = false ∧
    fitsBytes { small nil nil 0 with buf := [1, 2, 3, 4, 5] } (5 + 4) = true ∧
    fitsBytes { small nil nil 0 with buf := [1, 2, 3, 4, 5, 6] } (6 + 4) = false := by
  decide
theorem witness_PopsAdvance :
    (withBuf [1]).buf[(withBuf [1]).brp]? = some 1 ∧
    State.reset.buf.length ≤ State.reset.brp ∧
    ([1, 2, 3, 4] : List Byte)[0]? = some 1 ∧
    ([1, 2, 3, 4] : List Byte)[0 + 3]? = some 4 ∧
    (withBuf [1, 2, 3]).buf.length < (withBuf [1, 2, 3]).brp + 4 := by
  decide
theorem witness_BadAccessOnlyReports :
    (0x3C ∉ [0x04, 0x08, 0x0C, 0x10, 0x20, 0x24, 0x28, 0x2C, 0x30, 0x34, 0x38]) ∧
    (16 ≠ 32) ∧
    (0x38 ∉ [0x00, 0x08, 0x14, 0x18, 0x1C, 0x2C, 0x30, 0x34]) := by
  decide
theorem witness_ErrlogClearedByWritingOnes :
    (∀ c, (.read 32 0x20 : Input) ≠ .write 32 0x08 c) ∧ (.read 32 0x20 : Input) ≠ .reset ∧
    serve (.read 32 0x20) { State.reset with errlog := 2 } =
      .next (nextOr State.reset (serve (.read 32 0x20) { State.reset with errlog := 2 })) ∧
    (2#32).getLsbD 1 = true :=
  ⟨by simp, by simp, rfl, by decide⟩

/-! ### The idealised counts: a value of `2^63` words, all ones -/

theorem magNat_replicate_ones (n : Nat) : magNat (List.replicate n 0xFFFFFFFF#32) + 1 = 2 ^ (32 * n) := by
  induction n with
  | zero => rfl
  | succ n ih =>
    have h : (2 : Nat) ^ (32 * (n + 1)) = 4294967296 * 2 ^ (32 * n) := by rw [Nat.mul_succ, Nat.pow_add]; omega
    have hw : (0xFFFFFFFF#32).toNat = 4294967295 := rfl
    rw [List.replicate_succ, magNat_cons, h, ← ih, List.length_replicate, hw]
    have hb : wordBase ^ n = 2 ^ (32 * n) := by rw [Nat.pow_mul]
    omega

theorem sigBits_ones (k : Nat) : sigBits (2 ^ k - 1) = k := by
  cases k with
  | zero => rfl
  | succ k =>
    have h1 : 2 ^ k ≤ 2 ^ (k + 1) - 1 := by
      have := Nat.pow_succ 2 k
      have := Nat.two_pow_pos k
      omega
    have h0 : 2 ^ (k + 1) - 1 ≠ 0 := by
      have := Nat.two_pow_pos k
      omega
    have hlt : 2 ^ (k + 1) - 1 < 2 ^ (k + 1) := by
      have := Nat.two_pow_pos (k + 1)
      omega
    have hlog := (Nat.log2_eq_iff h0).2 ⟨h1, hlt⟩
    rw [sigBits, if_neg h0, hlog]

theorem oneBits_ones (k : Nat) : oneBits (2 ^ k - 1) = k := by
  rw [oneBits, sigBits_ones, List.filter_eq_self.2, List.length_range]
  intro i hi
  simpa [Nat.testBit_two_pow_sub_one] using hi

theorem counts_of_ones (n : Nat) (hn : n ≠ 0) :
    let a := pos (List.replicate n 0xFFFFFFFF)
    { st a nil 0 with params := { maxw := none, bufcap := none } }.legal = true ∧ a.mag.length = n ∧
    sigBits (signStripped a.val) = 32 * n ∧ oneBits (signStripped a.val) = 32 * n := by
  intro a
  have hval : a.val = ((2 ^ (32 * n) - 1 : Nat) : Int) := by
    have := magNat_replicate_ones n
    have h1 : magNat (List.replicate n 0xFFFFFFFF#32) = 2 ^ (32 * n) - 1 := by omega
    simp [Value.val, Sign.num, a, h1]
  have hs : signStripped a.val = 2 ^ (32 * n) - 1 := by
    rw [hval, signStripped, if_pos (Int.natCast_nonneg _), Int.toNat_natCast]
  refine ⟨?_, by simp [a], by rw [hs, sigBits_ones], by rw [hs, oneBits_ones]⟩
  have ha : legalReg none (some a) = true := by
    obtain ⟨m, rfl⟩ := Nat.exists_eq_succ_of_ne_zero hn
    simp [legalReg, Value.canonical, List.replicate_succ, a]
  have hnil : legalReg none (some nil) = true := by decide
  have hnone : legalReg none none = true := rfl
  have hstatus : legalStatus 0#32 = true := by decide
  have hlog : legalErrlog 0#32 = true := by decide
  simp [State.legal, st, State.reset, Vector.toList, ha, hnil, hnone, hstatus, hlog, Memory.wf_iff, Config.Params.legal]

/-- It also meets the hypotheses of the last clauses of `BitlenBitcntCountBits` and `MaglenSignumReadTag`. -/
theorem witness_HugeCountsOverflow :
    ∃ (s : State) (a : Value), s.legal = true ∧ s.params.maxw = none ∧ s.vReg 1 = some a ∧
      decode 0x90310000 = .ok (.maglen 3 1) ∧ 2 ^ 63 ≤ a.mag.length ∧
      decode 0x82310000 = .ok (.bitlen 3 1) ∧ 2 ^ 63 ≤ sigBits (signStripped a.val) ∧
      decode 0x83310000 = .ok (.bitcnt 3 1) ∧ 2 ^ 63 ≤ oneBits (signStripped a.val) := by
  suffices h : ∀ n : Nat, n ≠ 0 → ∃ (s : State) (a : Value), s.legal = true ∧ s.params.maxw = none ∧
      s.vReg 1 = some a ∧ decode 0x90310000 = .ok (.maglen 3 1) ∧ n ≤ a.mag.length ∧
      decode 0x82310000 = .ok (.bitlen 3 1) ∧ n ≤ sigBits (signStripped a.val) ∧
      decode 0x83310000 = .ok (.bitcnt 3 1) ∧ n ≤ oneBits (signStripped a.val) from h (2 ^ 63) (by decide)
  intro n hn
  obtain ⟨h1, h2, h3, h4⟩ := counts_of_ones n hn
  exact ⟨_, _, h1, rfl, rfl, by decide, h2.ge, by decide, by omega, by decide, by omega⟩

end Sys2Proof.Tests
end

section
/-! SUPPORT. A legal state (10_state.md R6, R21, R28, R32, R34), clause by clause, and the base case of the invariant. -/

namespace Sys2Proof.Machine

/-- `State.legal` with its clause about the value registers said register by register (R21). -/
theorem State.legal_iff (s : State) :
    s.legal = true ↔ s.params.legal = true ∧ (∀ i : VReg, legalReg s.params.maxw (s.vReg i) = true) ∧
      Memory.wf s = true ∧ legalStatus s.status = true ∧ legalErrlog s.errlog = true := by
  have hregs : s.v.toList.all (legalReg s.params.maxw) = true ↔
      ∀ i : VReg, legalReg s.params.maxw (s.vReg i) = true := by
    rw [Vector.all_toList, Vector.all_eq_true]
    exact ⟨fun h i => h i i.isLt, fun h i hi => h ⟨i, hi⟩⟩
  simp only [State.legal, Bool.and_eq_true, hregs, and_assoc]

/-- Every value register is `EMPTY` after reset (R45). -/
@[simp] theorem State.reset_vReg (i : VReg) : State.reset.vReg i = none :=
  Vector.getElem_replicate i.isLt

@[simp] theorem legalReg_none (maxw : Option Nat) : legalReg maxw none = true := rfl

/-- The parameters of log 3 are among those R6 allows. -/
theorem Params.unbounded_legal : Config.Params.unbounded.legal = true := rfl

/-- The status of a normal end without a report (R28). -/
theorem legalStatus_zero : legalStatus 0 = true := by decide

theorem legalErrlog_zero : legalErrlog 0 = true := by decide

end Sys2Proof.Machine

namespace Sys2Proof.Proofs

open Sys2Proof.Machine Sys2Proof.Claims

/-- Settles O10, one clause of the invariant at a time: the registers are `EMPTY`, the buffer is empty, and `STATUS` and
`ERRLOG` are 0. -/
theorem resetStateLegal : Obligations.ResetStateLegal := by
  have hregs (i : VReg) : legalReg State.reset.params.maxw (State.reset.vReg i) = true := by
    rw [State.reset_vReg, legalReg_none]
  exact (State.legal_iff State.reset).2
    ⟨Params.unbounded_legal, hregs, Memory.wf_reset, legalStatus_zero, legalErrlog_zero⟩

end Sys2Proof.Proofs
end

section
/-! SUPPORT. Knuth's Algorithm D (44_divide.md R178): the two-word estimate of a digit is the digit or one more, Step 4
corrects it, and the loop and the normalization give the exact quotient and remainder. -/

namespace Sys2Proof.Machine

/-! ### Digits of a sequence -/

/-- A sequence cut at position `i`. -/
theorem leNat_take_add_drop (ws : List Word) (i : Nat) (h : i ≤ ws.length) :
    leNat ws = leNat (ws.take i) + wordBase ^ i * leNat (ws.drop i) := by
  conv_lhs => rw [← List.take_append_drop i ws]
  rw [leNat_append, List.length_take, Nat.min_eq_left h]

/-- What lies from position `i` up. -/
theorem leNat_div_pow (ws : List Word) (i : Nat) (h : i ≤ ws.length) :
    leNat ws / wordBase ^ i = leNat (ws.drop i) := by
  have hlow := leNat_lt (ws.take i)
  rw [List.length_take, Nat.min_eq_left h] at hlow
  rw [leNat_take_add_drop ws i h, Nat.add_mul_div_left _ _ (Nat.pow_pos wordBase_pos), Nat.div_eq_of_lt hlow,
    Nat.zero_add]

/-- What lies below position `i`. -/
theorem leNat_mod_pow (ws : List Word) (i : Nat) (h : i ≤ ws.length) :
    leNat ws % wordBase ^ i = leNat (ws.take i) := by
  have hlow := leNat_lt (ws.take i)
  rw [List.length_take, Nat.min_eq_left h] at hlow
  rw [leNat_take_add_drop ws i h, Nat.add_mul_mod_self_left, Nat.mod_eq_of_lt hlow]

/-- What lies from position `i` up is digit `i` and what lies above it. -/
theorem leNat_div_pow_eq (ws : List Word) (i : Nat) (h : i < ws.length) :
    leNat ws / wordBase ^ i = leNat ws / wordBase ^ (i + 1) * wordBase + (ws.getD i 0#32).toNat := by
  rw [leNat_div_pow ws i h.le, leNat_div_pow ws (i + 1) h, List.drop_eq_getElem_cons h, leNat,
    List.getD_eq_getElem _ _ h]
  ring

/-- Nothing lies above the top digit. -/
theorem leNat_div_pow_length (ws : List Word) : leNat ws / wordBase ^ ws.length = 0 :=
  Nat.div_eq_of_lt (leNat_lt ws)

/-! ### Step 2: the estimate -/

section Estimate

variable {vTop vNext u0 num q : Nat}

/-- A failing estimate is reduced by one, and the pair still splits `num`. -/
theorem refineDigit_invariant {qhat rhat : Nat} (hinv : qhat * vTop + rhat = num)
    (htest : qhat * vNext > rhat * wordBase + u0) : 1 ≤ qhat ∧ (qhat - 1) * vTop + (rhat + vTop) = num := by
  obtain _ | k := qhat
  · omega
  · exact ⟨by omega, by rw [Nat.add_sub_cancel, ← hinv]; ring⟩

/-- The test of Step 2 compares the estimate with the two top words of the divisor and the three of the window. -/
theorem refineDigit_test_iff {qhat rhat : Nat} (hinv : qhat * vTop + rhat = num) :
    qhat * vNext > rhat * wordBase + u0 ↔ num * wordBase + u0 < qhat * (vTop * wordBase + vNext) := by
  have h : qhat * (vTop * wordBase + vNext) = qhat * vTop * wordBase + qhat * vNext := by ring
  rw [h, ← hinv, Nat.add_mul]
  omega

theorem refineDigit_le (k qhat rhat : Nat) : refineDigit vTop vNext u0 k qhat rhat ≤ qhat := by
  induction k generalizing qhat rhat with
  | zero => exact le_rfl
  | succ k ih =>
    unfold refineDigit
    split
    · exact (ih _ _).trans (Nat.sub_le _ _)
    · exact le_rfl

/-- The refinement never goes below a digit that fits. -/
theorem le_refineDigit (hq : q * (vTop * wordBase + vNext) ≤ num * wordBase + u0) (k qhat rhat : Nat)
    (hinv : qhat * vTop + rhat = num) (hle : q ≤ qhat) : q ≤ refineDigit vTop vNext u0 k qhat rhat := by
  induction k generalizing qhat rhat with
  | zero => exact hle
  | succ k ih =>
    unfold refineDigit
    split
    · rename_i htest
      obtain ⟨hpos, hinv'⟩ := refineDigit_invariant hinv htest.2
      have hlt := hq.trans_lt ((refineDigit_test_iff hinv).1 htest.2)
      have : q < qhat := Nat.lt_of_mul_lt_mul_right hlt
      exact ih _ _ hinv' (by omega)
    · exact hle

/-- Once `rhat` has left the range of a word, the estimate fits. -/
theorem fits_of_le_rhat {qhat rhat : Nat} (hinv : qhat * vTop + rhat = num) (hqhat : qhat < wordBase)
    (hnext : vNext < wordBase) (hrhat : wordBase ≤ rhat) :
    qhat * (vTop * wordBase + vNext) ≤ num * wordBase + u0 := by
  have h1 : qhat * vNext ≤ wordBase * wordBase := Nat.mul_le_mul hqhat.le hnext.le
  have h2 : wordBase * wordBase ≤ rhat * wordBase := Nat.mul_le_mul_right _ hrhat
  rw [← Nat.not_lt, ← refineDigit_test_iff hinv]
  omega

/-- With enough turns the refined estimate fits the three top words of the window. -/
theorem refineDigit_fits (k qhat rhat : Nat) (hinv : qhat * vTop + rhat = num) (hqhat : qhat < wordBase)
    (hnext : vNext < wordBase) (hturns : wordBase ≤ rhat + k * vTop) :
    refineDigit vTop vNext u0 k qhat rhat * (vTop * wordBase + vNext) ≤ num * wordBase + u0 := by
  induction k generalizing qhat rhat with
  | zero => exact fits_of_le_rhat hinv hqhat hnext (by omega)
  | succ k ih =>
    unfold refineDigit
    split
    · rename_i htest
      obtain ⟨hpos, hinv'⟩ := refineDigit_invariant hinv htest.2
      exact ih _ _ hinv' (by omega) (by rw [Nat.succ_mul] at hturns; omega)
    · rename_i htest
      by_cases hrhat : rhat < wordBase
      · rw [← Nat.not_lt, ← refineDigit_test_iff hinv]
        exact fun h => htest ⟨hrhat, h⟩
      · exact fits_of_le_rhat hinv hqhat hnext (by omega)

/-- Step 2 gives a digit that fits the three top words of the window, and no smaller one than `q`, whatever digit `q`
fits them (R178). -/
theorem estimateDigit_spec {u2 u1 : Nat} (hnorm : wordBase ≤ 2 * vTop) (hnext : vNext < wordBase) (htop : u2 ≤ vTop)
    (hq : q * (vTop * wordBase + vNext) ≤ (u2 * wordBase + u1) * wordBase + u0) (hu0 : u0 < wordBase)
    (hu1 : u1 < wordBase) (hdigit : q < wordBase) :
    q ≤ estimateDigit vTop vNext u2 u1 u0 ∧ estimateDigit vTop vNext u2 u1 u0 < wordBase ∧
    estimateDigit vTop vNext u2 u1 u0 * (vTop * wordBase + vNext) ≤ (u2 * wordBase + u1) * wordBase + u0 := by
  unfold estimateDigit
  set num := u2 * wordBase + u1 with hnum
  set qhat := if u2 ≥ vTop then wordBase - 1 else num / vTop with hqhat
  have hpos : 0 < vTop := by have := wordBase_pos; omega
  have hqtop : q * vTop ≤ num := by
    have h1 : q * vTop * wordBase ≤ q * (vTop * wordBase + vNext) := by
      rw [Nat.mul_add, ← Nat.mul_assoc]
      omega
    have h2 : q * vTop * wordBase < (num + 1) * wordBase := by
      rw [Nat.succ_mul]
      omega
    exact Nat.lt_succ_iff.1 (Nat.lt_of_mul_lt_mul_right h2)
  obtain ⟨hlt, hsplit, hle⟩ : qhat < wordBase ∧ qhat * vTop ≤ num ∧ q ≤ qhat := by
    rw [hqhat]
    split
    · rename_i h
      have : u2 = vTop := by omega
      refine ⟨Nat.sub_lt wordBase_pos Nat.one_pos, ?_, by omega⟩
      calc (wordBase - 1) * vTop ≤ wordBase * vTop := Nat.mul_le_mul_right _ (Nat.sub_le _ _)
        _ = u2 * wordBase := by rw [this, Nat.mul_comm]
        _ ≤ num := by omega
    · rename_i h
      refine ⟨?_, Nat.div_mul_le_self _ _, (Nat.le_div_iff_mul_le hpos).2 hqtop⟩
      rw [Nat.div_lt_iff_lt_mul hpos]
      calc num < (u2 + 1) * wordBase := by rw [Nat.succ_mul]; omega
        _ ≤ vTop * wordBase := Nat.mul_le_mul_right _ (by omega)
        _ = wordBase * vTop := Nat.mul_comm _ _
  have hinv : qhat * vTop + (num - qhat * vTop) = num := Nat.add_sub_cancel' hsplit
  exact ⟨le_refineDigit hq _ _ _ hinv hle, (refineDigit_le _ _ _).trans_lt hlt,
    refineDigit_fits _ _ _ hinv hlt hnext (by omega)⟩

end Estimate

/-- An estimate that fits the leading digits of `w` by those of `v` is at most one above the digit (R178). -/
theorem le_div_add_one_of_fits {v w p qhat : Nat} (hp : 0 < p) (hv : 0 < v) (hbig : qhat ≤ v / p + 1)
    (hfits : qhat * (v / p) ≤ w / p) : qhat ≤ w / v + 1 := by
  obtain _ | k := qhat
  · exact Nat.zero_le _
  · refine Nat.succ_le_succ ((Nat.le_div_iff_mul_le hv).2 ?_)
    have hvp : v ≤ (v / p + 1) * p := by
      rw [Nat.mul_comm]
      exact (Nat.lt_mul_div_succ v hp).le
    calc k * v ≤ k * ((v / p + 1) * p) := Nat.mul_le_mul_left _ hvp
      _ = (k * (v / p) + k) * p := by ring
      _ ≤ ((k + 1) * (v / p)) * p := Nat.mul_le_mul_right _ (by rw [Nat.succ_mul]; omega)
      _ ≤ w / p * p := Nat.mul_le_mul_right _ hfits
      _ ≤ w := Nat.div_mul_le_self _ _

/-- The digit fits the leading digits. -/
theorem div_mul_div_le (v w p : Nat) (hp : 0 < p) : w / v * (v / p) ≤ w / p := by
  rw [Nat.le_div_iff_mul_le hp, Nat.mul_assoc]
  calc w / v * (v / p * p) ≤ w / v * v := Nat.mul_le_mul_left _ (Nat.div_mul_le_self _ _)
    _ ≤ w := Nat.div_mul_le_self _ _

/-- The top word of a sequence of `k + 1` words. -/
theorem leNat_top_one {ws : List Word} {k : Nat} (hl : ws.length = k + 1) :
    leNat ws / wordBase ^ k = (ws.getD k 0#32).toNat := by
  rw [leNat_div_pow_eq ws k (by omega), ← hl, leNat_div_pow_length, Nat.zero_mul, Nat.zero_add]

/-- The two top words of a sequence of `k + 2` words. -/
theorem leNat_top_two {ws : List Word} {k : Nat} (hl : ws.length = k + 2) :
    leNat ws / wordBase ^ k = (ws.getD (k + 1) 0#32).toNat * wordBase + (ws.getD k 0#32).toNat := by
  rw [leNat_div_pow_eq ws k (by omega), leNat_top_one (k := k + 1) hl]

/-- The three top words of a sequence of `k + 3` words. -/
theorem leNat_top_three {ws : List Word} {k : Nat} (hl : ws.length = k + 3) :
    leNat ws / wordBase ^ k = ((ws.getD (k + 2) 0#32).toNat * wordBase + (ws.getD (k + 1) 0#32).toNat) * wordBase +
      (ws.getD k 0#32).toNat := by
  rw [leNat_div_pow_eq ws k (by omega), leNat_top_two (k := k + 1) hl]

/-! ### Steps 2 to 5: one digit -/

/-- The divisor of Algorithm D after Step 1: at least two words, the top bit of the top one set (R178). -/
structure Normalized (vn : List Word) : Prop where
  two_le_length : 2 ≤ vn.length
  half_le_top : wordBase ≤ 2 * (vn.getD (vn.length - 1) 0#32).toNat

/-- The estimate of `knuthDigit`: the digit, or one more (R178). -/
theorem estimateDigit_near {vn window : List Word} (hn : Normalized vn) (hl : window.length = vn.length + 1)
    (hlt : leNat window < wordBase * leNat vn) :
    let qhat := estimateDigit (vn.getD (vn.length - 1) 0#32).toNat (vn.getD (vn.length - 2) 0#32).toNat
      (window.getD vn.length 0#32).toNat (window.getD (vn.length - 1) 0#32).toNat
      (window.getD (vn.length - 2) 0#32).toNat
    leNat window / leNat vn ≤ qhat ∧ qhat ≤ leNat window / leNat vn + 1 ∧ qhat < wordBase := by
  obtain ⟨htwo, hhalf⟩ := hn
  obtain ⟨k, hk⟩ := Nat.exists_eq_add_of_le' htwo
  have hp : 0 < wordBase ^ k := Nat.pow_pos wordBase_pos
  have hD := leNat_top_two hk
  have hT := leNat_top_three (k := k) (ws := window) (by omega)
  have hfit := div_mul_div_le (leNat vn) (leNat window) _ hp
  rw [hD, hT] at hfit
  simp only [hk, Nat.add_sub_cancel, show k + 2 - 1 = k + 1 from rfl] at hhalf ⊢
  have hV : 0 < leNat vn := by
    rcases Nat.eq_zero_or_pos (leNat vn) with h | h
    · rw [h] at hlt
      omega
    · exact h
  have htop : (window.getD (k + 2) 0#32).toNat ≤ (vn.getD (k + 1) 0#32).toNat := by
    rw [← leNat_top_one (k := k + 2) (by omega), ← leNat_top_one (k := k + 1) (by omega)]
    calc leNat window / wordBase ^ (k + 2) ≤ wordBase * leNat vn / wordBase ^ (k + 2) := Nat.div_le_div_right hlt.le
      _ = leNat vn / wordBase ^ (k + 1) := by rw [Nat.pow_succ', Nat.mul_div_mul_left _ _ wordBase_pos]
  obtain ⟨h1, h2, h3⟩ := estimateDigit_spec hhalf (vn.getD k 0#32).isLt htop hfit (window.getD k 0#32).isLt
    (window.getD (k + 1) 0#32).isLt ((Nat.div_lt_iff_lt_mul hV).2 hlt)
  refine ⟨h1, le_div_add_one_of_fits hp hV ?_ ?_, h2⟩
  · rw [hD]
    have : wordBase ≤ (vn.getD (k + 1) 0#32).toNat * wordBase := Nat.le_mul_of_pos_left _ (by have := wordBase_pos; omega)
    omega
  · rw [hD, hT]
    exact h3

/-- `knuthDigit`, with the parts of its pairs named. -/
theorem knuthDigit_eq (vn window : List Word) :
    ∃ qhat, qhat = estimateDigit (vn.getD (vn.length - 1) 0#32).toNat (vn.getD (vn.length - 2) 0#32).toNat
        (window.getD vn.length 0#32).toNat (window.getD (vn.length - 1) 0#32).toNat
        (window.getD (vn.length - 2) 0#32).toNat ∧
      knuthDigit vn window = if (mulSub qhat vn window 0 0).2 then
        (addBack vn (mulSub qhat vn window 0 0).1 0, BitVec.ofNat 32 (qhat - 1))
      else ((mulSub qhat vn window 0 0).1, BitVec.ofNat 32 qhat) :=
  ⟨_, rfl, rfl⟩

/-- Steps 2 to 5 leave the remainder of the window by the divisor, and give the quotient as the digit (R178). -/
theorem knuthDigit_spec {vn window : List Word} (hn : Normalized vn) (hl : window.length = vn.length + 1)
    (hlt : leNat window < wordBase * leNat vn) :
    leNat (knuthDigit vn window).1 = leNat window % leNat vn ∧
    (knuthDigit vn window).2.toNat = leNat window / leNat vn ∧
    (knuthDigit vn window).1.length = vn.length + 1 := by
  obtain ⟨qhat, hqhat, hdef⟩ := knuthDigit_eq vn window
  obtain ⟨hge, hle, hbase⟩ := estimateDigit_near hn hl hlt
  rw [← hqhat] at hge hle hbase
  obtain ⟨hval, hlow, hlen⟩ := mulSub_spec qhat vn window 0 0 hbase hl wordBase_pos (Or.inl rfl)
  have hsplit := Nat.div_add_mod (leNat window) (leNat vn)
  have hmod : leNat window % leNat vn < leNat vn := Nat.mod_lt _ (Nat.pos_of_ne_zero fun h => by
    rw [h] at hlt
    omega)
  have hV : leNat vn < wordBase ^ (vn.length + 1) :=
    (leNat_lt vn).trans_le (Nat.pow_le_pow_right wordBase_pos (Nat.le_succ _))
  have hdiff : (leNat window : Int) - qhat * leNat vn - (0 : Nat) - 0 =
      (leNat window % leNat vn : Nat) - ((qhat : Int) - (leNat window / leNat vn : Nat)) * leNat vn := by
    have hsplit' : (leNat vn : Int) * (leNat window / leNat vn : Nat) + (leNat window % leNat vn : Nat) =
        leNat window := by exact_mod_cast hsplit
    linear_combination -hsplit'
  rw [hdiff, ← Nat.cast_pow] at hval
  rw [hdef, hlow, hdiff]
  generalize leNat window / leNat vn = q at *
  generalize leNat window % leNat vn = r at *
  rcases Nat.eq_or_lt_of_le hle with rfl | hexact
  · have hone : ((q + 1 : Nat) : Int) - q = 1 := by omega
    rw [hone, Int.one_mul] at hval ⊢
    rw [if_pos (decide_eq_true (by omega))]
    obtain ⟨hback, hbacklen⟩ := leNat_addBack vn _ 0 hlen (Nat.zero_le _)
    rw [← Int.add_emod_right, Int.emod_eq_of_lt (by omega) (by omega)] at hval
    refine ⟨?_, ?_, hbacklen⟩
    · have hsum : leNat (mulSub (q + 1) vn window 0 0).1 + leNat vn + 0 = r + wordBase ^ (vn.length + 1) := by omega
      rw [hback, hsum, Nat.add_mod_right, Nat.mod_eq_of_lt (by omega)]
    · rw [toNat_ofNat_word, Nat.add_sub_cancel, Nat.mod_eq_of_lt (by omega)]
  · obtain rfl : qhat = q := by omega
    rw [Int.sub_self, Int.zero_mul, Int.sub_zero] at hval ⊢
    rw [if_neg (by simp)]
    rw [Int.emod_eq_of_lt (by omega) (by omega)] at hval
    exact ⟨by exact_mod_cast hval, by rw [toNat_ofNat_word, Nat.mod_eq_of_lt hbase], hlen⟩

/-! ### The loop over the output positions -/

/-- The dividend array after the digit at position `j` (R178, Steps 2 to 5). -/
def afterDigit (vn un : List Word) (j : Nat) : List Word :=
  un.take j ++ (knuthDigit vn ((un.drop j).take (vn.length + 1))).1 ++ un.drop (j + vn.length + 1)

theorem knuthLoop_succ (vn un : List Word) (j : Nat) :
    knuthLoop vn (j + 1) un = ((knuthLoop vn j (afterDigit vn un j)).1,
      (knuthDigit vn ((un.drop j).take (vn.length + 1))).2 :: (knuthLoop vn j (afterDigit vn un j)).2) := rfl

/-- The window at a position is its lowest word and the remainder left by the position above, so it is in the range of
one digit. -/
theorem window_lt {vn un : List Word} {j : Nat} (hl : j + 1 + vn.length ≤ un.length)
    (htop : leNat ((un.drop (j + 1)).take vn.length) < leNat vn) :
    leNat ((un.drop j).take (vn.length + 1)) < wordBase * leNat vn := by
  have hw : (un[j]'(by omega)).toNat < wordBase := (un[j]'(by omega)).isLt
  rw [List.drop_eq_getElem_cons (by omega), List.take_succ_cons, leNat]
  calc un[j].toNat + wordBase * leNat ((un.drop (j + 1)).take vn.length)
      < wordBase + wordBase * leNat ((un.drop (j + 1)).take vn.length) := by omega
    _ = wordBase * (leNat ((un.drop (j + 1)).take vn.length) + 1) := by ring
    _ ≤ wordBase * leNat vn := Nat.mul_le_mul_left _ htop

/-- The loop divides the words below position `j + n` of the dividend array by the divisor: the digits are the quotient
and the `n` low words are left as the remainder (R178). -/
theorem knuthLoop_spec {vn : List Word} (hn : Normalized vn) (j : Nat) (un : List Word)
    (hl : j + vn.length ≤ un.length) (htop : leNat ((un.drop j).take vn.length) < leNat vn) :
    leNat (un.take (j + vn.length)) =
      leNat vn * magNat (knuthLoop vn j un).2 + leNat ((knuthLoop vn j un).1.take vn.length) ∧
    leNat ((knuthLoop vn j un).1.take vn.length) < leNat vn ∧ (knuthLoop vn j un).2.length = j := by
  induction j generalizing un with
  | zero => exact ⟨by simp [knuthLoop], by simpa [knuthLoop] using htop, rfl⟩
  | succ j ih =>
    have hwin := window_lt hl htop
    have hlo : (un.take j).length = j := by
      rw [List.length_take]
      omega
    have hwl : ((un.drop j).take (vn.length + 1)).length = vn.length + 1 := by
      rw [List.length_take, List.length_drop]
      omega
    obtain ⟨hr, hq, hlen⟩ := knuthDigit_spec hn hwl hwin
    have hcut : leNat (un.take (j + 1 + vn.length)) =
        leNat (un.take j) + wordBase ^ j * leNat ((un.drop j).take (vn.length + 1)) := by
      rw [show j + 1 + vn.length = j + (vn.length + 1) by omega, List.take_add, leNat_append, hlo]
    rw [knuthLoop_succ]
    generalize hwindow : (un.drop j).take (vn.length + 1) = window at *
    have hsplit := Nat.div_add_mod (leNat window) (leNat vn)
    have hmod : leNat window % leNat vn < leNat vn := Nat.mod_lt _ (Nat.pos_of_ne_zero fun h => by
      rw [h] at hwin
      omega)
    have hkept : leNat ((knuthDigit vn window).1.take vn.length) = leNat window % leNat vn := by
      rw [← leNat_mod_pow _ _ (by omega), hr, Nat.mod_eq_of_lt (hmod.trans (leNat_lt vn))]
    have hdrop : (afterDigit vn un j).drop j = (knuthDigit vn window).1 ++ un.drop (j + vn.length + 1) := by
      rw [afterDigit, hwindow, List.append_assoc, List.drop_left' hlo]
    have htake : ((afterDigit vn un j).drop j).take vn.length = (knuthDigit vn window).1.take vn.length := by
      rw [hdrop, List.take_append_of_le_length (by omega)]
    have hlow : (afterDigit vn un j).take j = un.take j := by
      rw [afterDigit, List.append_assoc, List.take_left' hlo]
    have hlength : j + vn.length ≤ (afterDigit vn un j).length := by
      have := congrArg List.length hdrop
      rw [List.length_drop, List.length_append] at this
      omega
    obtain ⟨h1, h2, h3⟩ := ih (afterDigit vn un j) hlength (by rw [htake, hkept]; exact hmod)
    refine ⟨?_, h2, by simp [h3]⟩
    rw [List.take_add, leNat_append, htake, hkept, hlow, hlo] at h1
    rw [hcut, magNat_cons, h3, hq]
    have hscaled : wordBase ^ j * (leNat vn * (leNat window / leNat vn) + leNat window % leNat vn) =
        wordBase ^ j * leNat window := by rw [hsplit]
    linear_combination h1 - hscaled

/-! ### Steps 1 and 6: normalizing -/

/-- Shifted left by `clz32`, a nonzero word has its top bit set and loses none. -/
theorem clz32_spec {w : Word} (h : w ≠ 0#32) :
    wordBase ≤ 2 * (w.toNat * 2 ^ clz32 w) ∧ (w.toNat + 1) * 2 ^ clz32 w ≤ wordBase := by
  have hne : w.toNat ≠ 0 := fun h0 => h (BitVec.eq_of_toNat_eq (by simpa using h0))
  have hlog : w.toNat.log2 < 32 := (Nat.log2_lt hne).2 w.isLt
  have hpow : wordBase = 2 ^ (w.toNat.log2 + 1) * 2 ^ clz32 w := by
    rw [← Nat.pow_add, clz32, show w.toNat.log2 + 1 + (31 - w.toNat.log2) = 32 by omega]
  constructor
  · rw [hpow, Nat.pow_succ', Nat.mul_assoc]
    exact Nat.mul_le_mul_left _ (Nat.mul_le_mul_right _ (Nat.log2_self_le hne))
  · rw [hpow]
    exact Nat.mul_le_mul_right _ Nat.lt_log2_self

/-- The scale of Step 1. -/
def knuthScale (v : List Word) : Nat := 2 ^ clz32 (v.headD 0#32)

theorem knuthScale_pos (v : List Word) : 0 < knuthScale v := Nat.two_pow_pos _

theorem knuthScale_lt (v : List Word) : knuthScale v < wordBase :=
  calc knuthScale v ≤ 2 ^ 31 := Nat.pow_le_pow_right Nat.two_pos (Nat.sub_le _ _)
    _ < wordBase := by decide

/-- The divisor after Step 1. -/
def scaledDivisor (v : List Word) : List Word := leWords v.length (magNat v * knuthScale v)

/-- The dividend after Step 1, with one word of headroom. -/
def scaledDividend (u v : List Word) : List Word :=
  leWords (u.length - v.length + v.length + 1) (magNat u * knuthScale v)

@[simp] theorem scaledDivisor_length (v : List Word) : (scaledDivisor v).length = v.length := leWords_length _ _

@[simp] theorem scaledDividend_length (u v : List Word) :
    (scaledDividend u v).length = u.length - v.length + v.length + 1 := leWords_length _ _

theorem divmagD_eq (u v : List Word) :
    divmagD u v = (stripZeros (knuthLoop (scaledDivisor v) (u.length - v.length + 1) (scaledDividend u v)).2,
      natMag (leNat ((knuthLoop (scaledDivisor v) (u.length - v.length + 1) (scaledDividend u v)).1.take v.length) /
        knuthScale v)) := rfl

/-- Step 1 gives a normalized divisor, with no bit lost (R178). -/
theorem scaledDivisor_spec {v : List Word} (hv : NoLeadingZero v) (htwo : 2 ≤ v.length) :
    Normalized (scaledDivisor v) ∧ leNat (scaledDivisor v) = magNat v * knuthScale v := by
  obtain ⟨w, ws, rfl⟩ := List.exists_cons_of_ne_nil (l := v) (by rintro rfl; simp at htwo)
  have hw : w ≠ 0#32 := fun h => hv (by rw [h]; rfl)
  obtain ⟨hhalf, hfit⟩ := clz32_spec hw
  have hB : 0 < wordBase ^ ws.length := Nat.pow_pos wordBase_pos
  have hlen : (scaledDivisor (w :: ws)).length = ws.length + 1 := leWords_length _ _
  have hlt : magNat (w :: ws) * knuthScale (w :: ws) < wordBase ^ (ws.length + 1) := by
    calc magNat (w :: ws) * 2 ^ clz32 w
        < (w.toNat + 1) * wordBase ^ ws.length * 2 ^ clz32 w := by
          refine Nat.mul_lt_mul_of_pos_right ?_ (Nat.two_pow_pos _)
          rw [magNat_cons, Nat.succ_mul]
          exact Nat.add_lt_add_left (magNat_lt ws) _
      _ = (w.toNat + 1) * 2 ^ clz32 w * wordBase ^ ws.length := by ring
      _ ≤ wordBase * wordBase ^ ws.length := Nat.mul_le_mul_right _ hfit
      _ = wordBase ^ (ws.length + 1) := by rw [Nat.pow_succ']
  have hval : leNat (scaledDivisor (w :: ws)) = magNat (w :: ws) * knuthScale (w :: ws) := by
    rw [scaledDivisor, leNat_leWords, List.length_cons, Nat.mod_eq_of_lt hlt]
  refine ⟨⟨hlen ▸ htwo, ?_⟩, hval⟩
  rw [hlen, Nat.add_sub_cancel, ← leNat_top_one hlen, hval]
  refine hhalf.trans (Nat.mul_le_mul_left _ ((Nat.le_div_iff_mul_le hB).2 ?_))
  calc w.toNat * 2 ^ clz32 w * wordBase ^ ws.length = w.toNat * wordBase ^ ws.length * 2 ^ clz32 w := by ring
    _ ≤ magNat (w :: ws) * 2 ^ clz32 w := Nat.mul_le_mul_right _ (by rw [magNat_cons]; exact Nat.le_add_right _ _)

/-- Step 1 loses no bit of the dividend. -/
theorem leNat_scaledDividend {u v : List Word} (hlen : v.length ≤ u.length) :
    leNat (scaledDividend u v) = magNat u * knuthScale v := by
  rw [scaledDividend, leNat_leWords, Nat.sub_add_cancel hlen, Nat.pow_succ]
  exact Nat.mod_eq_of_lt (Nat.mul_lt_mul'' (magNat_lt u) (knuthScale_lt v))

/-- Before the first digit, what lies above the first window is less than the divisor. -/
theorem scaledDividend_top_lt {u v : List Word} (hv : NoLeadingZero v) (hne : v ≠ []) (hlen : v.length ≤ u.length) :
    leNat ((scaledDividend u v).drop (u.length - v.length + 1)) < magNat v * knuthScale v := by
  obtain ⟨w, ws, rfl⟩ := List.exists_cons_of_ne_nil hne
  rw [← leNat_div_pow _ _ (by simp), leNat_scaledDividend hlen, Nat.div_lt_iff_lt_mul (Nat.pow_pos wordBase_pos)]
  have hpow : wordBase ^ u.length = wordBase ^ ws.length * wordBase ^ (u.length - (w :: ws).length + 1) := by
    rw [← Nat.pow_add]
    congr 1
    simp only [List.length_cons] at *
    omega
  calc magNat u * knuthScale (w :: ws) < wordBase ^ u.length * knuthScale (w :: ws) :=
        Nat.mul_lt_mul_of_pos_right (magNat_lt u) (knuthScale_pos _)
    _ ≤ magNat (w :: ws) * wordBase ^ (u.length - (w :: ws).length + 1) * knuthScale (w :: ws) := by
        rw [hpow]
        exact Nat.mul_le_mul_right _ (Nat.mul_le_mul_right _ (pow_le_magNat hv))
    _ = magNat (w :: ws) * knuthScale (w :: ws) * wordBase ^ (u.length - (w :: ws).length + 1) := by ring

/-- The quotient and the remainder of two numbers scaled by one factor (R178, Step 6). -/
theorem div_of_scaled {u v q r c : Nat} (hc : 0 < c) (h : u * c = v * c * q + r) (hr : r < v * c) :
    u = v * q + r / c ∧ r / c < v := by
  obtain ⟨r', rfl⟩ : c ∣ r := (Nat.dvd_add_right (Dvd.intro_left (v * q) (by ring))).1 (h ▸ Dvd.intro_left u rfl)
  rw [Nat.mul_div_cancel_left _ hc]
  refine ⟨Nat.eq_of_mul_eq_mul_right hc (by linear_combination h), ?_⟩
  rw [Nat.mul_comm c] at hr
  exact Nat.lt_of_mul_lt_mul_right hr

/-- `divmagD` gives the quotient and the remainder, with no leading zero (R178, R179). -/
theorem divmagD_spec {u v : List Word} (hv : NoLeadingZero v) (htwo : 2 ≤ v.length) (hlen : v.length ≤ u.length) :
    magNat u = magNat v * magNat (divmagD u v).1 + magNat (divmagD u v).2 ∧
    magNat (divmagD u v).2 < magNat v ∧ NoLeadingZero (divmagD u v).1 ∧ NoLeadingZero (divmagD u v).2 := by
  obtain ⟨hn, hV⟩ := scaledDivisor_spec hv htwo
  have htop := scaledDividend_top_lt hv (by rintro rfl; simp at htwo) hlen
  obtain ⟨hdiv, hrem, -⟩ := knuthLoop_spec hn (u.length - v.length + 1) (scaledDividend u v)
    (by simp only [scaledDivisor_length, scaledDividend_length]; omega)
    (by
      rw [scaledDivisor_length, hV, List.take_of_length_le (by rw [List.length_drop, scaledDividend_length]; omega)]
      exact htop)
  rw [scaledDivisor_length, hV] at hdiv hrem
  rw [List.take_of_length_le (by rw [scaledDividend_length]; omega), leNat_scaledDividend hlen] at hdiv
  rw [divmagD_eq, magNat_stripZeros, magNat_natMag]
  obtain ⟨h1, h2⟩ := div_of_scaled (knuthScale_pos v) hdiv hrem
  exact ⟨h1, h2, stripZeros_noLeadingZero _, natMag_noLeadingZero _⟩

/-- `divmag1` gives the quotient and the remainder, with no leading zero (R177, R179). -/
theorem divmag1_spec (u : List Word) {d : Word} (hd : d ≠ 0#32) :
    magNat u = d.toNat * magNat (divmag1 u d).1 + magNat (divmag1 u d).2 ∧
    magNat (divmag1 u d).2 < d.toNat ∧ NoLeadingZero (divmag1 u d).1 ∧ NoLeadingZero (divmag1 u d).2 := by
  have hpos : 0 < d.toNat := Nat.pos_of_ne_zero fun h0 => hd (BitVec.eq_of_toNat_eq (by simpa using h0))
  obtain ⟨hdiv, hrem, -⟩ := divLoop1_spec d.toNat u 0 hpos
  rw [Nat.zero_mul, Nat.zero_add] at hdiv
  have hdef : divmag1 u d = (stripZeros (divLoop1 d.toNat u 0).1,
      if (divLoop1 d.toNat u 0).2 ≠ 0 then [BitVec.ofNat 32 (divLoop1 d.toNat u 0).2] else []) := rfl
  have hword : (BitVec.ofNat 32 (divLoop1 d.toNat u 0).2).toNat = (divLoop1 d.toNat u 0).2 := by
    rw [toNat_ofNat_word, Nat.mod_eq_of_lt (hrem.trans d.isLt)]
  have hmag : magNat (divmag1 u d).2 = (divLoop1 d.toNat u 0).2 := by
    rw [hdef]
    dsimp only
    split
    · rw [magNat_cons, magNat_nil, hword, List.length_nil, Nat.pow_zero, Nat.mul_one, Nat.add_zero]
    · rename_i h
      rw [magNat_nil, not_not.1 h]
  have hzero : NoLeadingZero (divmag1 u d).2 := by
    rw [hdef]
    dsimp only
    split
    · rename_i h
      intro hhead
      rw [List.head?_cons, Option.some_inj] at hhead
      rw [hhead] at hword
      exact h hword.symm
    · simp [NoLeadingZero]
  rw [hmag]
  exact ⟨by rw [hdef, magNat_stripZeros]; exact hdiv, hrem, by rw [hdef]; exact stripZeros_noLeadingZero _, hzero⟩

end Sys2Proof.Machine
end

section
/-! SUPPORT. Every command gives a canonical value for canonical operands (00_scope.md R10, 10_state.md R21). -/

namespace Sys2Proof.Machine

/-! ### Building canonical values -/

/-- A sign other than `ZERO` with a nonzero magnitude that has no leading zero. -/
theorem canonical_of_pos {sg : Sign} {m : List Word} (hs : sg ≠ .zero) (hz : NoLeadingZero m) (hp : 0 < magNat m) :
    ({ sign := sg, mag := m } : Value).canonical = true := by
  refine (canonical_iff _).2 ⟨hz, iff_of_false hs ?_⟩
  rintro rfl
  exact absurd hp (by simp)

theorem magNat_pos_of_canonical {a : Value} (ha : a.canonical = true) (hs : a.sign ≠ .zero) : 0 < magNat a.mag := by
  obtain ⟨hz, hiff⟩ := (canonical_iff a).1 ha
  exact magNat_pos_of_ne_nil hz fun h => hs (hiff.2 h)

/-- The magnitude of a canonical value under another sign, `ZERO` staying `ZERO`. -/
theorem canonical_of_mag {a : Value} (ha : a.canonical = true) {sg : Sign} (hs : sg = .zero ↔ a.sign = .zero) :
    ({ sign := sg, mag := a.mag } : Value).canonical = true := by
  obtain ⟨hz, hiff⟩ := (canonical_iff a).1 ha
  exact (canonical_iff _).2 ⟨hz, hs.trans hiff⟩

/-- The difference of a larger and a smaller magnitude, with a sign. -/
theorem canonical_submag {p m : List Word} {sg : Sign} (hs : sg ≠ .zero) (hm : NoLeadingZero m)
    (h : magNat m < magNat p) : ({ sign := sg, mag := submag p m } : Value).canonical = true := by
  have hlen : m.length ≤ p.length := length_le_of_magNat_le hm h.le
  refine canonical_of_pos hs (submag_noLeadingZero _ _) ?_
  rw [magNat_submag hlen h.le]
  omega

theorem Sign.opposite_eq_zero_iff (sg : Sign) : sg.opposite = .zero ↔ sg = .zero := by
  cases sg <;> simp [Sign.opposite]

theorem Sign.ofProduct_ne_zero (sg tg : Sign) : Sign.ofProduct sg tg ≠ .zero := by
  unfold Sign.ofProduct
  split <;> simp

/-! ### The normalizer and the two's-complement view (R120, R212) -/

/-- A number continued by further units is not zero if it, or one of the units, is not. -/
theorem foldl_units_pos {k : Nat} (u : List (BitVec k)) (acc : Nat) (h : 0 < acc ∨ ∃ t ∈ u, t.toNat ≠ 0) :
    0 < u.foldl (fun acc w => acc * 2 ^ k + w.toNat) acc := by
  induction u generalizing acc with
  | nil => simpa using h
  | cons w u ih =>
    refine ih _ ?_
    rcases h with h | ⟨t, ht, hne⟩
    · exact .inl (Nat.add_pos_left (Nat.mul_pos h (Nat.two_pow_pos k)) _)
    · rcases List.mem_cons.1 ht with rfl | ht
      · exact .inl (Nat.add_pos_right _ (Nat.pos_of_ne_zero hne))
      · exact .inr ⟨t, ht, hne⟩

/-- A string of units with a nonzero unit stands for a nonzero number. -/
theorem unitsNat_pos {k : Nat} {u : List (BitVec k)} (h : ∃ t ∈ u, t.toNat ≠ 0) : 0 < unitsNat u :=
  foldl_units_pos u 0 (.inr h)

/-- A string plus 1 has a nonzero unit: the increment stops at one, or runs out into the extra unit 1. -/
theorem incUnits_one_ne_zero {k : Nat} (hk : 0 < k) (u : List (BitVec k)) : ∃ t ∈ incUnits u 1, t.toNat ≠ 0 := by
  have hone : 1 < 2 ^ k := Nat.one_lt_two_pow hk.ne'
  induction u with
  | nil => exact ⟨1#k, by simp [incUnits], by simp [Nat.mod_eq_of_lt hone]⟩
  | cons t u ih =>
    rw [incUnits]
    rcases Nat.lt_or_ge (t.toNat + 1) (2 ^ k) with h | h
    · exact ⟨_, List.mem_cons_self, by rw [BitVec.toNat_ofNat, Nat.mod_eq_of_lt h]; omega⟩
    · have hcarry : (t.toNat + 1) / 2 ^ k = 1 := by
        have : t.toNat + 1 = 2 ^ k := Nat.le_antisymm t.isLt h
        rw [this, Nat.div_self (Nat.two_pow_pos k)]
      obtain ⟨r, hr, hne⟩ := ih
      exact ⟨r, List.mem_cons_of_mem _ (by rw [hcarry]; exact hr), hne⟩

theorem canonical_normUnits {k : Nat} (u : List (BitVec k)) : (normUnits u).canonical = true := by
  unfold normUnits
  split
  · rename_i hmsb
    have hk : 0 < k := Nat.pos_of_ne_zero fun h => by
      subst h
      simp [BitVec.of_length_zero] at hmsb
    obtain ⟨t, ht, hne⟩ :=
      incUnits_one_ne_zero hk ((u.dropWhile (· == BitVec.allOnes k)).map (~~~ ·)).reverse
    exact canonical_of_pos (by decide) (natMag_noLeadingZero _) (by
      rw [magNat_natMag]
      exact unitsNat_pos ⟨t, List.mem_reverse.2 ht, hne⟩)
  · exact canonical_canon _

theorem canonical_norm {k : Nat} {u : List (BitVec k)} {a : Value} (h : norm u = .ok a) : a.canonical = true := by
  rw [((norm_ok_iff u a).1 h).2]
  exact canonical_normUnits u

theorem canonical_fromtc (t : List Word) : (fromtc t).canonical = true := canonical_normUnits _

theorem canonical_bitop (f : Word → Word → Word) (a b : Value) : (bitop f a b).canonical = true := canonical_fromtc _

theorem canonical_notValue (a : Value) : (notValue a).canonical = true := canonical_fromtc _

theorem canonical_bitEdit (f : Word → Word) (a : Value) (pos : Nat) : (bitEdit f a pos).canonical = true :=
  canonical_fromtc _

/-! ### Constants and comparison (R24, R143, R144) -/

theorem canonical_poolConst {k : BitVec 16} {a : Value} (h : poolConst k = some a) : a.canonical = true := by
  unfold poolConst at h
  split at h
  · exact Option.some_inj.1 h ▸ canonical_zeroValue
  · exact Option.some_inj.1 h ▸ canonical_oneValue
  · exact Option.some_inj.1 h ▸ canonical_twoValue
  · exact Option.some_inj.1 h ▸ canonical_minusOneValue
  · nomatch h

section Operands

variable {a b : Value} (ha : a.canonical = true) (hb : b.canonical = true)
include ha

theorem cmpmag_canonical (hb : b.canonical = true) : cmpmag a.mag b.mag = compare (magNat a.mag) (magNat b.mag) :=
  cmpmag_eq (noLeadingZero_of_canonical ha) (noLeadingZero_of_canonical hb)

theorem canonical_flipSign : (flipSign a).canonical = true :=
  canonical_of_mag ha (Sign.opposite_eq_zero_iff a.sign)

theorem canonical_absValue : (absValue a).value.canonical = true := by
  unfold absValue
  split
  · rename_i h
    exact canonical_of_mag ha (by simp [h])
  · exact ha

/-- The floor of the value over a power of two, or the value times one (R226). -/
theorem canonical_shiftValue (n : Int) : (shiftValue a n).canonical = true := by
  have hz := noLeadingZero_of_canonical ha
  unfold shiftValue
  split
  · exact ha
  · rename_i h
    have hsign : a.sign ≠ .zero := fun h0 => h (.inl h0)
    have hpos := magNat_pos_of_canonical ha hsign
    have hne : a.mag ≠ [] := fun h0 => by simp [h0] at hpos
    split
    · refine canonical_of_pos hsign (shlmag_noLeadingZero hz hne _) ?_
      rw [magNat_shlmag]
      exact Nat.mul_pos hpos (Nat.two_pow_pos _)
    · obtain ⟨hq, hlost, hqz⟩ := shrmag_spec a.mag (-n).toNat
      generalize shrmag a.mag (-n).toNat = r at *
      obtain ⟨q, lost⟩ := r
      dsimp only at *
      split
      · split
        · exact canonical_zeroValue
        · rename_i hempty
          exact canonical_of_pos (by decide) hqz (magNat_pos_of_ne_nil hqz fun h0 => hempty (by simp [h0]))
      · split
        · refine canonical_of_pos (by decide) (addmag_noLeadingZero hqz (by decide)) ?_
          rw [magNat_addmag]
          exact Nat.add_pos_right _ (by decide)
        · rename_i hkept
          refine canonical_of_pos (by decide) hqz ?_
          have hexact : magNat a.mag % 2 ^ (-n).toNat = 0 := by
            by_contra h0
            exact hkept (hlost.2 h0)
          rw [hq]
          exact Nat.div_pos (Nat.le_of_dvd hpos (Nat.dvd_of_mod_eq_zero hexact)) (Nat.two_pow_pos _)

include hb

theorem canonical_minValue : (minValue a b).value.canonical = true := by
  unfold minValue
  split
  · exact hb
  · exact ha

theorem canonical_maxValue : (maxValue a b).value.canonical = true := by
  unfold maxValue
  split
  · exact hb
  · exact ha

/-! ### Addition and multiplication (R152, R153, R166) -/

theorem canonical_addNonzero (hsa : a.sign ≠ .zero) (hsb : b.sign ≠ .zero) : (addNonzero a b).canonical = true := by
  have hza := noLeadingZero_of_canonical ha
  have hzb := noLeadingZero_of_canonical hb
  have hpos := magNat_pos_of_canonical ha hsa
  unfold addNonzero
  split
  · refine canonical_of_pos hsa (addmag_noLeadingZero hza hzb) ?_
    rw [magNat_addmag]
    omega
  · rw [cmpmag_canonical ha hb]
    split
    · exact canonical_zeroValue
    · rename_i hcmp
      exact canonical_submag hsa hzb (Nat.compare_eq_gt.1 hcmp)
    · rename_i hcmp
      exact canonical_submag hsb hza (Nat.compare_eq_lt.1 hcmp)

theorem canonical_addValues : (addValues a b).value.canonical = true := by
  unfold addValues
  split
  · exact hb
  · split
    · exact ha
    · rename_i hsa hsb
      exact canonical_addNonzero ha hb hsa hsb

theorem canonical_subValues : (subValues a b).value.canonical = true :=
  canonical_addValues ha (canonical_flipSign hb)

theorem canonical_mulValues : (mulValues a b).value.canonical = true := by
  unfold mulValues
  split
  · exact canonical_zeroValue
  · rename_i h
    obtain ⟨hsa, hsb⟩ := not_or.1 h
    have hpa := magNat_pos_of_canonical ha hsa
    have hpb := magNat_pos_of_canonical hb hsb
    refine canonical_of_pos (Sign.ofProduct_ne_zero _ _)
      (mulmag_noLeadingZero (noLeadingZero_of_canonical ha) (noLeadingZero_of_canonical hb) ?_ ?_) ?_
    · rintro h0
      simp [h0] at hpa
    · rintro h0
      simp [h0] at hpb
    · rw [magNat_mulmag]
      exact Nat.mul_pos hpa hpb

/-! ### Division (R175, R183) -/

omit ha in
/-- The divider that `divLong` chooses gives the quotient and the remainder (R175, R179). -/
theorem divLong_mags (hsb : b.sign ≠ .zero) (hlt : magNat b.mag < magNat a.mag) :
    ∃ q r : List Word, divLong a b =
      { q := { value := { sign := Sign.ofProduct a.sign b.sign, mag := q }, src := .fresh }
        r := { value := if r.isEmpty then zeroValue else { sign := a.sign, mag := r }, src := .fresh } } ∧
      magNat a.mag = magNat b.mag * magNat q + magNat r ∧ magNat r < magNat b.mag ∧ NoLeadingZero q ∧
      NoLeadingZero r := by
  have hzb := noLeadingZero_of_canonical hb
  have hpos := magNat_pos_of_canonical hb hsb
  refine ⟨(if b.len = 1 then divmag1 a.mag (b.mag.headD 0#32) else divmagD a.mag b.mag).1,
    (if b.len = 1 then divmag1 a.mag (b.mag.headD 0#32) else divmagD a.mag b.mag).2, rfl, ?_⟩
  split
  · rename_i h
    obtain ⟨d, hd⟩ := List.length_eq_one_iff.1 h
    have hne : d ≠ 0#32 := fun h0 => hzb (by rw [hd, h0]; rfl)
    have hmag : magNat b.mag = d.toNat := by simp [hd, magNat_cons]
    rw [hmag, hd, List.headD_cons]
    exact divmag1_spec a.mag hne
  · rename_i h
    have hne : b.mag.length ≠ 0 := fun h0 => by simp [List.length_eq_zero_iff.1 h0] at hpos
    rw [Value.len] at h
    exact divmagD_spec hzb (by omega) (length_le_of_magNat_le hzb hlt.le)

/-- A canonical quotient and remainder, the remainder of smaller magnitude than the divisor. -/
def DivResult.Good (b : Value) (d : DivResult) : Prop :=
  d.q.value.canonical = true ∧ d.r.value.canonical = true ∧ magNat d.r.value.mag < magNat b.mag

omit ha in
theorem good_divLong (hsa : a.sign ≠ .zero) (hsb : b.sign ≠ .zero) (hlt : magNat b.mag < magNat a.mag) :
    (divLong a b).Good b := by
  obtain ⟨q, r, hdef, hdiv, hrem, hzq, hzr⟩ := divLong_mags hb hsb hlt
  have hq : 0 < magNat q := Nat.pos_of_ne_zero fun h0 => by
    rw [h0] at hdiv
    omega
  rw [hdef]
  refine ⟨canonical_of_pos (Sign.ofProduct_ne_zero _ _) hzq hq, ?_⟩
  dsimp only
  split
  · exact ⟨canonical_zeroValue, magNat_pos_of_canonical hb hsb⟩
  · rename_i hempty
    exact ⟨canonical_of_pos hsa hzr (magNat_pos_of_ne_nil hzr fun h0 => hempty (by simp [h0])), hrem⟩

theorem good_divrem {d : DivResult} (h : divrem a b = .ok d) : d.Good b := by
  unfold divrem at h
  split at h
  · nomatch h
  rename_i hsb
  have hpos := magNat_pos_of_canonical hb hsb
  split at h
  · obtain rfl := Except.ok.inj h
    refine ⟨canonical_of_mag ha ?_, canonical_zeroValue, hpos⟩
    split
    · rfl
    · exact Sign.opposite_eq_zero_iff _
  split at h
  · obtain rfl := Except.ok.inj h
    exact ⟨canonical_zeroValue, canonical_zeroValue, hpos⟩
  rename_i hsa
  rw [cmpmag_canonical ha hb] at h
  split at h
  · rename_i hcmp
    obtain rfl := Except.ok.inj h
    exact ⟨canonical_zeroValue, ha, Nat.compare_eq_lt.1 hcmp⟩
  · obtain rfl := Except.ok.inj h
    refine ⟨?_, canonical_zeroValue, hpos⟩
    dsimp only
    split
    · exact canonical_oneValue
    · exact canonical_minusOneValue
  · rename_i hcmp
    obtain rfl := Except.ok.inj h
    exact good_divLong hb hsa hsb (Nat.compare_eq_gt.1 hcmp)

theorem canonical_modValues {r : Reported} (h : modValues a b = .ok r) : r.value.canonical = true := by
  unfold modValues at h
  split at h
  · nomatch h
  obtain ⟨d, hd, h⟩ := (bind_ok_iff _ _ _).1 h
  obtain ⟨-, hr, hlt⟩ := good_divrem ha hb hd
  split at h
  · obtain rfl := Except.ok.inj h
    exact canonical_submag (by decide) (noLeadingZero_of_canonical hr) hlt
  · obtain rfl := Except.ok.inj h
    exact hr

end Operands

/-! ### The power (R201) -/

theorem canonical_powBits {a : Value} (ha : a.canonical = true) (e n : Nat) {acc : Value}
    (hacc : acc.canonical = true) : (powBits a e n acc).canonical = true := by
  induction n generalizing acc with
  | zero => exact hacc
  | succ n ih =>
    have hsq := canonical_mulValues hacc hacc
    refine ih ?_
    split
    · exact canonical_mulValues hsq ha
    · exact hsq

theorem canonical_powValue {a : Value} (ha : a.canonical = true) {e : Int} {r : Reported}
    (h : powValue a e = .ok r) : r.value.canonical = true := by
  unfold powValue at h
  split at h
  · nomatch h
  split at h
  · exact Except.ok.inj h ▸ canonical_oneValue
  split at h
  · exact Except.ok.inj h ▸ ha
  split at h
  · exact Except.ok.inj h ▸ canonical_zeroValue
  · exact Except.ok.inj h ▸ canonical_powBits ha _ _ canonical_oneValue

end Sys2Proof.Machine
end

section
/-! SUPPORT. The fields of `STATUS` and the bits of `ERRLOG` (10_state.md R28, R31, R32; 60_exceptions.md R291). -/

namespace Sys2Proof.Machine

/-! ### `STATUS` -/

theorem Rsrc.code_le (a : Rsrc) : a.code ≤ 5 := by cases a <;> decide

theorem ErrorKind.code_pos (e : ErrorKind) : 0 < e.code := by cases e <;> decide

theorem ErrorKind.code_le (e : ErrorKind) : e.code ≤ 14 := by cases e <;> decide

theorem statusOk_toNat (a b : Rsrc) : (statusOk a b).toNat = a.code * 2 ^ 8 + b.code * 2 ^ 11 := by
  have ha := a.code_le
  have hb := b.code_le
  rw [statusOk, BitVec.toNat_ofNat, Nat.mod_eq_of_lt (by omega)]

theorem statusError_toNat (e : ErrorKind) : (statusError e).toNat = e.code := by
  have := e.code_le
  rw [statusError, BitVec.toNat_ofNat, Nat.mod_eq_of_lt (by omega)]

/-- A normal end has `ERR = 0` (R28). -/
@[simp] theorem slice_statusOk_err (a b : Rsrc) : slice (statusOk a b) 7 0 = 0 := by
  rw [slice, statusOk_toNat]
  omega

@[simp] theorem slice_statusOk_rsrc (a b : Rsrc) : slice (statusOk a b) 10 8 = a.code := by
  have := a.code_le
  rw [slice, statusOk_toNat]
  omega

@[simp] theorem slice_statusOk_rsrc2 (a b : Rsrc) : slice (statusOk a b) 13 11 = b.code := by
  have ha := a.code_le
  have hb := b.code_le
  rw [slice, statusOk_toNat]
  omega

@[simp] theorem slice_statusOk_reserved (a b : Rsrc) : slice (statusOk a b) 31 14 = 0 := by
  have ha := a.code_le
  have hb := b.code_le
  rw [slice, statusOk_toNat]
  omega

/-- An error has `ERR` the code (R28, R300). -/
@[simp] theorem slice_statusError_err (e : ErrorKind) : slice (statusError e) 7 0 = e.code := by
  have := e.code_le
  rw [slice, statusError_toNat]
  omega

/-- An error has no bit above `ERR` (R28, R300). -/
theorem slice_statusError_above (e : ErrorKind) (hi lo : Nat) (h : 8 ≤ lo) : slice (statusError e) hi lo = 0 := by
  have hlt : e.code < 2 ^ lo :=
    calc e.code < 2 ^ 8 := by have := e.code_le; omega
      _ ≤ 2 ^ lo := Nat.pow_le_pow_right Nat.two_pos h
  rw [slice, statusError_toNat, Nat.div_eq_of_lt hlt, Nat.zero_mod]

theorem legalStatus_statusOk (a b : Rsrc) : legalStatus (statusOk a b) = true := by
  simp [legalStatus, a.code_le, b.code_le]

theorem legalStatus_statusError {e : ErrorKind} (h : e.code ≤ 11) : legalStatus (statusError e) = true := by
  simp [legalStatus, slice_statusError_above, h]

/-! ### `ERRLOG` -/

theorem legalErrlog_iff (w : Word) : legalErrlog w = true ↔ w &&& ~~~errlogMask = 0 := by
  rw [legalErrlog, beq_iff_eq]

/-- The sticky bit of an error is one of the bits 1 to 14 (R32). -/
theorem errorBit_legal (e : ErrorKind) : BitVec.ofNat 32 (2 ^ e.code) &&& ~~~errlogMask = 0 := by
  cases e <;> decide

theorem legalErrlog_logError {log : Word} (h : legalErrlog log = true) (e : ErrorKind) :
    legalErrlog (logError log e) = true := by
  rw [legalErrlog_iff] at *
  rw [logError, BitVec.and_comm, BitVec.and_or_distrib_left, BitVec.and_comm, h, BitVec.and_comm, errorBit_legal]
  rfl

theorem legalErrlog_clearErrors {log : Word} (h : legalErrlog log = true) (w : Word) :
    legalErrlog (clearErrors log w) = true := by
  rw [legalErrlog_iff] at *
  rw [clearErrors, BitVec.and_assoc, BitVec.and_comm (~~~_), ← BitVec.and_assoc, h]
  simp

/-- Logging an error clears no bit (R32). -/
theorem getLsbD_logError {log : Word} {k : Nat} (h : log.getLsbD k = true) (e : ErrorKind) :
    (logError log e).getLsbD k = true := by
  simp [logError, h]

theorem getLsbD_errlogMask (k : Nat) : errlogMask.getLsbD k = (decide (1 ≤ k) && decide (k ≤ 14)) := by
  by_cases hk : k < 32
  · have hall : ∀ k < 32, errlogMask.getLsbD k = (decide (1 ≤ k) && decide (k ≤ 14)) := by decide
    exact hall k hk
  · rw [BitVec.getLsbD_of_ge _ _ (by omega)]
    simp
    omega

/-- Clearing takes away the positions 1 to 14 written as 1 (R32). -/
theorem getLsbD_clearErrors (log w : Word) (k : Nat) :
    (clearErrors log w).getLsbD k = (log.getLsbD k && !(w.getLsbD k && (1 ≤ k && k ≤ 14))) := by
  by_cases hk : k < 32
  · rw [clearErrors, BitVec.getLsbD_and, BitVec.getLsbD_not, BitVec.getLsbD_and, getLsbD_errlogMask]
    simp [hk]
  · rw [BitVec.getLsbD_of_ge _ _ (by omega), BitVec.getLsbD_of_ge log _ (by omega), Bool.false_and]

end Sys2Proof.Machine

namespace Sys2Proof.Proofs

open Sys2Proof.Machine Sys2Proof.Claims

/-- Settles O12, from the fields of the two `STATUS` words. -/
theorem statusWordLayout : Obligations.StatusWordLayout :=
  ⟨fun a b => ⟨slice_statusOk_err a b, slice_statusOk_rsrc a b, slice_statusOk_rsrc2 a b, slice_statusOk_reserved a b⟩,
    fun e => ⟨slice_statusError_err e, slice_statusError_above e 31 8 le_rfl⟩, rfl, rfl⟩

end Sys2Proof.Proofs
end

section
/-! SUPPORT. What serving an access can do, said once (10_state.md R37; 20_memory.md R65 to R79), and the reads that
change nothing. -/

namespace Sys2Proof.Machine

open Sys2Proof.Claims

/-- What an access other than a write of `CMD` or `ERRLOG` and reset leaves: the value registers, `STATUS`, `ERRCMD`, the
parameters, the inputs to come and the form of the buffer; of `ERRLOG` it can only set a bit (R23, R28, R32, R33, R34). -/
structure PortKeeps (s t : State) : Prop where
  v : t.v = s.v
  status : t.status = s.status
  errcmd : t.errcmd = s.errcmd
  params : t.params = s.params
  inputs : t.inputs = s.inputs
  errlog : t.errlog = s.errlog ∨ ∃ e, t.errlog = logError s.errlog e
  wf : Memory.wf s = true → Memory.wf t = true

theorem PortKeeps.logPort (s : State) (e : ErrorKind) : PortKeeps s (s.logPort e) :=
  ⟨rfl, rfl, rfl, rfl, rfl, .inr ⟨e, rfl⟩, id⟩

theorem PortKeeps.answer (s : State) (w : Word) : PortKeeps s (s.answer w) :=
  ⟨rfl, rfl, rfl, rfl, rfl, .inl rfl, id⟩

theorem PortKeeps.answerUnspecified (s : State) (e : ErrorKind) : PortKeeps s (s.answerUnspecified e) :=
  ⟨rfl, rfl, rfl, rfl, rfl, .inr ⟨e, rfl⟩, id⟩

theorem PortKeeps.pop8 (s : State) : PortKeeps s s.pop8 := by
  have hwf : Memory.wf s = true → Memory.wf s.pop8 = true := Memory.wf_pop8
  revert hwf
  unfold State.pop8
  split
  · exact fun hwf => ⟨rfl, rfl, rfl, rfl, rfl, .inl rfl, hwf⟩
  · exact fun _ => .answerUnspecified s _

theorem PortKeeps.pop32 (s : State) : PortKeeps s s.pop32 := by
  have hwf : Memory.wf s = true → Memory.wf s.pop32 = true := Memory.wf_pop32
  revert hwf
  unfold State.pop32
  split
  · exact fun hwf => ⟨rfl, rfl, rfl, rfl, rfl, .inl rfl, hwf⟩
  · exact fun _ => .answerUnspecified s _

theorem PortKeeps.push (s : State) (bytes : List Byte) : PortKeeps s (s.push bytes) := by
  have hwf : Memory.wf s = true → Memory.wf (s.push bytes) = true := fun h => Memory.wf_push h bytes
  revert hwf
  unfold State.push
  split
  · exact fun hwf => ⟨rfl, rfl, rfl, rfl, rfl, .inl rfl, hwf⟩
  · exact fun _ => .logPort s _

theorem PortKeeps.control (s : State) (c : Word) : PortKeeps s (s.control c) := by
  have hwf : Memory.wf s = true → Memory.wf (s.control c) = true := fun h => Memory.wf_control h c
  revert hwf
  unfold State.control
  split
  · exact fun hwf => ⟨rfl, rfl, rfl, rfl, rfl, .inl rfl, hwf⟩
  · split <;> exact fun hwf => ⟨rfl, rfl, rfl, rfl, rfl, .inl rfl, hwf⟩

theorem readReg_keeps (r : PortReg) (s : State) : PortKeeps s (readReg r s) := by
  cases r
  case cmd | bctl | bpush8 | bpush32 => exact .answerUnspecified s _
  case bpop8 => exact .pop8 s
  case bpop32 => exact .pop32 s
  case status | errlog | errcmd | blen | brp | xsel | xlo | xhi | vstat => exact .answer s _

theorem readPort_keeps (bits offset : Nat) (s : State) : ∃ t, readPort bits offset s = .next t ∧ PortKeeps s t := by
  refine ⟨_, rfl, ?_⟩
  split
  · exact readReg_keeps _ s
  · exact .answerUnspecified s _

theorem writeReg_keeps {r : PortReg} (hcmd : r ≠ .cmd) (hlog : r ≠ .errlog) (c : Word) (s : State) :
    ∃ t, writeReg r c s = .next t ∧ PortKeeps s t := by
  cases r
  case cmd => exact absurd rfl hcmd
  case errlog => exact absurd rfl hlog
  case bctl => exact ⟨_, rfl, .control s c⟩
  case bpush8 | bpush32 => exact ⟨_, rfl, .push s _⟩
  case xsel | xlo | xhi => exact ⟨_, rfl, rfl, rfl, rfl, rfl, rfl, .inl rfl, id⟩
  case status | errcmd | blen | bpop8 | bpop32 | brp | vstat => exact ⟨_, rfl, .logPort s _⟩

/-- Only a 32-bit access reaches a register (R65). -/
theorem accessed_eq_some {bits offset : Nat} {r : PortReg} (h : accessed bits offset = some r) :
    bits = 32 ∧ portReg offset = some r := by
  unfold accessed at h
  split at h
  · rename_i hok
    exact ⟨hok.1, h⟩
  · nomatch h

theorem portReg_eq_cmd {offset : Nat} (h : portReg offset = some .cmd) : offset = 0x00 := by
  unfold portReg at h
  split at h <;> simp_all

theorem portReg_eq_errlog {offset : Nat} (h : portReg offset = some .errlog) : offset = 0x08 := by
  unfold portReg at h
  split at h <;> simp_all

/-- What serving an input can do: run a command, clear bits of `ERRLOG`, reset, or what `PortKeeps` says. -/
theorem serve_cases {a : Input} {s t : State} (h : serve a s = .next t) :
    (∃ c, a = .write 32 0x00 c ∧ runCommand c s = .next t) ∨
    (∃ c, a = .write 32 0x08 c ∧ t = { s with errlog := clearErrors s.errlog c }) ∨
    (a = .reset ∧ t = s.applyReset) ∨ PortKeeps s t := by
  cases a with
  | read bits offset =>
    obtain ⟨t', ht', hkeeps⟩ := readPort_keeps bits offset s
    obtain rfl : t' = t := Host.Outcome.next.inj (ht'.symm.trans h)
    exact .inr (.inr (.inr hkeeps))
  | reset => exact .inr (.inr (.inl ⟨rfl, (Host.Outcome.next.inj h).symm⟩))
  | write bits offset c =>
    rw [serve, writePort] at h
    split at h
    · rename_i r hr
      obtain ⟨rfl, hport⟩ := accessed_eq_some hr
      by_cases hcmd : r = .cmd
      · subst hcmd
        obtain rfl := portReg_eq_cmd hport
        exact .inl ⟨c, rfl, h⟩
      by_cases hlog : r = .errlog
      · subst hlog
        obtain rfl := portReg_eq_errlog hport
        exact .inr (.inl ⟨c, rfl, (Host.Outcome.next.inj h).symm⟩)
      obtain ⟨t', ht', hkeeps⟩ := writeReg_keeps hcmd hlog c s
      obtain rfl : t' = t := Host.Outcome.next.inj (ht'.symm.trans h)
      exact .inr (.inr (.inr hkeeps))
    · exact .inr (.inr (.inr (Host.Outcome.next.inj h ▸ .logPort s _)))

/-- What a write of `CMD` can do: the command ends in one of the ways of `Ends`, or with a report of a code 1 to 11. -/
theorem runCommand_cases {c : Word} {s t : State} (h : runCommand c s = .next t) :
    (∃ i, exec i s = .next t ∧ Ends i s t) ∨ ∃ (e : ErrorKind) (w : Word), e.code ≤ 11 ∧ t = s.raise e w := by
  unfold runCommand at h
  split at h
  · rename_i i _
    rcases exec_cases h with hends | ⟨e, he, rfl⟩
    · exact .inl ⟨i, h, hends⟩
    · exact .inr ⟨e, _, he, rfl⟩
  · exact .inr ⟨.illegalCommand, c, by decide, (Host.Outcome.next.inj h).symm⟩

/-! ### The reads that change nothing -/

/-- Bit `i` of a word built from a list of tests is the test at position `i`. -/
theorem getLsbD_foldr_isSome (l : List (Option Value)) (i : Nat) (hi : i < 32) :
    (l.foldr (fun (o : Option Value) (acc : Word) => (acc <<< 1) ||| (if o.isSome then 1 else 0)) 0).getLsbD i =
      (l.getD i none).isSome := by
  induction l generalizing i with
  | nil => simp
  | cons o l ih =>
    cases i with
    | zero => cases o <;> simp
    | succ i =>
      have hbit : (if o.isSome then 1 else 0 : Word).getLsbD (i + 1) = false := by
        cases o <;> simp
      rw [List.foldr_cons, BitVec.getLsbD_or, hbit, Bool.or_false, List.getD_cons_succ, ← ih i (by omega),
        BitVec.getLsbD_shiftLeft, decide_eq_true hi, Nat.add_sub_cancel]
      simp

/-- Bit `i` of `VSTAT` says whether `V[i]` is not `EMPTY` (R36). -/
theorem vstat_getLsbD (s : State) (i : VReg) : s.vstat.getLsbD i.val = (s.vReg i).isSome := by
  rw [State.vstat, getLsbD_foldr_isSome _ _ (by omega), List.getD_eq_getElem _ _ (by simp)]
  rfl

/-- `VSTAT` has only 16 bits (R36). -/
theorem slice_vstat_reserved (s : State) : slice s.vstat 31 16 = 0 := by
  have hlt : s.vstat.toNat < 2 ^ 16 := by
    refine Nat.lt_pow_two_of_testBit _ fun i hi => ?_
    rw [BitVec.testBit_toNat]
    by_cases h : i < 32
    · rw [State.vstat, getLsbD_foldr_isSome _ _ h, List.getD_eq_default _ _ (by simpa using hi)]
      rfl
    · exact BitVec.getLsbD_of_ge _ _ (by omega)
  rw [slice, Nat.div_eq_of_lt hlt, Nat.zero_mod]

end Sys2Proof.Machine

namespace Sys2Proof.Proofs

open Sys2Proof.Machine Sys2Proof.Claims

/-- Settles O9: each store of the reset state is written out in its definition. -/
theorem resetStores : Obligations.ResetStores :=
  ⟨State.reset_vReg, fun i => Vector.getElem_replicate i.isLt, rfl, rfl, rfl, rfl, rfl, rfl⟩

/-- Settles O55: the lengths are read modulo the word, and `VSTAT` has one bit for each value register. -/
theorem plainReadsReturnStores : Obligations.PlainReadsReturnStores := by
  intro s
  have hmod (n : Nat) : BitVec.ofNat 32 (n % 2 ^ 32) = BitVec.ofNat 32 n := BitVec.eq_of_toNat_eq (Nat.mod_mod _ _)
  rw [hmod, hmod, BitVec.ofNat_toNat]
  exact ⟨rfl, rfl, rfl, rfl, rfl, rfl, s.vstat, rfl, slice_vstat_reserved s, vstat_getLsbD s⟩

/-- Settles O54, by what serving an access can do. -/
theorem onlyCommandsChangeValues : Obligations.OnlyCommandsChangeValues := by
  intro a s t hcmd hreset h
  rcases serve_cases h with ⟨c, rfl, -⟩ | ⟨c, rfl, rfl⟩ | ⟨rfl, -⟩ | hkeeps
  · exact absurd rfl (hcmd c)
  · exact ⟨rfl, rfl, rfl, rfl, rfl⟩
  · exact absurd rfl hreset
  · exact ⟨hkeeps.v, hkeeps.status, hkeeps.errcmd, hkeeps.params, hkeeps.inputs⟩

end Sys2Proof.Proofs
end

section
/-! SUPPORT. What every normal end leaves unchanged, and the frames of the commands by the kind of their destination
(10_state.md R23, R26, R28, R33; 60_exceptions.md R300). -/

namespace Sys2Proof.Machine

open Sys2Proof.Claims

/-! ### Destinations exclude one another (R96) -/

theorem vDests_eq_nil_of_xDests {i : Instr} (h : xDests i ≠ []) : vDests i = [] := by
  cases i <;> simp [vDests, xDests] at h ⊢

theorem vDests_eq_nil_of_storesBuf {i : Instr} (h : storesBuf i = true) : vDests i = [] := by
  cases i <;> simp [vDests, storesBuf] at h ⊢

theorem xDests_eq_nil_of_storesBuf {i : Instr} (h : storesBuf i = true) : xDests i = [] := by
  cases i <;> simp [xDests, storesBuf] at h ⊢

/-! ### Registers after `DIVREM` -/

/-- The state in which `DIVREM` ends (R180). -/
def State.putV2 (s : State) (q r : VReg) (a b : Value) (sa sb : Rsrc) : State :=
  { s with v := (s.v.set q.val (some a)).set r.val (some b), status := statusOk sa sb }

theorem State.putV2_vReg (s : State) (q r j : VReg) (a b : Value) (sa sb : Rsrc) :
    (s.putV2 q r a b sa sb).vReg j = if r = j then some b else if q = j then some a else s.vReg j := by
  simp [State.vReg, State.putV2, Vector.getElem_set, Fin.ext_iff]

/-! ### What no command changes -/

/-- No command changes `XSEL`, the parameters and the model's own fields (R35; log 1, 2, 3, 5). -/
structure SameContext (s t : State) : Prop where
  xsel : t.xsel = s.xsel
  params : t.params = s.params
  inputs : t.inputs = s.inputs
  reply : t.reply = s.reply
  freeCount : t.freeCount = s.freeCount

variable {i : Instr} {s t : State}

theorem Ends.context (h : Ends i s t) : SameContext s t := by
  cases h <;> exact ⟨rfl, rfl, rfl, rfl, rfl⟩

/-- A normal end reports no error (R28). -/
theorem Ends.errField_eq_zero (h : Ends i s t) : errField t = 0 := by
  cases h <;> exact slice_statusOk_err _ _

/-- A normal end leaves `ERRLOG` and `ERRCMD` (R32, R33). -/
theorem Ends.keepsErrors (h : Ends i s t) : t.errlog = s.errlog ∧ t.errcmd = s.errcmd := by
  cases h <;> exact ⟨rfl, rfl⟩

theorem errField_raise (s : State) (e : ErrorKind) (w : Word) : errField (s.raise e w) = e.code :=
  slice_statusError_err e

/-- The error entry reports its error, so it is no normal end. -/
theorem errField_raise_ne_zero (s : State) (e : ErrorKind) (w : Word) : errField (s.raise e w) ≠ 0 := by
  rw [errField_raise]
  exact e.code_pos.ne'

/-- A normal end without a report (R28, R31). -/
theorem slice_statusOk_fresh : slice (statusOk .fresh .fresh) 31 8 = 0 := by decide

/-- A command that changes no store but the value registers. -/
theorem Ends.frame_of_vDests (h : Ends i s t) (hd : vDests i ≠ []) :
    t.x = s.x ∧ t.buf = s.buf ∧ t.brp = s.brp ∧ (∀ r, r ∉ vDests i → t.vReg r = s.vReg r) ∧
    slice t.status 31 14 = 0 ∧ ((∀ q r a b, i ≠ .divrem q r a b) → slice t.status 13 11 = 0) := by
  cases h with
  | nothing h => exact absurd (h ▸ rfl) hd
  | scalar d z h => exact absurd (vDests_eq_nil_of_xDests (by simp [h])) hd
  | bytes b h _ => exact absurd (vDests_eq_nil_of_storesBuf h) hd
  | emptied d h =>
    subst h
    refine ⟨rfl, rfl, rfl, fun r hr => ?_, slice_statusOk_reserved _ _, fun _ => slice_statusOk_rsrc2 _ _⟩
    rw [State.freeV_vReg, if_neg fun hdr => hr (by rw [hdr]; exact List.mem_singleton_self r)]
  | value d a src h _ _ =>
    refine ⟨rfl, rfl, rfl, fun r hr => ?_, slice_statusOk_reserved _ _, fun _ => slice_statusOk_rsrc2 _ _⟩
    rw [State.putV_vReg, if_neg fun hdr => hr (by rw [h, hdr]; exact List.mem_singleton_self r)]
  | values q r va vb a b sa sb h _ _ =>
    subst h
    refine ⟨rfl, rfl, rfl, fun j hj => ?_, slice_statusOk_reserved _ _, fun hne => absurd rfl (hne q r va vb)⟩
    obtain ⟨hjq, hjr⟩ : j ≠ q ∧ j ≠ r := by simpa [vDests] using hj
    exact (State.putV2_vReg s q r j a b sa sb).trans (by rw [if_neg hjr.symm, if_neg hjq.symm])

/-- A command that changes no store but a scalar register. -/
theorem Ends.frame_of_xDests (h : Ends i s t) (hd : xDests i ≠ []) :
    t.v = s.v ∧ t.buf = s.buf ∧ t.brp = s.brp ∧ (∀ r, r ∉ xDests i → t.xReg r = s.xReg r) ∧
    slice t.status 31 8 = 0 := by
  have hv := vDests_eq_nil_of_xDests hd
  cases h with
  | nothing h => exact absurd (h ▸ rfl) hd
  | emptied d h => exact absurd (h ▸ rfl) hd
  | value d a src h _ _ => simp [hv] at h
  | values q r va vb a b sa sb h _ _ => exact absurd (h ▸ rfl) hd
  | bytes b h _ => exact absurd (xDests_eq_nil_of_storesBuf h) hd
  | scalar d z h =>
    refine ⟨rfl, rfl, rfl, fun r hr => ?_, slice_statusOk_fresh⟩
    rw [State.putX_xReg, if_neg fun hdr => hr (by rw [h, hdr]; exact List.mem_singleton_self r)]

/-- A command with no value destination changes no value register. -/
theorem Ends.v_eq_of_vDests_eq_nil (h : Ends i s t) (hd : vDests i = []) : t.v = s.v := by
  cases h with
  | nothing _ => rfl
  | scalar d z _ => rfl
  | bytes b _ _ => rfl
  | emptied d h => subst h; nomatch hd
  | value d a src h _ _ => simp [hd] at h
  | values q r va vb a b sa sb h _ _ => subst h; nomatch hd

end Sys2Proof.Machine

namespace Sys2Proof.Proofs

open Sys2Proof.Machine Sys2Proof.Claims

/-- Settles O51: the ways a command with a value destination can end, and the error entry. -/
theorem frameOfValueCommands : Obligations.FrameOfValueCommands := by
  intro i s t hd h
  rcases exec_cases h with hends | ⟨e, he, rfl⟩
  · obtain ⟨hx, hbuf, hbrp, hv, hreserved, hrsrc2⟩ := hends.frame_of_vDests hd
    obtain ⟨hxsel, hparams, hinputs, hreply, hfree⟩ := hends.context
    exact ⟨hv, fun r => by rw [State.xReg, hx]; rfl, fun k => by rw [State.byteAt, hbuf]; rfl, hbrp, hxsel, hparams,
      hinputs, hreply, hfree, fun _ => hends.keepsErrors, hreserved, hrsrc2⟩
  · have herr := errField_raise_ne_zero s e (encode i)
    exact ⟨fun _ _ => rfl, fun _ => rfl, fun _ => rfl, rfl, rfl, rfl, rfl, rfl, rfl, (absurd · herr),
      slice_statusError_above e 31 14 (by decide), fun _ => slice_statusError_above e 13 11 (by decide)⟩

/-- Settles O52: the ways a command with a scalar destination can end, and the error entry. -/
theorem frameOfScalarCommands : Obligations.FrameOfScalarCommands := by
  intro i s t hd h
  rcases exec_cases h with hends | ⟨e, he, rfl⟩
  · obtain ⟨hv, hbuf, hbrp, hx, hreserved⟩ := hends.frame_of_xDests hd
    obtain ⟨hxsel, hparams, hinputs, hreply, hfree⟩ := hends.context
    exact ⟨fun r => by rw [State.vReg, hv]; rfl, hx, fun k => by rw [State.byteAt, hbuf]; rfl, hbrp, hxsel, hparams,
      hinputs, hreply, hfree, fun _ => hends.keepsErrors, hreserved⟩
  · have herr := errField_raise_ne_zero s e (encode i)
    exact ⟨fun _ => rfl, fun _ _ => rfl, fun _ => rfl, rfl, rfl, rfl, rfl, rfl, rfl, (absurd · herr),
      slice_statusError_above e 31 8 le_rfl⟩

/-- Settles O60: a command keeps `ERRLOG` or sets a bit, a write of `ERRLOG` clears, any other access keeps it or sets a
bit. -/
theorem errlogClearedByWritingOnes : Obligations.ErrlogClearedByWritingOnes := by
  refine ⟨fun s c => ⟨_, rfl, getLsbD_clearErrors s.errlog c⟩, ?_⟩
  intro a s t hlog hreset h k hk
  rcases serve_cases h with ⟨c, -, hrun⟩ | ⟨c, rfl, -⟩ | ⟨rfl, -⟩ | hkeeps
  · rcases runCommand_cases hrun with ⟨i, -, hends⟩ | ⟨e, w, -, rfl⟩
    · rw [hends.keepsErrors.1]
      exact hk
    · exact getLsbD_logError hk e
  · exact absurd rfl (hlog c)
  · exact absurd rfl hreset
  · rcases hkeeps.errlog with hsame | ⟨e, hset⟩
    · rw [hsame]
      exact hk
    · rw [hset]
      exact getLsbD_logError hk e

end Sys2Proof.Proofs
end

section
/-! SUPPORT. What a command does is a function of the stores it reads: two states that agree on them end alike (R30). -/

namespace Sys2Proof.Machine

/-- The two states agree on the stores a command reads and writes, and on the parameters. -/
structure SameStores (s s' : State) : Prop where
  v : s.v = s'.v
  x : s.x = s'.x
  buf : s.buf = s'.buf
  brp : s.brp = s'.brp
  params : s.params = s'.params

/-- The two states agree on the stores a command writes and on what it reports in `STATUS`. -/
structure SameEnd (t t' : State) : Prop where
  v : t.v = t'.v
  x : t.x = t'.x
  buf : t.buf = t'.buf
  brp : t.brp = t'.brp
  status : t.status = t'.status

/-- Two results of a command that are the same error, or states that end alike. -/
inductive Alike : Except ErrorKind State → Except ErrorKind State → Prop where
  | ok {t t' : State} (h : SameEnd t t') : Alike (.ok t) (.ok t')
  | error (e : ErrorKind) : Alike (.error e) (.error e)

theorem Alike.bind {α : Type} (m : Except ErrorKind α) {f f' : α → Except ErrorKind State}
    (h : ∀ a, Alike (f a) (f' a)) : Alike (m >>= f) (m >>= f') := by
  cases m with
  | ok a => exact h a
  | error e => exact .error e

/-! ### The shared operations on two states that agree -/

section Operations

variable {s s' : State} (h : SameStores s s')
include h

theorem SameStores.readX (i : XReg) : s.readX i = s'.readX i := by
  rw [State.readX, State.readX, State.xReg, State.xReg, h.x]

theorem SameStores.readV (i : VReg) {f f' : Value → Except ErrorKind State} (hf : ∀ a, Alike (f a) (f' a)) :
    Alike (s.readV i >>= f) (s'.readV i >>= f') := by
  have hread : s.readV i = s'.readV i := by rw [State.readV, State.readV, State.vReg, State.vReg, h.v]
  rw [hread]
  exact .bind _ hf

theorem SameStores.writeV (d : VReg) (r : Reported) : Alike (s.writeV d r) (s'.writeV d r) := by
  unfold State.writeV
  rw [h.params]
  split
  · exact .ok ⟨by rw [State.putV_v, h.v]; rfl, h.x, h.buf, h.brp, rfl⟩
  · exact .error _

theorem SameStores.writeV2 (d e : VReg) (q r : Reported) : Alike (s.writeV2 d e q r) (s'.writeV2 d e q r) := by
  unfold State.writeV2
  rw [h.params]
  split
  · exact .ok ⟨by simp only [h.v], h.x, h.buf, h.brp, rfl⟩
  · exact .error _

theorem SameStores.putX (d : XReg) (z : Int) : Alike (.ok (s.putX d z)) (.ok (s'.putX d z)) :=
  .ok ⟨h.v, by rw [State.putX_x, h.x]; rfl, h.buf, h.brp, rfl⟩

theorem SameStores.writeCount (d : XReg) (n : Nat) : Alike (s.writeCount d n) (s'.writeCount d n) := by
  unfold State.writeCount
  split
  · exact h.putX d n
  · exact .error _

theorem SameStores.writeBuf (b : List Byte) : Alike (s.writeBuf b) (s'.writeBuf b) := by
  unfold State.writeBuf
  rw [h.params]
  split
  · exact .ok ⟨h.v, h.x, rfl, rfl, rfl⟩
  · exact .error _

/-- Every command, operation by operation. -/
theorem SameStores.exec_alike (i : Instr) :
    ∃ r r', exec i s = finish i s r ∧ exec i s' = finish i s' r' ∧ Alike r r' := by
  cases i
  case nop =>
    exact ⟨_, _, Eq.refl (finish .nop s (.ok _)), Eq.refl (finish .nop s' (.ok _)),
      .ok ⟨h.v, h.x, h.buf, h.brp, rfl⟩⟩
  case free d =>
    exact ⟨_, _, Eq.refl (finish (.free d) s (.ok _)), Eq.refl (finish (.free d) s' (.ok _)),
      .ok ⟨by rw [State.freeV_v, h.v]; rfl, h.x, h.buf, h.brp, rfl⟩⟩
  case xli d imm =>
    exact ⟨_, _, Eq.refl (finish (.xli d imm) s (.ok _)), Eq.refl (finish (.xli d imm) s' (.ok _)), h.putX _ _⟩
  all_goals refine ⟨_, _, rfl, rfl, ?_⟩
  case const d k =>
    split
    · exact h.writeV _ _
    · exact .error _
  case frombytes =>
    rw [h.buf]
    exact .bind _ fun _ => h.writeV _ _
  case fromwords =>
    rw [h.buf]
    split
    · exact .error _
    split
    · exact .error _
    · exact .bind _ fun _ => h.writeV _ _
  case fromint64 =>
    rw [h.readX]
    exact h.writeV _ _
  case mov | neg | abs | not => exact h.readV _ fun _ => h.writeV _ _
  case shl | shr =>
    rw [h.readX]
    exact h.readV _ fun _ => h.writeV _ _
  case pow | setbit | clrbit | flipbit =>
    rw [h.readX]
    exact h.readV _ fun _ => .bind _ fun _ => h.writeV _ _
  case min | max | add | sub | mul | and | or | xor | andnot =>
    exact h.readV _ fun _ => h.readV _ fun _ => h.writeV _ _
  case div | rem | mod => exact h.readV _ fun _ => h.readV _ fun _ => .bind _ fun _ => h.writeV _ _
  case divrem =>
    split
    · exact .error _
    · exact h.readV _ fun _ => h.readV _ fun _ => .bind _ fun _ => h.writeV2 _ _ _ _
  case cmp => exact h.readV _ fun _ => h.readV _ fun _ => h.putX _ _
  case signum => exact h.readV _ fun _ => h.putX _ _
  case bitlen | bitcnt | maglen => exact h.readV _ fun _ => h.writeCount _ _
  case testbit | magwf | magwr | wordat =>
    rw [h.readX]
    exact h.readV _ fun _ => .bind _ fun _ => h.putX _ _
  case tobytes => exact h.readV _ fun _ => h.writeBuf _
  case tozfbytes =>
    rw [h.readX]
    refine h.readV _ fun _ => ?_
    split
    · exact .error _
    · exact h.writeBuf _

/-- Two states that agree on the stores end alike, also with an error. -/
theorem SameStores.sameEnd {i : Instr} {r r' : Except ErrorKind State} {t t' : State} (hr : Alike r r')
    (ht : finish i s r = .next t) (ht' : finish i s' r' = .next t') : SameEnd t t' := by
  cases hr with
  | ok hend =>
    obtain rfl := Host.Outcome.next.inj ht
    obtain rfl := Host.Outcome.next.inj ht'
    exact hend
  | error e =>
    obtain rfl := Host.Outcome.next.inj ht
    obtain rfl := Host.Outcome.next.inj ht'
    exact ⟨h.v, h.x, h.buf, h.brp, rfl⟩

end Operations

end Sys2Proof.Machine

namespace Sys2Proof.Proofs

open Sys2Proof.Machine Sys2Proof.Claims

/-- Settles O14: the results of the command from the two states are alike, and so are their ends. -/
theorem commandsIgnoreEarlierOutcomes : Obligations.CommandsIgnoreEarlierOutcomes := by
  intro i s s' t t' hv hx hbuf hbrp hparams ht ht'
  have h : SameStores s s' := ⟨hv, hx, hbuf, hbrp, hparams⟩
  obtain ⟨r, r', hr, hr', halike⟩ := h.exec_alike i
  obtain ⟨hv, hx, hbuf, hbrp, hstatus⟩ := h.sameEnd halike (hr ▸ ht) (hr' ▸ ht')
  exact ⟨hv, hx, hbuf, hbrp, hstatus⟩

end Sys2Proof.Proofs
end

section
/-! SUPPORT. The invariant of a legal state (10_state.md R6, R10, R21, R28, R31, R32, R34) is kept by every step. -/

namespace Sys2Proof.Machine

open Sys2Proof.Claims

/-! ### A property of every value held -/

/-- Every value a register holds has the property. -/
def Holds (P : Value → Prop) (s : State) : Prop := ∀ (i : VReg) (a : Value), s.vReg i = some a → P a

section Holds

variable {P : Value → Prop} {s : State} (hs : Holds P s)
include hs

theorem Holds.of_v_eq {t : State} (h : t.v = s.v) : Holds P t := fun i a ha =>
  hs i a (by rw [State.vReg, ← h]; exact ha)

theorem Holds.putV (d : VReg) {a : Value} (src : Rsrc) (ha : P a) : Holds P (s.putV d a src) := by
  intro j b hb
  rw [State.putV_vReg] at hb
  split at hb
  · exact Option.some_inj.1 hb ▸ ha
  · exact hs j b hb

theorem Holds.freeV (d : VReg) : Holds P (s.freeV d) := by
  intro j b hb
  rw [State.freeV_vReg] at hb
  split at hb
  · nomatch hb
  · exact hs j b hb

theorem Holds.putV2 (q r : VReg) {a b : Value} (sa sb : Rsrc) (ha : P a) (hb : P b) :
    Holds P (s.putV2 q r a b sa sb) := by
  intro j c hc
  rw [State.putV2_vReg] at hc
  split at hc
  · exact Option.some_inj.1 hc ▸ hb
  split at hc
  · exact Option.some_inj.1 hc ▸ ha
  · exact hs j c hc

end Holds

/-- The clause of `State.legal` about the value registers is two properties of every value held (R10, R21). -/
theorem legalRegs_iff (s : State) : (∀ i : VReg, legalReg s.params.maxw (s.vReg i) = true) ↔
    Holds (·.canonical = true) s ∧ Holds (fun a => fitsIn s.params.maxw a.mag = true) s := by
  constructor
  · intro h
    refine ⟨fun i a ha => ?_, fun i a ha => ?_⟩ <;> have hi := h i <;> rw [ha, legalReg, Bool.and_eq_true] at hi
    · exact hi.1
    · exact hi.2
  · rintro ⟨hcanon, hfit⟩ i
    cases ha : s.vReg i with
    | none => rfl
    | some a => rw [legalReg, hcanon i a ha, hfit i a ha]; rfl

/-! ### Every value written is canonical -/

/-- What a result satisfies if it is one. -/
def Yields {α : Type} (P : α → Prop) (r : Except ErrorKind α) : Prop := ∀ t, r = .ok t → P t

/-- Every value held is canonical (R10). -/
abbrev CanonicalRegs (s : State) : Prop := Holds (·.canonical = true) s

section Canonical

variable {s : State} (hs : CanonicalRegs s)

theorem Yields.error {α : Type} {P : α → Prop} (e : ErrorKind) : Yields P (.error e) := fun _ h => nomatch h

theorem Yields.bind {α β : Type} {P : β → Prop} {m : Except ErrorKind α} {f : α → Except ErrorKind β}
    (h : ∀ a, m = .ok a → Yields P (f a)) : Yields P (m >>= f) := by
  intro t ht
  obtain ⟨a, hm, hf⟩ := (bind_ok_iff m f t).1 ht
  exact h a hm t hf

include hs

theorem CanonicalRegs.readV {P : State → Prop} (i : VReg) {f : Value → Except ErrorKind State}
    (h : ∀ a, a.canonical = true → Yields P (f a)) : Yields P (s.readV i >>= f) :=
  .bind fun a ha => h a (hs i a ((s.readV_ok_iff i a).1 ha))

theorem CanonicalRegs.writeV (d : VReg) {r : Reported} (h : r.value.canonical = true) :
    Yields CanonicalRegs (s.writeV d r) := by
  intro t ht
  obtain ⟨-, rfl⟩ := (s.writeV_ok_iff d r t).1 ht
  exact hs.putV d r.src h

theorem CanonicalRegs.writeV2 (d e : VReg) {q r : Reported} (hq : q.value.canonical = true)
    (hr : r.value.canonical = true) : Yields CanonicalRegs (s.writeV2 d e q r) := by
  intro t ht
  obtain ⟨-, rfl⟩ := (s.writeV2_ok_iff d e q r t).1 ht
  exact hs.putV2 d e q.src r.src hq hr

/-- A command with one operand that every canonical value allows. -/
theorem CanonicalRegs.unary (d i : VReg) {f : Value → Reported}
    (h : ∀ a, a.canonical = true → (f a).value.canonical = true) :
    Yields CanonicalRegs (s.readV i >>= fun a => s.writeV d (f a)) :=
  hs.readV i fun a ha => hs.writeV d (h a ha)

/-- A command with two operands that every two canonical values allow. -/
theorem CanonicalRegs.binary (d i j : VReg) {f : Value → Value → Reported}
    (h : ∀ a b, a.canonical = true → b.canonical = true → (f a b).value.canonical = true) :
    Yields CanonicalRegs (s.readV i >>= fun a => s.readV j >>= fun b => s.writeV d (f a b)) :=
  hs.readV i fun a ha => hs.readV j fun b hb => hs.writeV d (h a b ha hb)

/-- Each command with a value destination, with the reason why what it writes is canonical. -/
theorem CanonicalRegs.exec_yields {i : Instr} (hd : vDests i ≠ []) :
    ∃ r, exec i s = finish i s r ∧ Yields CanonicalRegs r := by
  cases i
  case free d => exact ⟨_, Eq.refl (finish (.free d) s (.ok _)), fun _ ht => Except.ok.inj ht ▸ hs.freeV d⟩
  case nop | xli => exact absurd rfl hd
  all_goals refine ⟨_, rfl, ?_⟩
  case const d k =>
    split
    · rename_i c hc
      exact hs.writeV d (canonical_poolConst hc)
    · exact .error _
  case mov d a => exact hs.unary d a fun _ ha => ha
  case frombytes d => exact .bind fun _ ha => hs.writeV d (canonical_norm ha)
  case fromwords d =>
    split
    · exact .error _
    split
    · exact .error _
    · exact .bind fun _ ha => hs.writeV d (canonical_norm ha)
  case fromint64 d x => exact hs.writeV d (canonical_canon _)
  case min d a b => exact hs.binary d a b fun _ _ => canonical_minValue
  case max d a b => exact hs.binary d a b fun _ _ => canonical_maxValue
  case add d a b => exact hs.binary d a b fun _ _ => canonical_addValues
  case sub d a b => exact hs.binary d a b fun _ _ => canonical_subValues
  case neg d a => exact hs.unary d a fun _ => canonical_flipSign
  case abs d a => exact hs.unary d a fun _ => canonical_absValue
  case mul d a b => exact hs.binary d a b fun _ _ => canonical_mulValues
  case divrem q r a b =>
    split
    · exact .error _
    · refine hs.readV a fun _ ha => hs.readV b fun _ hb => .bind fun _ hdiv => ?_
      obtain ⟨hq, hr, -⟩ := good_divrem ha hb hdiv
      exact hs.writeV2 q r hq hr
  case div d a b =>
    exact hs.readV a fun _ ha => hs.readV b fun _ hb => .bind fun _ hdiv => hs.writeV d (good_divrem ha hb hdiv).1
  case rem d a b =>
    exact hs.readV a fun _ ha => hs.readV b fun _ hb => .bind fun _ hdiv => hs.writeV d (good_divrem ha hb hdiv).2.1
  case mod d a b =>
    exact hs.readV a fun _ ha => hs.readV b fun _ hb => .bind fun _ hmod => hs.writeV d (canonical_modValues ha hb hmod)
  case pow d a x => exact hs.readV a fun _ ha => .bind fun _ hpow => hs.writeV d (canonical_powValue ha hpow)
  case and d a b | or d a b | xor d a b | andnot d a b =>
    refine hs.binary d a b fun _ _ _ _ => ?_
    dsimp only
    exact canonical_bitop _ _ _
  case not d a => exact hs.unary d a fun _ _ => canonical_notValue _
  case setbit d a x | clrbit d a x | flipbit d a x =>
    exact hs.readV a fun _ _ => .bind fun _ _ => hs.writeV d (canonical_bitEdit _ _ _)
  case shl d a x | shr d a x => exact hs.unary d a fun _ ha => canonical_shiftValue ha _
  all_goals exact absurd rfl hd

/-- Every command keeps the values held canonical. -/
theorem CanonicalRegs.of_exec {i : Instr} {t : State} (h : exec i s = .next t) : CanonicalRegs t := by
  by_cases hd : vDests i = []
  · rcases exec_cases h with hends | ⟨e, -, rfl⟩
    · exact hs.of_v_eq (hends.v_eq_of_vDests_eq_nil hd)
    · exact hs
  · obtain ⟨r, hr, hyields⟩ := hs.exec_yields hd
    rw [hr, finish_next_iff] at h
    rcases h with h | ⟨e, -, rfl⟩
    · exact hyields t h
    · exact hs

end Canonical

/-! ### The other clauses -/

/-- A normal end keeps every value within `MAXW` (R299). -/
theorem Ends.fits {i : Instr} {s t : State} (h : Ends i s t)
    (hs : Holds (fun a => fitsIn s.params.maxw a.mag = true) s) :
    Holds (fun a => fitsIn s.params.maxw a.mag = true) t := by
  cases h with
  | nothing | scalar | bytes => exact hs
  | emptied d _ => exact hs.freeV d
  | value d a src _ hfit _ => exact hs.putV d src hfit
  | values q r va vb a b sa sb _ ha hb => exact hs.putV2 q r sa sb ha hb

/-- A normal end keeps the buffer in its form (R34). -/
theorem Ends.wf {i : Instr} {s t : State} (h : Ends i s t) (hs : Memory.wf s = true) : Memory.wf t = true := by
  cases h with
  | nothing | emptied | value | values | scalar => exact Memory.wf_of_same hs rfl rfl rfl
  | bytes b _ hfit => exact (Memory.wf_iff _).2 ⟨hfit, Nat.zero_le _⟩

theorem Ends.legalStatus {i : Instr} {s t : State} (h : Ends i s t) : legalStatus t.status = true := by
  cases h <;> exact legalStatus_statusOk _ _

section Legal

variable {s t : State} (hs : s.legal = true)
include hs

/-- The error entry keeps a legal state legal (R300). -/
theorem State.legal_raise {e : ErrorKind} (he : e.code ≤ 11) (w : Word) : (s.raise e w).legal = true := by
  obtain ⟨hparams, hregs, hwf, -, hlog⟩ := (State.legal_iff s).1 hs
  exact (State.legal_iff _).2 ⟨hparams, hregs, hwf, legalStatus_statusError he, legalErrlog_logError hlog e⟩

theorem State.legal_exec {i : Instr} (h : exec i s = .next t) (hends : Ends i s t) : t.legal = true := by
  obtain ⟨hparams, hregs, hwf, -, hlog⟩ := (State.legal_iff s).1 hs
  obtain ⟨hcanon, hfit⟩ := (legalRegs_iff s).1 hregs
  have hp := hends.context.params
  refine (State.legal_iff t).2 ⟨hp ▸ hparams, (legalRegs_iff t).2 ⟨CanonicalRegs.of_exec hcanon h, ?_⟩, hends.wf hwf,
    hends.legalStatus, ?_⟩
  · rw [hp]
    exact hends.fits hfit
  · rw [hends.keepsErrors.1]
    exact hlog

theorem State.legal_applyReset : s.applyReset.legal = true := by
  obtain ⟨hparams, -, -, -, -⟩ := (State.legal_iff s).1 hs
  refine (State.legal_iff _).2 ⟨hparams, fun i => ?_, (Memory.wf_iff _).2 ⟨(fitsIn_iff _ _).2 ?_, le_rfl⟩,
    legalStatus_zero, legalErrlog_zero⟩
  · exact congrArg (legalReg s.params.maxw) (State.reset_vReg i)
  · exact fun n _ => Nat.zero_le n

theorem State.legal_clearErrors (c : Word) : ({ s with errlog := clearErrors s.errlog c } : State).legal = true := by
  obtain ⟨hparams, hregs, hwf, hstatus, hlog⟩ := (State.legal_iff s).1 hs
  exact (State.legal_iff _).2 ⟨hparams, hregs, hwf, hstatus, legalErrlog_clearErrors hlog c⟩

theorem PortKeeps.legal (h : PortKeeps s t) : t.legal = true := by
  obtain ⟨hparams, hregs, hwf, hstatus, hlog⟩ := (State.legal_iff s).1 hs
  refine (State.legal_iff t).2 ⟨h.params ▸ hparams, fun i => ?_, h.wf hwf, h.status ▸ hstatus, ?_⟩
  · rw [State.vReg, h.v, h.params]
    exact hregs i
  · rcases h.errlog with hsame | ⟨e, hset⟩
    · rw [hsame]
      exact hlog
    · rw [hset]
      exact legalErrlog_logError hlog e

/-- Serving any input keeps a legal state legal. -/
theorem State.legal_serve {a : Input} (h : serve a s = .next t) : t.legal = true := by
  rcases serve_cases h with ⟨c, -, hrun⟩ | ⟨c, -, rfl⟩ | ⟨-, rfl⟩ | hkeeps
  · rcases runCommand_cases hrun with ⟨i, hexec, hends⟩ | ⟨e, w, he, rfl⟩
    · exact State.legal_exec hs hexec hends
    · exact State.legal_raise hs he w
  · exact State.legal_clearErrors hs c
  · exact State.legal_applyReset hs
  · exact hkeeps.legal hs

end Legal

end Sys2Proof.Machine

namespace Sys2Proof.Proofs

open Sys2Proof.Machine Sys2Proof.Claims

/-- Settles O11: with no input pending nothing changes; else the first input is served from a state that differs from `s`
only in the queue and the reply, which `State.legal` does not read. -/
theorem stepKeepsLegal : Obligations.StepKeepsLegal := by
  intro s t hs h
  unfold step at h
  split at h
  · exact Host.Outcome.next.inj h ▸ hs
  · rename_i a rest _
    have htake : (s.take rest).legal = true := hs
    exact State.legal_serve htake h

end Sys2Proof.Proofs
end

section
/-! SUPPORT. Words as numbers: a word taken modulo its range, two strings of bits side by side, and the slices of a byte
or of half a scalar that the host port moves (20_memory.md R63, R76, R77, R78). -/

namespace Sys2Proof.Machine

/-- Only the low `w` bits of a number reach a word of `w` bits. -/
theorem bitVec_ofNat_mod_two_pow (w n : Nat) : BitVec.ofNat w (n % 2 ^ w) = BitVec.ofNat w n :=
  BitVec.eq_of_toNat_eq (Nat.mod_mod _ _)

theorem bitVec_append_toNat {m n : Nat} (a : BitVec m) (b : BitVec n) :
    (a ++ b).toNat = a.toNat * 2 ^ n + b.toNat := by
  rw [BitVec.toNat_append, ← Nat.shiftLeft_add_eq_or_of_lt b.isLt, Nat.shiftLeft_eq]

theorem bitVec_append_eq_ofNat {m n : Nat} (a : BitVec m) (b : BitVec n) :
    a ++ b = BitVec.ofNat (m + n) (a.toNat * 2 ^ n + b.toNat) := by
  rw [← bitVec_append_toNat, BitVec.ofNat_toNat, BitVec.setWidth_eq]

/-- The word the bytes of `BPOP32` make (R63, R77). -/
theorem joinBytes_eq_ofNat (b0 b1 b2 b3 : Byte) : joinBytes b0 b1 b2 b3 =
    BitVec.ofNat 32 (b0.toNat * 2 ^ 24 + b1.toNat * 2 ^ 16 + b2.toNat * 2 ^ 8 + b3.toNat) := by
  rw [joinBytes, bitVec_append_eq_ofNat, bitVec_append_toNat, bitVec_append_toNat]
  exact congrArg (BitVec.ofNat 32) (by omega)

theorem byteOfWord_eq_extractLsb' (w : Word) (k : Nat) : byteOfWord w k = w.extractLsb' (24 - 8 * k) 8 := by
  rw [byteOfWord, BitVec.extractLsb', Nat.shiftRight_eq_div_pow]

theorem splitWord_eq (w : Word) : splitWord w =
    [w.extractLsb' 24 8, w.extractLsb' 16 8, w.extractLsb' 8 8, w.extractLsb' 0 8] := by
  simp only [splitWord, byteOfWord_eq_extractLsb']

/-- Bits 31:0 of a scalar (R78). -/
theorem lowHalf_toNat (x : Scalar) : (x.extractLsb' 0 32).toNat = x.toNat % 2 ^ 32 := BitVec.extractLsb'_toNat 0 32 x

/-- Bits 63:32 of a scalar (R78). -/
theorem highHalf_toNat (x : Scalar) : (x.extractLsb' 32 32).toNat = x.toNat / 2 ^ 32 := by
  rw [BitVec.extractLsb'_toNat, Nat.shiftRight_eq_div_pow, Nat.mod_eq_of_lt]
  exact Nat.div_lt_of_lt_mul x.isLt

/-- The scalar with the two halves `hi` and `lo` (R78). -/
theorem halves_eq_ofNat (hi lo : Word) : hi ++ lo = BitVec.ofNat 64 (hi.toNat * 2 ^ 32 + lo.toNat) :=
  bitVec_append_eq_ofNat hi lo

end Sys2Proof.Machine
end

section
/-! SUPPORT. What the port's own operations do, case by case: a step, a push, a pop, and the registers an access reaches
(10_state.md R27, R37; 20_memory.md R65 to R79). -/

namespace Sys2Proof.Machine

open Sys2Proof.Claims

/-! ### Steps -/

theorem step_of_inputs_nil {s : State} (h : s.inputs = []) : step s = .next s := by
  rw [step, h]

theorem step_of_inputs_cons {s : State} {a : Input} {rest : List Input} (h : s.inputs = a :: rest) :
    step s = serve a (s.take rest) := by
  rw [step, h]

/-- A 32-bit write at offset 0 executes the word (R72). -/
theorem serve_write_cmd (c : Word) (s : State) : serve (.write 32 0x00 c) s = runCommand c s := rfl

theorem runCommand_of_ok {c : Word} {i : Instr} (h : decode c = .ok i) (s : State) : runCommand c s = exec i s := by
  rw [runCommand, h]

theorem runCommand_of_error {c : Word} {e : Illegal} (h : decode c = .error e) (s : State) :
    runCommand c s = .next (s.raise .illegalCommand c) := by
  rw [runCommand, h]

/-- The word a fetch places is the next input (log 1). -/
theorem withFetchWord_inputs (s : State) (w : Nat) :
    (s.withFetchWord 32 w).inputs = .write 32 0x00 (BitVec.ofNat 32 w) :: s.inputs := by
  rw [State.withFetchWord, bitVec_ofNat_mod_two_pow]

/-! ### The scalar window -/

/-- `XSEL` has only the numbers of registers (R35). -/
theorem State.selected_eq {s : State} {i : XReg} (h : i.val = s.xsel.toNat) : s.selected = i := by
  rw [State.selected, ← h]
  exact Fin.ofNat_val_eq_self i

/-! ### Pushes and pops -/

/-- The capacity test of the buffer is on the number of bytes (R34). -/
theorem fitsIn_bufcap (s : State) (bytes : List Byte) : fitsIn s.params.bufcap bytes = fitsBytes s bytes.length := by
  rw [Bool.eq_iff_iff, fitsIn_iff, fitsBytes, Option.all_eq_true]
  simp only [decide_eq_true_eq]

theorem State.push_of_fits {s : State} {bytes : List Byte}
    (h : fitsBytes s (s.buf.length + bytes.length) = true) : s.push bytes = { s with buf := s.buf ++ bytes } := by
  rw [State.push, fitsIn_bufcap, List.length_append, if_pos h]

theorem State.push_of_not_fits {s : State} {bytes : List Byte}
    (h : fitsBytes s (s.buf.length + bytes.length) = false) : s.push bytes = afterPortError s 12 := by
  rw [State.push, fitsIn_bufcap, List.length_append, h]
  rfl

theorem State.pop8_of_byte {s : State} {b : Byte} (h : s.buf[s.brp]? = some b) :
    s.pop8 = { afterRead s (b.setWidth 32) with brp := s.brp + 1 } := by
  rw [State.pop8, State.byteAt, h]
  rfl

theorem State.pop8_of_underrun {s : State} (h : s.buf.length ≤ s.brp) : s.pop8 = afterBadRead s 13 := by
  rw [State.pop8, State.byteAt, List.getElem?_eq_none h]
  rfl

theorem drop_of_getElem?_eq_some {α : Type} {l : List α} {k : Nat} {a : α} (h : l[k]? = some a) :
    l.drop k = a :: l.drop (k + 1) := by
  rw [List.drop_eq_getElem?_toList_append, h]
  rfl

theorem State.pop32_of_bytes {s : State} {b0 b1 b2 b3 : Byte} (h0 : s.buf[s.brp]? = some b0)
    (h1 : s.buf[s.brp + 1]? = some b1) (h2 : s.buf[s.brp + 2]? = some b2) (h3 : s.buf[s.brp + 3]? = some b3) :
    s.pop32 = { afterRead s (joinBytes b0 b1 b2 b3) with brp := s.brp + 4 } := by
  rw [State.pop32, drop_of_getElem?_eq_some h0, drop_of_getElem?_eq_some h1, drop_of_getElem?_eq_some h2,
    drop_of_getElem?_eq_some h3]
  rfl

theorem State.pop32_of_underrun {s : State} (h : s.buf.length < s.brp + 4) : s.pop32 = afterBadRead s 13 := by
  unfold State.pop32
  split
  · rename_i b0 b1 b2 b3 bs hdrop
    have hlen := congrArg List.length hdrop
    simp only [List.length_drop, List.length_cons] at hlen
    omega
  · rfl

/-! ### Accesses the port does not accept -/

/-- The offset of a register (R37). -/
def PortReg.offset : PortReg → Nat
  | .cmd => 0x00
  | .status => 0x04
  | .errlog => 0x08
  | .errcmd => 0x0C
  | .blen => 0x10
  | .bctl => 0x14
  | .bpush8 => 0x18
  | .bpush32 => 0x1C
  | .bpop8 => 0x20
  | .bpop32 => 0x24
  | .brp => 0x28
  | .xsel => 0x2C
  | .xlo => 0x30
  | .xhi => 0x34
  | .vstat => 0x38

/-- The registers are at the offsets of the map and nowhere else (R37). -/
theorem portReg_eq_some {offset : Nat} {r : PortReg} (h : portReg offset = some r) : offset = r.offset := by
  unfold portReg at h
  split at h <;> cases h <;> rfl

/-- An access that reaches no register of a list of offsets is refused, or reaches a register outside the list (R65). -/
theorem accessed_outside {bits offset : Nat} {offsets : List Nat} (h : bits ≠ 32 ∨ offset ∉ offsets) :
    accessed bits offset = none ∨ ∃ r, accessed bits offset = some r ∧ r.offset ∉ offsets := by
  cases hr : accessed bits offset with
  | none => exact .inl rfl
  | some r =>
    obtain ⟨hbits, hport⟩ := accessed_eq_some hr
    exact .inr ⟨r, rfl, portReg_eq_some hport ▸ h.resolve_left (absurd hbits)⟩

/-- A register that is not readable (R37) answers a bad access (R79). -/
theorem readReg_of_not_readable {r : PortReg}
    (h : r.offset ∉ [0x04, 0x08, 0x0C, 0x10, 0x20, 0x24, 0x28, 0x2C, 0x30, 0x34, 0x38]) (s : State) :
    readReg r s = afterBadRead s 14 := by
  cases r
  case cmd | bctl | bpush8 | bpush32 => rfl
  all_goals exact absurd (by decide) h

/-- A register that is not writable (R37) answers a bad access (R79). -/
theorem writeReg_of_not_writable {r : PortReg}
    (h : r.offset ∉ [0x00, 0x08, 0x14, 0x18, 0x1C, 0x2C, 0x30, 0x34]) (c : Word) (s : State) :
    writeReg r c s = .next (afterPortError s 14) := by
  cases r
  case status | errcmd | blen | bpop8 | bpop32 | brp | vstat => rfl
  all_goals exact absurd (by decide) h

end Sys2Proof.Machine

namespace Sys2Proof.Proofs

open Sys2Proof.Machine Sys2Proof.Claims

/-- Settles O57: a push is refused exactly when the new length is over `BUFCAP`; `BCTL` is its own definition. -/
theorem pushesAppendBctlClears : Obligations.PushesAppendBctlClears := by
  intro s c
  have hpush8 : serve (.write 32 0x18 c) s = .next (s.push [c.extractLsb' 0 8]) := rfl
  have hpush32 : serve (.write 32 0x1C c) s = .next (s.push (splitWord c)) := rfl
  rw [hpush8, hpush32, splitWord_eq]
  exact ⟨fun h => congrArg _ (State.push_of_fits h), fun h => congrArg _ (State.push_of_not_fits h),
    fun h => congrArg _ (State.push_of_fits h), fun h => congrArg _ (State.push_of_not_fits h), rfl⟩

/-- Settles O58: each pop, with enough bytes left and with too few. -/
theorem popsAdvance : Obligations.PopsAdvance := by
  intro s
  have hpop8 : serve (.read 32 0x20) s = .next s.pop8 := rfl
  have hpop32 : serve (.read 32 0x24) s = .next s.pop32 := rfl
  rw [hpop8, hpop32]
  refine ⟨fun b h => congrArg _ (State.pop8_of_byte h), fun h => congrArg _ (State.pop8_of_underrun h),
    fun b0 b1 b2 b3 h0 h1 h2 h3 => ?_, fun h => congrArg _ (State.pop32_of_underrun h)⟩
  rw [← joinBytes_eq_ofNat, State.pop32_of_bytes h0 h1 h2 h3]

/-- Settles O59: such an access reaches no register, or one that does not take it. -/
theorem badAccessOnlyReports : Obligations.BadAccessOnlyReports := by
  constructor
  · intro bits offset s h
    rcases accessed_outside h with hnone | ⟨r, hr, hout⟩
    · rw [serve, readPort, hnone]
      rfl
    · rw [serve, readPort, hr]
      exact congrArg _ (readReg_of_not_readable hout s)
  · intro bits offset c s h
    rcases accessed_outside h with hnone | ⟨r, hr, hout⟩
    · rw [serve, writePort, hnone]
      rfl
    · rw [serve, writePort, hr]
      exact writeReg_of_not_writable hout c s

/-- Settles O6: the first input is the write, and what it runs follows the decoder. -/
theorem stepRunsWrittenCommand : Obligations.StepRunsWrittenCommand := by
  refine ⟨fun s c rest h => ⟨fun i hi => ?_, fun e he => ?_⟩, fun s w i hi => ?_⟩
  · rw [step_of_inputs_cons h, serve_write_cmd, runCommand_of_ok hi]
    rfl
  · rw [step_of_inputs_cons h, serve_write_cmd, runCommand_of_error he]
    rfl
  · rw [step_of_inputs_cons (withFetchWord_inputs s w), serve_write_cmd, runCommand_of_ok hi]
    rfl

/-- Settles O7: the two cases of `step`, and the reset input. -/
theorem stepServesFirstInput : Obligations.StepServesFirstInput :=
  ⟨fun _ => step_of_inputs_nil, fun _ _ _ => step_of_inputs_cons, fun _ => rfl⟩

/-- Settles O56: the halves of the selected register as numbers. -/
theorem windowMovesHalves : Obligations.WindowMovesHalves := by
  intro s i c hi
  obtain rfl := State.selected_eq hi
  have hsel : BitVec.ofNat 4 (c.toNat % 16) = BitVec.ofNat 4 c.toNat := bitVec_ofNat_mod_two_pow 4 c.toNat
  rw [← lowHalf_toNat, ← highHalf_toNat, BitVec.ofNat_toNat, BitVec.ofNat_toNat, BitVec.setWidth_eq,
    BitVec.setWidth_eq, ← halves_eq_ofNat, ← halves_eq_ofNat, hsel]
  exact ⟨rfl, rfl, rfl, rfl, rfl⟩

end Sys2Proof.Proofs
end

section
/-! SUPPORT. The fields of a command word, said of the word and of its layout, and the decoder as the inverse of the
encoder (30_encoding.md R91, R92, R95). -/

namespace Sys2Proof

/-! ### Fields -/

theorem regField_val (c : Word) (lo : Nat) : (regField c lo).val = slice c (lo + 3) lo := by
  have hlt : slice c (lo + 3) lo < 16 := by
    rw [slice, show lo + 3 - lo + 1 = 4 by omega]
    exact Nat.mod_lt _ (by decide)
  exact Nat.mod_eq_of_lt hlt

theorem immField_toNat (c : Word) : (immField c).toNat = slice c 15 0 :=
  Nat.mod_eq_of_lt (Nat.mod_lt _ (by decide))

theorem regField_eq_zero_iff (c : Word) (lo : Nat) : regField c lo = 0 ↔ slice c (lo + 3) lo = 0 := by
  rw [Fin.ext_iff, regField_val]
  rfl

/-! ### Words laid out in a format: the word is the list of its fields -/

@[simp] theorem encodeR_eq_iff {op : Nat} (hop : op < 256) (rd ra rb rd2 : Fin 16) (c : Word) :
    encodeR op rd ra rb rd2 = c ↔ opField c = op ∧ rdField c = rd ∧ raField c = ra ∧ rbField c = rb ∧
      rd2Field c = rd2 ∧ slice c 7 0 = 0 := by
  have hc := c.isLt
  simp only [BitVec.toNat_eq, Fin.ext_iff, rdField, raField, rbField, rd2Field, regField_val, opField, slice, encodeR,
    BitVec.toNat_ofNat]
  omega

@[simp] theorem encodeI_eq_iff {op : Nat} (hop : op < 256) (rd : Fin 16) (imm : BitVec 16) (c : Word) :
    encodeI op rd imm = c ↔ opField c = op ∧ rdField c = rd ∧ raField c = 0 ∧ immField c = imm := by
  have hc := c.isLt
  have himm := imm.isLt
  simp only [BitVec.toNat_eq, Fin.ext_iff, rdField, raField, regField_val, immField_toNat, opField, slice, encodeI,
    BitVec.toNat_ofNat, Fin.val_zero]
  omega

/-! ### Must-be-zero bits: the fields they stand for are zero -/

@[simp] theorem slice_19_16_eq_zero_iff (c : Word) : slice c 19 16 = 0 ↔ raField c = 0 :=
  (regField_eq_zero_iff c 16).symm

@[simp] theorem slice_23_20_eq_zero_iff (c : Word) : slice c 23 20 = 0 ↔ rdField c = 0 :=
  (regField_eq_zero_iff c 20).symm

@[simp] theorem slice_11_0_eq_zero_iff (c : Word) : slice c 11 0 = 0 ↔ rd2Field c = 0 ∧ slice c 7 0 = 0 := by
  rw [rd2Field, regField_eq_zero_iff]
  simp only [slice]
  omega

@[simp] theorem slice_15_0_eq_zero_iff (c : Word) : slice c 15 0 = 0 ↔ rbField c = 0 ∧ slice c 11 0 = 0 := by
  rw [rbField, regField_eq_zero_iff]
  simp only [slice]
  omega

@[simp] theorem slice_19_0_eq_zero_iff (c : Word) : slice c 19 0 = 0 ↔ raField c = 0 ∧ slice c 15 0 = 0 := by
  rw [raField, regField_eq_zero_iff]
  simp only [slice]
  omega

@[simp] theorem slice_23_0_eq_zero_iff (c : Word) : slice c 23 0 = 0 ↔ rdField c = 0 ∧ slice c 19 0 = 0 := by
  rw [rdField, regField_eq_zero_iff]
  simp only [slice]
  omega

/-- The bits of `CONST`'s number above the two it may use (R94). -/
@[simp] theorem slice_15_2_eq_zero_iff (c : Word) : slice c 15 2 = 0 ↔ (immField c).toNat ≤ 3 := by
  rw [immField_toNat]
  simp only [slice]
  omega

/-! ### The rows of the decoder -/

@[simp] theorem takeRow_eq_ok_iff (zero : Bool) (i j : Instr) : takeRow zero i = .ok j ↔ zero = true ∧ i = j := by
  cases zero <;> simp [takeRow]

@[simp] theorem rowDAB_eq_ok_iff (c : Word) (f : Fin 16 → Fin 16 → Fin 16 → Instr) (i : Instr) :
    rowDAB c f = .ok i ↔ slice c 11 0 = 0 ∧ f (rdField c) (raField c) (rbField c) = i := by
  rw [rowDAB, takeRow_eq_ok_iff, beq_iff_eq]

@[simp] theorem rowDA_eq_ok_iff (c : Word) (f : Fin 16 → Fin 16 → Instr) (i : Instr) :
    rowDA c f = .ok i ↔ slice c 15 0 = 0 ∧ f (rdField c) (raField c) = i := by
  rw [rowDA, takeRow_eq_ok_iff, beq_iff_eq]

@[simp] theorem rowD_eq_ok_iff (c : Word) (f : Fin 16 → Instr) (i : Instr) :
    rowD c f = .ok i ↔ slice c 19 0 = 0 ∧ f (rdField c) = i := by
  rw [rowD, takeRow_eq_ok_iff, beq_iff_eq]

@[simp] theorem rowDivrem_eq_ok_iff (c : Word) (i : Instr) :
    rowDivrem c = .ok i ↔ (slice c 7 0 = 0 ∧ rdField c ≠ rd2Field c) ∧
      .divrem (rdField c) (rd2Field c) (raField c) (rbField c) = i := by
  by_cases hz : slice c 7 0 = 0 <;> by_cases hd : rdField c = rd2Field c <;> simp [rowDivrem, hz, hd]

/-! ### Decoder and encoder are inverse -/

/-- The row of the word's opcode gives the fields that `encode` lays out; the others it found zero. -/
theorem encode_of_decode {c : Word} {i : Instr} (h : decode c = .ok i) : encode i = c ∧ i.wellFormed = true := by
  unfold decode at h
  split at h
  case h_42 => cases h
  all_goals
    rename_i hop
    simp only [rowDAB_eq_ok_iff, rowDA_eq_ok_iff, rowD_eq_ok_iff, rowDivrem_eq_ok_iff, takeRow_eq_ok_iff] at h
    obtain ⟨hzero, rfl⟩ := h
    simpa [encode, Instr.wellFormed, hop] using hzero

/-- The opcode of the word chooses the row, and the fields are the operands. Only `CONST` and `DIVREM` test more than
fields that are laid out as zero. -/
theorem decode_encode {i : Instr} (h : i.wellFormed = true) : decode (encode i) = .ok i := by
  generalize hc : encode i = c
  cases i
  all_goals simp only [encode, encodeR_eq_iff, encodeI_eq_iff, Nat.reduceLT] at hc
  case const vd k =>
    have hk : k.toNat ≤ 3 := by simpa [Instr.wellFormed] using h
    simp [decode, hc, hk]
  case divrem vq vr va vb =>
    have hne : vq ≠ vr := by simpa [Instr.wellFormed] using h
    simp [decode, hc, hne]
  all_goals simp [decode, hc]

end Sys2Proof

namespace Sys2Proof.Proofs

open Sys2Proof.Claims

/-- Settles O1: command by command, the fields of the word are the operands. -/
theorem decodeOfEncode : Obligations.DecodeOfEncode := fun _ => decode_encode

/-- Settles O2: row by row, the fields the decoder took and the zeros it found are the whole word. -/
theorem encodeOfDecode : Obligations.EncodeOfDecode := fun _ _ => encode_of_decode

/-- Settles O4: the words of commands are those `encode` gives (O1); the last three are decoded. -/
theorem workedEncodingsDecode : Obligations.WorkedEncodingsDecode :=
  have word : ∀ {c : Word} (i : Instr), encode i = c → i.wellFormed = true → decode c = .ok i :=
    fun _ hc hi => hc ▸ decode_encode hi
  ⟨word .nop rfl rfl, word (.const 0 1) rfl rfl, word (.xli 1 10) rfl rfl, word (.xli 2 0xFFFF) rfl rfl,
    word (.add 3 1 2) rfl rfl, word (.divrem 4 5 1 2) rfl rfl, word (.shl 2 1 1) rfl rfl, word (.tobytes 2) rfl rfl,
    word (.fromint64 6 3) rfl rfl, word (.cmp 4 9 8) rfl rfl, word (.mul 7 10 11) rfl rfl,
    word (.pow 12 13 14) rfl rfl, word (.magwf 9 10 11) rfl rfl, rfl, rfl, rfl⟩

end Sys2Proof.Proofs
end

section
/-! SUPPORT. The rows of spec/opcode_table.json against the rows of the decoder (30_encoding.md R95, R96). -/

namespace Sys2Proof.Claims

/-! ### Masks -/

/-- The mask of the bits `hi:lo`. -/
def sliceMask (hi lo : Nat) : Word := (BitVec.allOnes (hi - lo + 1)).setWidth 32 <<< lo

theorem slice_eq_extractLsb' (c : Word) (hi lo : Nat) : slice c hi lo = (c.extractLsb' lo (hi - lo + 1)).toNat := by
  rw [slice, BitVec.extractLsb'_toNat, Nat.shiftRight_eq_div_pow]

theorem getLsbD_sliceMask {hi lo k : Nat} (hlo : lo ≤ hi) (hk : k < 32) :
    (sliceMask hi lo).getLsbD k = (decide (lo ≤ k) && decide (k ≤ hi)) := by
  simp only [sliceMask, BitVec.getLsbD_shiftLeft, BitVec.getLsbD_setWidth, BitVec.getLsbD_allOnes]
  grind

/-- A mask of consecutive bits compares a slice. -/
theorem and_sliceMask_eq_iff (c p : Word) {hi lo : Nat} (hhi : hi < 32) (hlo : lo ≤ hi) :
    c &&& sliceMask hi lo = p &&& sliceMask hi lo ↔ slice c hi lo = slice p hi lo := by
  rw [slice_eq_extractLsb', slice_eq_extractLsb', ← BitVec.toNat_eq]
  constructor
  · intro h
    apply BitVec.eq_of_getLsbD_eq
    intro k hk
    have hbit := congrArg (BitVec.getLsbD · (lo + k)) h
    simpa [getLsbD_sliceMask hlo (show lo + k < 32 by omega), hk, show lo + k ≤ hi by omega] using hbit
  · intro h
    apply BitVec.eq_of_getLsbD_eq
    intro k hk
    have hbit := congrArg (BitVec.getLsbD · (k - lo)) h
    simp only [BitVec.getLsbD_extractLsb', BitVec.getLsbD_and, getLsbD_sliceMask hlo hk] at hbit ⊢
    grind

/-- A mask in two parts compares each part. -/
theorem and_or_eq_iff {c p m n : Word} :
    c &&& (m ||| n) = p &&& (m ||| n) ↔ c &&& m = p &&& m ∧ c &&& n = p &&& n := by
  constructor
  · intro h
    have hm : (m ||| n) &&& m = m := by
      ext k
      simp only [BitVec.getElem_and, BitVec.getElem_or]
      grind
    have hn : (m ||| n) &&& n = n := by
      ext k
      simp only [BitVec.getElem_and, BitVec.getElem_or]
      grind
    constructor
    · rw [← hm, ← BitVec.and_assoc, h, BitVec.and_assoc]
    · rw [← hn, ← BitVec.and_assoc, h, BitVec.and_assoc]
  · rintro ⟨hm, hn⟩
    rw [BitVec.and_or_distrib_left, BitVec.and_or_distrib_left, hm, hn]

theorem and_eq_zero_iff_of_sliceMask (c : Word) {m : Word} {hi lo : Nat} (hm : m = sliceMask hi lo)
    (hhi : hi < 32 := by decide) (hlo : lo ≤ hi := by decide) : c &&& m = 0#32 ↔ slice c hi lo = 0 := by
  rw [hm]
  simpa [slice] using and_sliceMask_eq_iff c 0 hhi hlo

theorem and_eq_zero_iff_of_sliceMask_or (c : Word) {m : Word} {hi lo hi' lo' : Nat}
    (hm : m = sliceMask hi lo ||| sliceMask hi' lo') (hhi : hi < 32 := by decide)
    (hlo : lo ≤ hi := by decide) (hhi' : hi' < 32 := by decide) (hlo' : lo' ≤ hi' := by decide) :
    c &&& m = 0#32 ↔ slice c hi lo = 0 ∧ slice c hi' lo' = 0 := by
  rw [hm, BitVec.and_or_distrib_left, BitVec.or_eq_zero_iff, and_eq_zero_iff_of_sliceMask c rfl hhi hlo,
    and_eq_zero_iff_of_sliceMask c rfl hhi' hlo']

/-- The must-be-zero masks of R96 are the tests of the decoder's rows: one for each shape of a row. -/
theorem and_mask_eq_zero_iff (c : Word) :
    (c &&& 0x00FFFFFF#32 = 0#32 ↔ slice c 23 0 = 0) ∧ (c &&& 0x000FFFFF#32 = 0#32 ↔ slice c 19 0 = 0) ∧
    (c &&& 0x0000FFFF#32 = 0#32 ↔ slice c 15 0 = 0) ∧ (c &&& 0x00000FFF#32 = 0#32 ↔ slice c 11 0 = 0) ∧
    (c &&& 0x000000FF#32 = 0#32 ↔ slice c 7 0 = 0) ∧ (c &&& 0x000F0000#32 = 0#32 ↔ slice c 19 16 = 0) ∧
    (c &&& 0x000FFFFC#32 = 0#32 ↔ slice c 19 16 = 0 ∧ slice c 15 2 = 0) ∧
    (c &&& 0x00F0FFFF#32 = 0#32 ↔ slice c 23 20 = 0 ∧ slice c 15 0 = 0) ∧
    (c &&& 0x00F00FFF#32 = 0#32 ↔ slice c 23 20 = 0 ∧ slice c 11 0 = 0) :=
  ⟨and_eq_zero_iff_of_sliceMask c rfl, and_eq_zero_iff_of_sliceMask c rfl, and_eq_zero_iff_of_sliceMask c rfl,
    and_eq_zero_iff_of_sliceMask c rfl, and_eq_zero_iff_of_sliceMask c rfl, and_eq_zero_iff_of_sliceMask c rfl,
    and_eq_zero_iff_of_sliceMask_or c rfl, and_eq_zero_iff_of_sliceMask_or c rfl,
    and_eq_zero_iff_of_sliceMask_or c rfl⟩

/-! ### A row of the table -/

/-- The must-be-zero bits of a row: what its mask fixes below the opcode (R96). -/
def Row.zeroMask (r : Row) : Word := r.mask &&& 0x00FFFFFF

theorem Row.command_eq (r : Row) (c : Word) :
    r.command c = r.build (rdField c) (raField c) (rbField c) (rd2Field c) (immField c) := by
  have hreg : ∀ lo, Fin.ofNat 16 (c.extractLsb' lo 4).toNat = regField c lo := by
    intro lo
    rw [regField, slice_eq_extractLsb', Nat.add_sub_cancel_left]
  have himm : c.extractLsb' 0 16 = immField c := by
    rw [immField, slice_eq_extractLsb', BitVec.ofNat_toNat, BitVec.setWidth_eq]
  rw [Row.command, hreg, hreg, hreg, hreg, himm]
  rfl

/-- Every row fixes the whole opcode, and asks for zeros below it. -/
theorem opcodeRows_mask : ∀ r ∈ opcodeRows, r.mask = sliceMask 31 24 ||| r.zeroMask ∧
    r.pattern &&& r.mask = r.pattern ∧ r.pattern &&& r.zeroMask = 0#32 := by
  decide

theorem opcodeRows_opField_ne : opcodeRows.Pairwise fun r q => opField r.pattern ≠ opField q.pattern := by
  decide

/-- A row takes a word with its opcode and with zeros at its must-be-zero bits (R95 steps 1 and 2). -/
theorem Row.takes_iff {r : Row} (hr : r ∈ opcodeRows) (c : Word) :
    r.takes c ↔ opField c = opField r.pattern ∧ c &&& r.zeroMask = 0#32 := by
  obtain ⟨hmask, hpattern, hzero⟩ := opcodeRows_mask r hr
  calc r.takes c
    _ ↔ c &&& r.mask = r.pattern &&& r.mask := by rw [hpattern]
    _ ↔ c &&& sliceMask 31 24 = r.pattern &&& sliceMask 31 24 ∧ c &&& r.zeroMask = 0#32 := by
      rw [hmask, and_or_eq_iff, hzero]
    _ ↔ opField c = opField r.pattern ∧ c &&& r.zeroMask = 0#32 := by
      rw [and_sliceMask_eq_iff c r.pattern (by decide) (by decide), opField, opField]

theorem sameDestinations_iff (c : Word) :
    sameDestinations c ↔ opField c = 0x50 ∧ slice c 7 0 = 0 ∧ rdField c = rd2Field c := by
  have hmem : ⟨0x50000000, 0xFF0000FF, fun d a b d2 _ => .divrem d d2 a b⟩ ∈ opcodeRows := by
    simp [opcodeRows, rowsHigh]
  have hrow : c &&& 0xFF0000FF = 0x50000000 ↔ opField c = 0x50 ∧ c &&& 0xFF#32 = 0#32 := Row.takes_iff hmem c
  have hreg : c.extractLsb' 20 4 = c.extractLsb' 8 4 ↔ rdField c = rd2Field c := by
    rw [rdField, rd2Field, Fin.ext_iff, regField_val, regField_val, slice_eq_extractLsb', slice_eq_extractLsb',
      ← BitVec.toNat_eq]
  rw [sameDestinations, hrow, hreg, and_eq_zero_iff_of_sliceMask c (m := 0xFF#32) (hi := 7) (lo := 0) rfl, and_assoc]

theorem opField_ofNat (n : Nat) : opField (BitVec.ofNat 32 n) = n / 2 ^ 24 % 256 := by
  simp only [opField, slice, BitVec.toNat_ofNat]
  omega

/-- The row with the word's opcode decides the word (R95 steps 2 and 3). -/
theorem decode_eq_ok_iff_of_row {r : Row} (hr : r ∈ opcodeRows) {c : Word} (hop : opField c = opField r.pattern)
    (i : Instr) : decode c = .ok i ↔ (c &&& r.zeroMask = 0#32 ∧ ¬sameDestinations c) ∧ r.command c = i := by
  rw [sameDestinations_iff, Row.command_eq]
  fin_cases hr
  all_goals
    simp only [opField_ofNat, BitVec.ofNat_eq_ofNat, Nat.reducePow, Nat.reduceDiv, Nat.reduceMod, Nat.zero_div,
      Nat.zero_mod] at hop
    simp +contextual [decode, hop, Row.zeroMask, and_mask_eq_zero_iff]

theorem exists_row_of_opcode (i : Instr) : ∃ r ∈ opcodeRows, opField r.pattern = Laws.OpcodeField.opcode i := by
  have hops : opcodeRows.map (opField ·.pattern) = [0x00, 0x01, 0x02, 0x03, 0x04, 0x10, 0x11, 0x12, 0x20, 0x21, 0x22,
      0x30, 0x31, 0x32, 0x33, 0x40, 0x50, 0x51, 0x52, 0x53, 0x60, 0x70, 0x71, 0x72, 0x73, 0x74, 0x75, 0x76, 0x77, 0x78,
      0x79, 0x7A, 0x80, 0x81, 0x82, 0x83, 0x90, 0x91, 0x92, 0x93, 0x94] := by decide
  rw [← List.mem_map, hops]
  cases i <;> simp [Laws.OpcodeField.opcode]

theorem opField_encode (i : Instr) : opField (encode i) = Laws.OpcodeField.opcode i := by
  cases i <;> simp [encode, Laws.OpcodeField.opcode, Laws.OpcodeField.opField_encodeR, Laws.OpcodeField.opField_encodeI]

/-- A word that decodes has the opcode of a row. -/
theorem exists_row_of_decode {c : Word} {i : Instr} (h : decode c = .ok i) :
    ∃ r ∈ opcodeRows, opField c = opField r.pattern := by
  obtain ⟨r, hr, hop⟩ := exists_row_of_opcode i
  exact ⟨r, hr, by rw [hop, ← opField_encode, (encode_of_decode h).1]⟩

end Sys2Proof.Claims

namespace Sys2Proof.Proofs

open Sys2Proof.Claims

/-- Settles O3: the row with the word's opcode decides the word, and the rows have different opcodes. -/
theorem decodeMatchesOpcodeTable : Obligations.DecodeMatchesOpcodeTable := by
  refine ⟨fun c i => ⟨fun h => ?_, ?_⟩, opcodeRows_opField_ne.imp_of_mem fun hr hq hne c ⟨htr, htq⟩ => hne ?_⟩
  · obtain ⟨r, hr, hop⟩ := exists_row_of_decode h
    obtain ⟨⟨hzero, hsame⟩, hi⟩ := (decode_eq_ok_iff_of_row hr hop i).1 h
    exact ⟨r, hr, (Row.takes_iff hr c).2 ⟨hop, hzero⟩, hi.symm, hsame⟩
  · rintro ⟨r, hr, htakes, hi, hsame⟩
    obtain ⟨hop, hzero⟩ := (Row.takes_iff hr c).1 htakes
    exact (decode_eq_ok_iff_of_row hr hop i).2 ⟨⟨hzero, hsame⟩, hi.symm⟩
  · exact ((Row.takes_iff hr c).1 htr).1.symm.trans ((Row.takes_iff hq c).1 htq).1

end Sys2Proof.Proofs
end

section
/-! SUPPORT. Strings of units as numbers, and the normalizer as the two's-complement reading of its string
(00_scope.md R62; 40_construct.md R120, R121). -/

namespace Sys2Proof.Machine

open Sys2Proof.Claims

section Units

variable {k : Nat}

/-! ### Strings of units -/

theorem unitsNat_concat (u : List (BitVec k)) (w : BitVec k) : unitsNat (u ++ [w]) = unitsNat u * 2 ^ k + w.toNat := by
  rw [unitsNat, List.foldl_append]
  rfl

theorem unitsNat_append (u v : List (BitVec k)) :
    unitsNat (u ++ v) = unitsNat u * 2 ^ (k * v.length) + unitsNat v := by
  induction v using List.reverseRecOn with
  | nil => simp [unitsNat]
  | append_singleton v w ih =>
    rw [← List.append_assoc, unitsNat_concat, ih, unitsNat_concat, List.length_append, List.length_singleton,
      Nat.mul_add_one, Nat.pow_add]
    ring

theorem unitsNat_cons (w : BitVec k) (u : List (BitVec k)) :
    unitsNat (w :: u) = w.toNat * 2 ^ (k * u.length) + unitsNat u := by
  rw [← List.singleton_append, unitsNat_append]
  simp [unitsNat]

/-- Leading zero units do not change the number (R120). -/
theorem unitsNat_dropWhile_zero (u : List (BitVec k)) : unitsNat (u.dropWhile (· == 0#k)) = unitsNat u := by
  induction u with
  | nil => rfl
  | cons w u ih =>
    by_cases hw : w = 0#k
    · rw [List.dropWhile_cons_of_pos (by simpa using hw), ih, unitsNat_cons, hw]
      simp
    · rw [List.dropWhile_cons_of_neg (by simpa using hw)]

/-- A string and its complement fill every unit with ones. -/
theorem unitsNat_map_not (u : List (BitVec k)) :
    unitsNat (u.map (~~~ ·)) + unitsNat u + 1 = 2 ^ (k * u.length) := by
  induction u using List.reverseRecOn with
  | nil => rfl
  | append_singleton u w ih =>
    have hw : (~~~w).toNat + w.toNat + 1 = 2 ^ k := by
      have := w.isLt
      rw [BitVec.toNat_not]
      omega
    rw [List.map_append, List.map_singleton, unitsNat_concat, unitsNat_concat, List.length_append,
      List.length_singleton, Nat.mul_add_one, Nat.pow_add]
    linear_combination hw + 2 ^ k * ih

/-- Steps (c) and (d) of R120 add the carry. -/
theorem unitsNat_incUnits (hk : 0 < k) (u : List (BitVec k)) {carry : Nat} (hc : carry ≤ 1) :
    unitsNat (incUnits u carry).reverse = unitsNat u.reverse + carry := by
  induction u generalizing carry with
  | nil =>
    rw [incUnits]
    split
    · rename_i h
      simp [unitsNat, h, hk]
    · simp only [List.reverse_nil]
      omega
  | cons t u ih =>
    have hdiv : (t.toNat + carry) / 2 ^ k ≤ 1 := by
      have := t.isLt
      exact Nat.le_of_lt_succ (Nat.div_lt_of_lt_mul (by omega))
    have hsplit := Nat.mod_add_div (t.toNat + carry) (2 ^ k)
    rw [incUnits, List.reverse_cons, unitsNat_concat, ih hdiv, List.reverse_cons, unitsNat_concat, BitVec.toNat_ofNat]
    linear_combination hsplit

/-! ### The normalizer -/

/-- Stripping all-ones units and complementing is complementing and stripping zero units. -/
theorem map_not_dropWhile_allOnes (u : List (BitVec k)) :
    (u.dropWhile (· == BitVec.allOnes k)).map (~~~ ·) = (u.map (~~~ ·)).dropWhile (· == 0#k) := by
  have htest : ((· == 0#k) ∘ (~~~ ·) : BitVec k → Bool) = (· == BitVec.allOnes k) := by
    funext t
    rw [Function.comp, Bool.eq_iff_iff, beq_iff_eq, beq_iff_eq, BitVec.not_eq_comm, BitVec.not_zero]
  rw [List.dropWhile_map, htest]

/-- The negative branch of R120 gives what the string lacks to the full range of its units. -/
theorem unitsNat_negateUnits (hk : 0 < k) (u : List (BitVec k)) :
    unitsNat (negateUnits u) + unitsNat u = 2 ^ (k * u.length) := by
  rw [negateUnits, unitsNat_incUnits hk _ le_rfl, List.reverse_reverse, map_not_dropWhile_allOnes,
    unitsNat_dropWhile_zero, ← unitsNat_map_not u]
  omega

theorem twosReading_of_msb {u : List (BitVec k)} (h : (u.headD 0#k).msb = true) :
    twosReading u = (unitsNat u : Int) - 2 ^ (k * u.length) := if_pos h

theorem twosReading_of_not_msb {u : List (BitVec k)} (h : ¬(u.headD 0#k).msb = true) :
    twosReading u = (unitsNat u : Int) := if_neg h

/-- R121: the normalizer keeps the two's-complement reading of its string. -/
theorem val_normUnits (hk : 0 < k) (u : List (BitVec k)) : (normUnits u).val = twosReading u := by
  unfold normUnits
  split
  · rename_i hmsb
    have hsum : ((unitsNat (negateUnits u) + unitsNat u : Nat) : Int) = (2 ^ (k * u.length) : Nat) :=
      congrArg _ (unitsNat_negateUnits hk u)
    rw [twosReading_of_msb hmsb, Value.val, Sign.num, magNat_natMag]
    push_cast at hsum
    linear_combination -hsum
  · rename_i hmsb
    rw [val_canon, unitsNat_dropWhile_zero, twosReading_of_not_msb hmsb]

theorem normUnits_eq_canon (hk : 0 < k) (u : List (BitVec k)) : normUnits u = canon (twosReading u) :=
  eq_canon_of_val (canonical_normUnits u) (val_normUnits hk u)

theorem norm_of_ne_nil (hk : 0 < k) {u : List (BitVec k)} (h : u ≠ []) : norm u = .ok (canon (twosReading u)) :=
  (norm_ok_iff u _).2 ⟨h, (normUnits_eq_canon hk u).symm⟩

theorem norm_nil : norm ([] : List (BitVec k)) = .error .constructionError := rfl

end Units

end Sys2Proof.Machine

namespace Sys2Proof.Proofs

open Sys2Proof.Machine Sys2Proof.Claims

/-- Settles O20: in both branches the value the normalizer builds stands for the reading of the string, and a canonical
value is fixed by the integer it stands for. -/
theorem normalizerReadsTwosComplement : Obligations.NormalizerReadsTwosComplement := by
  intro k u hk
  refine ⟨?_, norm_of_ne_nil hk⟩
  rintro rfl
  exact norm_nil

end Sys2Proof.Proofs
end

section
/-! SUPPORT. The end of a command that writes a value, and the construction commands FROMBYTES, FROMWORDS, FROMINT64
(40_construct.md R122 to R125; 60_exceptions.md R299, R300). -/

namespace Sys2Proof.Machine

open Sys2Proof.Claims

/-! ### The end of a command that writes a value -/

/-- The capacity test of a value register is on the number of words (R21). -/
theorem fitsIn_maxw (s : State) (a : Value) : fitsIn s.params.maxw a.mag = fitsWords s a := by
  rw [Bool.eq_iff_iff, fitsIn_iff, fitsWords, Option.all_eq_true]
  simp only [decide_eq_true_eq]

/-- The error entry of a command word (R300): the word decodes to the instruction, so it is its encoding. -/
theorem finish_error_of_decode {c : Word} {i : Instr} (h : decode c = .ok i) (s : State) (e : ErrorKind) :
    finish i s (.error e) = .next (afterError s e.code c) := by
  rw [finish_error, (encode_of_decode h).1]
  rfl

theorem finish_writeV_of_fits {s : State} {a : Value} (h : fitsWords s a = true) (i : Instr) (d : VReg) (src : Rsrc) :
    finish i s (s.writeV d { value := a, src := src }) = .next (afterV s d a src) := by
  rw [(s.writeV_ok_iff d _ _).2 ⟨(fitsIn_maxw s a).trans h, rfl⟩]
  rfl

theorem finish_writeV_of_not_fits {s : State} {a : Value} (h : fitsWords s a = false) {c : Word} {i : Instr}
    (hc : decode c = .ok i) (d : VReg) (src : Rsrc) :
    finish i s (s.writeV d { value := a, src := src }) = .next (afterError s 9 c) := by
  rw [(s.writeV_error_iff d _ _).2 ⟨(fitsIn_maxw s a).trans h, rfl⟩, finish_error_of_decode hc]
  rfl

/-! ### The buffer as words (R63, R123) -/

theorem joinBytes_toNat (b0 b1 b2 b3 : Byte) : (joinBytes b0 b1 b2 b3).toNat = unitsNat [b0, b1, b2, b3] := by
  rw [joinBytes, bitVec_append_toNat, bitVec_append_toNat, bitVec_append_toNat]
  simp [unitsNat]

theorem joinBytes_msb (b0 b1 b2 b3 : Byte) : (joinBytes b0 b1 b2 b3).msb = b0.msb := by
  rw [joinBytes, BitVec.msb_append, BitVec.msb_append, BitVec.msb_append]
  rfl

theorem bufWords_nil : bufWords [] = [] := rfl

theorem bufWords_cons (b0 b1 b2 b3 : Byte) (rest : List Byte) :
    bufWords (b0 :: b1 :: b2 :: b3 :: rest) = joinBytes b0 b1 b2 b3 :: bufWords rest := rfl

/-- Bytes that make one word more than `n` are the four bytes of a word and those of `n` words. -/
theorem exists_word_of_length {bs : List Byte} {n : Nat} (h : bs.length = 4 * (n + 1)) :
    ∃ b0 b1 b2 b3 rest, bs = b0 :: b1 :: b2 :: b3 :: rest ∧ rest.length = 4 * n := by
  match bs with
  | b0 :: b1 :: b2 :: b3 :: rest => exact ⟨b0, b1, b2, b3, rest, rfl, by simp only [List.length_cons] at h; omega⟩
  | [] | [_] | [_, _] | [_, _, _] => simp only [List.length_cons, List.length_nil] at h; omega

/-- Whole words stand for the number of their bytes. -/
theorem unitsNat_bufWords {bs : List Byte} {n : Nat} (h : bs.length = 4 * n) :
    (bufWords bs).length = n ∧ unitsNat (bufWords bs) = unitsNat bs := by
  induction n generalizing bs with
  | zero =>
    obtain rfl := List.length_eq_zero_iff.1 h
    exact ⟨rfl, rfl⟩
  | succ n ih =>
    obtain ⟨b0, b1, b2, b3, rest, rfl, hrest⟩ := exists_word_of_length h
    obtain ⟨hlen, hnat⟩ := ih hrest
    have hwidth : 32 * (bufWords rest).length = 8 * rest.length := by omega
    have hbytes : b0 :: b1 :: b2 :: b3 :: rest = [b0, b1, b2, b3] ++ rest := rfl
    refine ⟨by rw [bufWords_cons, List.length_cons, hlen], ?_⟩
    rw [bufWords_cons, unitsNat_cons, hnat, joinBytes_toNat, hwidth, hbytes, unitsNat_append]

theorem headD_msb_bufWords {bs : List Byte} {n : Nat} (h : bs.length = 4 * n) :
    ((bufWords bs).headD 0#32).msb = (bs.headD 0#8).msb := by
  cases n with
  | zero => rw [List.length_eq_zero_iff.1 h, bufWords_nil]; rfl
  | succ n =>
    obtain ⟨b0, b1, b2, b3, rest, rfl, -⟩ := exists_word_of_length h
    exact joinBytes_msb b0 b1 b2 b3

/-- R124: read as bytes or as words, the buffer is the same two's-complement string. -/
theorem twosReading_bufWords {bs : List Byte} (h : bs.length % 4 = 0) : twosReading (bufWords bs) = twosReading bs := by
  obtain ⟨n, hn⟩ := Nat.dvd_of_mod_eq_zero h
  obtain ⟨hlen, hnat⟩ := unitsNat_bufWords hn
  have hmsb := headD_msb_bufWords hn
  have hwidth : 32 * (bufWords bs).length = 8 * bs.length := by omega
  by_cases hneg : (bs.headD 0#8).msb = true
  · rw [twosReading_of_msb (hmsb.trans hneg), twosReading_of_msb hneg, hnat, hwidth]
  · rw [twosReading_of_not_msb (hmsb ▸ hneg), twosReading_of_not_msb hneg, hnat]

/-! ### The commands -/

section Commands

variable {s : State} (vd : VReg)

theorem exec_frombytes_of_ne_nil (h : s.buf ≠ []) : exec (.frombytes vd) s =
    finish (.frombytes vd) s (s.writeV vd { value := canon (twosReading s.buf), src := .fresh }) := by
  rw [exec, execFrombytes, norm_of_ne_nil (by decide) h, ok_bind]

theorem exec_frombytes_of_nil (h : s.buf = []) :
    exec (.frombytes vd) s = finish (.frombytes vd) s (.error .constructionError) := by
  rw [exec, execFrombytes, h, norm_nil, error_bind]

theorem exec_fromwords_of_nil (h : s.buf = []) :
    exec (.fromwords vd) s = finish (.fromwords vd) s (.error .constructionError) := by
  rw [exec, execFromwords, h, if_pos List.length_nil]

theorem exec_fromwords_of_bad_length (h : s.buf.length % 4 ≠ 0) :
    exec (.fromwords vd) s = finish (.fromwords vd) s (.error .badLength) := by
  rw [exec, execFromwords, if_neg (by omega), if_pos h]

theorem exec_fromwords_of_words (hne : s.buf ≠ []) (h : s.buf.length % 4 = 0) : exec (.fromwords vd) s =
    finish (.fromwords vd) s (s.writeV vd { value := canon (twosReading s.buf), src := .fresh }) := by
  have hlen : s.buf.length ≠ 0 := fun h0 => hne (List.length_eq_zero_iff.1 h0)
  obtain ⟨n, hn⟩ := Nat.dvd_of_mod_eq_zero h
  have hwords : bufWords s.buf ≠ [] := by
    rw [← List.length_pos_iff, (unitsNat_bufWords hn).1]
    omega
  rw [exec, execFromwords, if_neg hlen, if_neg (not_not.2 h), norm_of_ne_nil (by decide) hwords, ok_bind,
    twosReading_bufWords h]

theorem exec_fromint64 (xa : XReg) : exec (.fromint64 vd xa) s =
    finish (.fromint64 vd xa) s (s.writeV vd { value := canon (s.xReg xa).toInt, src := .fresh }) := rfl

end Commands

/-- The magnitude of `canon z` is the digits of `|z|`. -/
theorem magNat_canon (z : Int) : magNat (canon z).mag = z.natAbs := by
  rw [← natAbs_val (canonical_canon z), val_canon]

/-- A scalar needs at most two words (R125). -/
theorem length_canon_scalar_le (x : Scalar) : (canon x.toInt).mag.length ≤ 2 := by
  rw [length_le_iff_magNat_lt (noLeadingZero_of_canonical (canonical_canon _)), magNat_canon]
  have hlo := x.le_toInt
  have hhi := x.toInt_lt
  simp only [wordBase]
  omega

/-- The parameters R6 allows: at least two words, and a buffer for the encoding of every value that fits. -/
theorem Params.legal_iff (p : Config.Params) : p.legal = true ↔
    (∀ m, p.maxw = some m → 2 ≤ m) ∧ ∀ c, p.bufcap = some c → ∃ m, p.maxw = some m ∧ 4 * m + 1 ≤ c := by
  obtain ⟨maxw, bufcap⟩ := p
  cases maxw <;> cases bufcap <;> simp [Config.Params.legal]

end Sys2Proof.Machine

namespace Sys2Proof.Proofs

open Sys2Proof.Machine Sys2Proof.Claims

/-- Settles O21: the normalizer's value is written if it fits; the empty buffer has none. -/
theorem frombytesReadsBuffer : Obligations.FrombytesReadsBuffer := by
  intro vd s
  refine ⟨fun hne hfit => ?_, fun c hc hnil => ?_, fun c hc hne hfit => ?_⟩
  · rw [exec_frombytes_of_ne_nil vd hne, finish_writeV_of_fits hfit]
  · rw [exec_frombytes_of_nil vd hnil, finish_error_of_decode hc]
    rfl
  · rw [exec_frombytes_of_ne_nil vd hne, finish_writeV_of_not_fits hfit hc]

/-- Settles O22: the words of the buffer and its bytes are one string of bits, so the value is that of `FROMBYTES`. -/
theorem fromwordsReadsWords : Obligations.FromwordsReadsWords := by
  intro vd s
  refine ⟨fun hne hlen hfit => ?_, fun c hc hnil => ?_, fun c hc hlen => ?_, fun c hc hne hlen hfit => ?_⟩
  · rw [exec_fromwords_of_words vd hne hlen, finish_writeV_of_fits hfit]
  · rw [exec_fromwords_of_nil vd hnil, finish_error_of_decode hc]
    rfl
  · rw [exec_fromwords_of_bad_length vd hlen, finish_error_of_decode hc]
    rfl
  · rw [exec_fromwords_of_words vd hne hlen, finish_writeV_of_not_fits hfit hc]

/-- Settles O23: a scalar needs at most two words, and `MAXW` is at least 2. -/
theorem fromint64BuildsValue : Obligations.Fromint64BuildsValue := by
  intro vd xa s hs
  obtain ⟨hparams, -⟩ := (State.legal_iff s).1 hs
  have hfit : fitsWords s (canon (s.xReg xa).toInt) = true := by
    rw [fitsWords, Option.all_eq_true]
    intro m hm
    exact decide_eq_true ((length_canon_scalar_le _).trans (((Params.legal_iff _).1 hparams).1 m hm))
  rw [exec_fromint64, finish_writeV_of_fits hfit]

end Sys2Proof.Proofs
end

section
/-! SUPPORT. The two's-complement view of a value (46_bitwise.md R210), the bytes of the view, and the bit length
(47_export.md R250, R253). -/

namespace Sys2Proof.Machine

open Sys2Proof.Claims

/-! ### The integer of a value by its sign -/

theorem val_of_negative {a : Value} (h : a.sign = .negative) : a.val = -(magNat a.mag : Int) := by
  rw [Value.val, h, Sign.num, neg_one_mul]

theorem val_of_not_negative {a : Value} (ha : a.canonical = true) (h : a.sign ≠ .negative) :
    a.val = (magNat a.mag : Int) := by
  have hnonneg : 0 ≤ a.sign.num := by
    revert h
    cases a.sign <;> simp [Sign.num]
  have hval : 0 ≤ a.val := Int.mul_nonneg hnonneg (Int.natCast_nonneg _)
  rw [← natAbs_val ha, Int.natAbs_of_nonneg hval]

/-! ### The view (R210) -/

/-- `rev(a, i)` is digit `i` of the magnitude (R9). -/
theorem rev_eq_ofNat {a : Value} {i : Nat} (h : i < a.mag.reverse.length) :
    a.rev i = BitVec.ofNat 32 (magNat a.mag / wordBase ^ i) := by
  have hdigit : a.mag.reverse.getD i 0#32 = a.rev i := by
    rw [List.getD_eq_getElem _ _ h, List.getElem_reverse, Value.rev, List.getD_eq_getElem]
    rfl
  have hdiv := leNat_div_pow_eq a.mag.reverse i h
  rw [leNat_reverse, hdigit] at hdiv
  apply BitVec.eq_of_toNat_eq
  rw [hdiv, toNat_ofNat_word, Nat.mul_add_mod_self_right]
  exact (Nat.mod_eq_of_lt (a.rev i).isLt).symm

/-- A power of the base divides a number exactly up to the position of its first nonzero digit. -/
theorem pow_dvd_leNat_iff {ws : List Word} {i : Nat} (h : i < ws.length) :
    wordBase ^ i ∣ leNat ws ↔ i ≤ ws.findIdx (· != 0#32) := by
  induction ws generalizing i with
  | nil => nomatch h
  | cons w ws ih =>
    obtain _ | i := i
    · simp
    rw [leNat, List.findIdx_cons]
    by_cases hw : w = 0#32
    · have hdigit : wordBase ^ (i + 1) ∣ wordBase * leNat ws ↔ wordBase ^ i ∣ leNat ws := by
        rw [pow_succ', Nat.mul_dvd_mul_iff_left wordBase_pos]
      simpa [hw, hdigit] using ih (by simpa using h)
    · have hne : w.toNat ≠ 0 := fun h0 => hw (BitVec.eq_of_toNat_eq (by simpa using h0))
      have hndvd : ¬ wordBase ^ (i + 1) ∣ w.toNat + wordBase * leNat ws := fun hd =>
        have hB : wordBase ∣ w.toNat :=
          (Nat.dvd_add_left (Nat.dvd_mul_right _ _)).1 ((Dvd.intro_left _ (pow_succ ..).symm).trans hd)
        hne (Nat.eq_zero_of_dvd_of_lt hB w.isLt)
      rw [bne_iff_ne.2 hw]
      exact iff_of_false hndvd (Nat.not_succ_le_zero i)

/-- Above the magnitude the view has the word of the sign. -/
theorem wordAt_above {a : Value} (ha : a.canonical = true) {i : Nat} (hi : a.len ≤ i) :
    wordAt a i = BitVec.ofInt 32 (a.val / ((wordBase ^ i : Nat) : Int)) := by
  have hlt : magNat a.mag < wordBase ^ i :=
    (magNat_lt a.mag).trans_le (Nat.pow_le_pow_right wordBase_pos hi)
  rw [wordAt, if_pos hi]
  split
  · rename_i hneg
    have hmag := magNat_pos_of_canonical ha (by simp [hneg])
    have hdiv : -(magNat a.mag : Int) / ((wordBase ^ i : Nat) : Int) = -1 := by
      rw [Int.ediv_eq_iff_of_pos (by omega)]
      omega
    rw [val_of_negative hneg, hdiv]
    rfl
  · rename_i hneg
    rw [val_of_not_negative ha hneg, ← Int.natCast_ediv, Nat.div_eq_of_lt hlt]
    rfl

/-- Within the magnitude a negative value has its negated digit up to the first nonzero one, the complement above. -/
theorem wordAt_within {a : Value} (ha : a.canonical = true) {i : Nat} (hi : i < a.len) :
    wordAt a i = BitVec.ofInt 32 (a.val / ((wordBase ^ i : Nat) : Int)) := by
  have hlen : i < a.mag.reverse.length := by rwa [List.length_reverse]
  have hdvd := pow_dvd_leNat_iff hlen
  rw [leNat_reverse] at hdvd
  rw [wordAt, if_neg (Nat.not_le.2 hi), rev_eq_ofNat hlen]
  split
  · rename_i hneg
    rw [val_of_not_negative ha hneg, ← Int.natCast_ediv, BitVec.ofInt_natCast]
  rename_i hneg
  rw [val_of_negative (not_not.1 hneg), Int.neg_ediv, ← Int.natCast_ediv]
  split
  · rename_i hlow
    rw [if_pos (Int.natCast_dvd_natCast.2 (hdvd.2 hlow)), sub_zero, BitVec.ofInt_neg, BitVec.ofInt_natCast]
  · rename_i hlow
    have hpos : 0 < wordBase ^ i := Nat.pow_pos wordBase_pos
    rw [if_neg fun hd => hlow (hdvd.1 (Int.natCast_dvd_natCast.1 hd)), Int.sign_eq_one_of_pos (by omega),
      sub_eq_add_neg, BitVec.ofInt_add, BitVec.ofInt_neg, BitVec.ofInt_natCast, BitVec.not_eq_neg_add,
      BitVec.sub_eq_add_neg]
    rfl

/-- R210: word `i` of the view is the value over `B^i`, modulo the word. -/
theorem wordAt_eq_ofInt {a : Value} (ha : a.canonical = true) (i : Nat) :
    wordAt a i = BitVec.ofInt 32 (a.val / (wordBase : Int) ^ i) := by
  rw [← Nat.cast_pow]
  rcases Nat.lt_or_ge i a.len with hi | hi
  · exact wordAt_within ha hi
  · exact wordAt_above ha hi

/-! ### The bytes of the view (R250) -/

/-- Byte `j` of a word that is an integer modulo the word, for each of its four bytes. -/
theorem byte_of_ofInt_word (z : Int) {j : Nat} (hj : j < 4) :
    BitVec.ofNat 8 ((BitVec.ofInt 32 z).toNat / 2 ^ (8 * j)) = BitVec.ofInt 8 (z / 2 ^ (8 * j)) := by
  apply BitVec.eq_of_toNat_eq
  rw [BitVec.toNat_ofNat, BitVec.toNat_ofInt, BitVec.toNat_ofInt]
  interval_cases j <;> norm_num <;> omega

/-- A byte of the view is the value over a power of 256, modulo the byte. -/
theorem viewByte_eq_ofInt {a : Value} (ha : a.canonical = true) (k : Nat) :
    viewByte a k = BitVec.ofInt 8 (a.val / 256 ^ k) := by
  have hpow : (256 : Int) ^ k = (wordBase : Int) ^ (k / 4) * 2 ^ (8 * (k % 4)) := by
    have h256 : (256 : Int) = 2 ^ 8 := by norm_num
    have hbase : (wordBase : Int) = 2 ^ 32 := by norm_num [wordBase]
    rw [h256, hbase, ← pow_mul, ← pow_mul, ← pow_add]
    congr 1
    omega
  rw [viewByte, wordAt_eq_ofInt ha, byte_of_ofInt_word _ (Nat.mod_lt k (by decide)), hpow,
    Int.ediv_ediv_of_nonneg (by positivity)]

theorem bytesOf_eq_bigEndian {a : Value} (ha : a.canonical = true) :
    bytesOf a = bigEndian (bitlen a / 8 + 1) a.val := by
  apply List.ext_getElem
  · simp [bigEndian]
  · intro j h1 h2
    simp [bytesOf, bigEndian, viewByte_eq_ofInt ha]

/-! ### The bit length (R253) -/

theorem log2_word_lt (w : Word) : w.toNat.log2 < 32 := by
  by_cases h : w.toNat = 0
  · rw [h]
    decide
  · exact (Nat.log2_lt h).2 w.isLt

/-- The number of significant bits of a magnitude, in terms of its top word. -/
theorem magBits_cons (w : Word) (ws : List Word) : magBits (w :: ws) = 32 * ws.length + w.toNat.log2 + 1 := by
  have := log2_word_lt w
  rw [magBits, clz32]
  omega

theorem wordBase_pow_eq (n : Nat) : wordBase ^ n = 2 ^ (32 * n) := by rw [Nat.pow_mul]

theorem magBits_le (ws : List Word) : magBits ws ≤ 32 * ws.length := by
  cases ws with
  | nil => exact le_rfl
  | cons w ws =>
    have := log2_word_lt w
    rw [magBits_cons, List.length_cons]
    omega

theorem magNat_lt_two_pow_magBits (ws : List Word) : magNat ws < 2 ^ magBits ws := by
  cases ws with
  | nil => decide
  | cons w ws =>
    have hlow := magNat_lt ws
    have htop : w.toNat + 1 ≤ 2 ^ (w.toNat.log2 + 1) := Nat.lt_log2_self
    calc magNat (w :: ws) = w.toNat * wordBase ^ ws.length + magNat ws := magNat_cons w ws
      _ < (w.toNat + 1) * wordBase ^ ws.length := by
          rw [Nat.add_one_mul]
          omega
      _ ≤ 2 ^ (w.toNat.log2 + 1) * wordBase ^ ws.length := Nat.mul_le_mul_right _ htop
      _ = 2 ^ magBits (w :: ws) := by
          rw [wordBase_pow_eq, ← Nat.pow_add, magBits_cons]
          congr 1
          omega

/-- An exact power of two has no 1 bit below its top one. -/
theorem magNat_of_isPowerOfTwo {ws : List Word} (h : isPowerOfTwo ws = true) : magNat ws = 2 ^ (magBits ws - 1) := by
  cases ws with
  | nil => nomatch h
  | cons w ws =>
    rw [isPowerOfTwo, Bool.and_eq_true, beq_iff_eq] at h
    obtain ⟨htop, hlow⟩ := h
    have hzero : ws = List.replicate ws.length 0#32 := List.eq_replicate_iff.2 ⟨rfl, by simpa using hlow⟩
    rw [magNat_cons, magBits_cons, hzero, magNat_replicate_zero, List.length_replicate, wordBase_pow_eq, Nat.add_zero,
      Nat.add_sub_cancel, Nat.pow_add, ← htop, Nat.mul_comm]

theorem bitlen_le_magBits (a : Value) : bitlen a ≤ magBits a.mag := by
  unfold bitlen
  split <;> omega

/-- `bitlen(a)` bits and a sign hold the value (R253). -/
theorem val_bounds_bitlen {a : Value} (ha : a.canonical = true) : -2 ^ bitlen a ≤ a.val ∧ a.val < 2 ^ bitlen a := by
  unfold bitlen
  split
  · rename_i h
    rw [val_of_negative h.1, magNat_of_isPowerOfTwo h.2]
    push_cast
    exact ⟨le_rfl, neg_lt_self (by positivity)⟩
  · have hlt : a.val.natAbs < 2 ^ magBits a.mag := by
      rw [natAbs_val ha]
      exact magNat_lt_two_pow_magBits a.mag
    have hcast : ((2 ^ magBits a.mag : Nat) : Int) = 2 ^ magBits a.mag := Nat.cast_pow ..
    omega

theorem inBytes_iff (n : Nat) (z : Int) : inBytes (n + 1) z = true ↔ -2 ^ (8 * n + 7) ≤ z ∧ z < 2 ^ (8 * n + 7) := by
  simp [inBytes, Nat.mul_add]

/-- R250: the bytes that the bit length asks for hold the value. -/
theorem inBytes_bitlen {a : Value} (ha : a.canonical = true) : inBytes (bitlen a / 8 + 1) a.val = true := by
  obtain ⟨hlo, hhi⟩ := val_bounds_bitlen ha
  have hle : (2 : Int) ^ bitlen a ≤ 2 ^ (8 * (bitlen a / 8) + 7) := pow_le_pow_right₀ (by decide) (by omega)
  exact (inBytes_iff _ _).2 ⟨(neg_le_neg hle).trans hlo, hhi.trans_le hle⟩

end Sys2Proof.Machine
end

section
/-! SUPPORT. The reading of an encoding (00_scope.md R62), and that an exported value reads as itself
(40_construct.md R126; 47_export.md R250, R251). -/

namespace Sys2Proof.Machine

open Sys2Proof.Claims

/-! ### The reading of an encoding (R62) -/

@[simp] theorem length_bigEndian (n : Nat) (z : Int) : (bigEndian n z).length = n := by
  simp [bigEndian]

theorem bigEndian_succ (n : Nat) (z : Int) : bigEndian (n + 1) z = BitVec.ofInt 8 (z / 256 ^ n) :: bigEndian n z := by
  simp [bigEndian, List.range_succ_eq_map, Nat.sub_sub, Nat.add_comm]

/-- A number modulo a product: one more digit in front of the lower ones. -/
theorem emod_mul_eq (z n : Int) {m : Int} (hm : 0 ≤ m) : z % (m * n) = z / m % n * m + z % m := by
  rw [Int.emod_def z (m * n), Int.emod_def (z / m), Int.emod_def z m, ← Int.ediv_ediv_of_nonneg hm]
  ring

theorem byte_ofInt_toNat (z : Int) : ((BitVec.ofInt 8 z).toNat : Int) = z % 256 := by
  rw [BitVec.toNat_ofInt, Int.toNat_of_nonneg (Int.emod_nonneg _ (by decide))]
  rfl

/-- An encoding, read without its sign, is the integer modulo the range of its bytes. -/
theorem unitsNat_bigEndian (n : Nat) (z : Int) : (unitsNat (bigEndian n z) : Int) = z % 256 ^ n := by
  induction n with
  | zero => simp [bigEndian, unitsNat]
  | succ n ih =>
    have hpow : ((2 ^ (8 * n) : Nat) : Int) = 256 ^ n := by
      rw [Nat.pow_mul]
      norm_num
    rw [bigEndian_succ, unitsNat_cons, length_bigEndian, Nat.cast_add, ih, Nat.cast_mul, hpow, byte_ofInt_toNat,
      pow_succ, emod_mul_eq z 256 (by positivity)]

/-- The reading of a string is its top unit, signed, before the rest. -/
theorem twosReading_cons {k : Nat} (w : BitVec k) (u : List (BitVec k)) :
    twosReading (w :: u) = w.toInt * 2 ^ (k * u.length) + unitsNat u := by
  have hnat : (unitsNat (w :: u) : Int) = w.toNat * 2 ^ (k * u.length) + unitsNat u := by
    rw [unitsNat_cons]
    push_cast
    rfl
  rw [BitVec.toInt_eq_msb_cond]
  split
  · rename_i h
    rw [twosReading_of_msb (u := w :: u) h, hnat, List.length_cons, Nat.mul_add_one, pow_add]
    push_cast
    ring
  · rename_i h
    rw [twosReading_of_not_msb (u := w :: u) h, hnat]

/-- An encoding of enough bytes reads as the integer it encodes. -/
theorem twosReading_bigEndian {n : Nat} {z : Int} (h : inBytes n z = true) : twosReading (bigEndian n z) = z := by
  obtain _ | n := n
  · nomatch h
  obtain ⟨hlo, hhi⟩ := (inBytes_iff n z).1 h
  have hpow : (2 : Int) ^ (8 * n) = 256 ^ n := by
    rw [pow_mul]
    norm_num
  have hpos : (0 : Int) < 256 ^ n := by positivity
  have htop : (BitVec.ofInt 8 (z / 256 ^ n)).toInt = z / 256 ^ n := by
    rw [pow_add, hpow] at hlo hhi
    have hlo' : -128 ≤ z / 256 ^ n := (Int.le_ediv_iff_mul_le hpos).2 (by linarith)
    have hhi' : z / 256 ^ n < 128 := (Int.ediv_lt_iff_lt_mul hpos).2 (by linarith)
    exact BitVec.toInt_ofInt_eq_self (by decide) hlo' hhi'
  rw [bigEndian_succ, twosReading_cons, htop, length_bigEndian, hpow, unitsNat_bigEndian]
  exact Int.ediv_mul_add_emod z (256 ^ n)

/-- The exported bytes read as the value (R126, R250). -/
theorem twosReading_bytesOf {a : Value} (ha : a.canonical = true) : twosReading (bytesOf a) = a.val := by
  rw [bytesOf_eq_bigEndian ha, twosReading_bigEndian (inBytes_bitlen ha)]

/-! ### Exporting a value of a legal state -/

theorem exec_tobytes_of_fits {s : State} {va : VReg} {a : Value} (ha : s.vReg va = some a)
    (hfit : fitsIn s.params.bufcap (bytesOf a) = true) : exec (.tobytes va) s = .next (s.putBuf (bytesOf a)) := by
  rw [exec, execTobytes, State.readV_of_some ha, ok_bind, (s.writeBuf_ok_iff _ _).2 ⟨hfit, rfl⟩, finish_ok]

section Legal

variable {s : State} {va : VReg} {a : Value} (hs : s.legal = true) (ha : s.vReg va = some a)

include hs ha

/-- What a register of a legal state holds (R10, R21). -/
theorem canonical_and_fits_of_legal : a.canonical = true ∧ fitsWords s a = true := by
  obtain ⟨-, hregs, -⟩ := (State.legal_iff s).1 hs
  obtain ⟨hcanon, hfit⟩ := (legalRegs_iff s).1 hregs
  exact ⟨hcanon va a ha, fitsIn_maxw s a ▸ hfit va a ha⟩

/-- The buffer has room for the encoding of every value a register can hold (R6, R251). -/
theorem fitsIn_bytesOf_of_legal : fitsIn s.params.bufcap (bytesOf a) = true := by
  obtain ⟨hparams, -⟩ := (State.legal_iff s).1 hs
  obtain ⟨-, hfit⟩ := canonical_and_fits_of_legal hs ha
  rw [← fitsIn_maxw, fitsIn_iff] at hfit
  rw [fitsIn_iff]
  intro c hc
  obtain ⟨m, hm, hmc⟩ := ((Params.legal_iff _).1 hparams).2 c hc
  have hwords := hfit m hm
  have hbits := (bitlen_le_magBits a).trans (magBits_le a.mag)
  rw [length_bytesOf]
  omega

end Legal

end Sys2Proof.Machine

namespace Sys2Proof.Proofs

open Sys2Proof.Machine Sys2Proof.Claims

/-- Settles O46: the buffer has room for the encoding, the encoding reads as the value, and a canonical value is fixed
by its integer. -/
theorem exportImportRoundTrip : Obligations.ExportImportRoundTrip := by
  intro va vd s a hs ha
  obtain ⟨hcanon, hfit⟩ := canonical_and_fits_of_legal hs ha
  have hread : canon (twosReading (s.putBuf (bytesOf a)).buf) = a := by
    rw [State.putBuf_buf, twosReading_bytesOf hcanon, canon_val hcanon]
  have hfit' : fitsWords (s.putBuf (bytesOf a)) a = true := hfit
  refine ⟨_, (s.putBuf (bytesOf a)).putV vd a .fresh, exec_tobytes_of_fits ha (fitsIn_bytesOf_of_legal hs ha), ?_,
    slice_statusOk_err _ _, ?_⟩
  · rw [exec_frombytes_of_ne_nil vd (bytesOf_ne_nil a), hread, finish_writeV_of_fits hfit']
    rfl
  · rw [State.putV_vReg, if_pos rfl]

end Sys2Proof.Proofs
end

section
/-! SUPPORT. The order of values is the order of the integers, and the commands CMP, MIN and MAX (41_compare.md R141
to R144). -/

namespace Sys2Proof.Machine

open Sys2Proof.Claims

/-! ### Signs and values -/

/-- Of two integers of different signs the one with the lesser sign is the lesser: 0 separates them. -/
theorem lt_of_sign_lt {x y : Int} (h : x.sign < y.sign) : x < y := by
  have hx := x.sign_trichotomy
  have hy := y.sign_trichotomy
  have hsep : x.sign < 0 ∧ 0 ≤ y.sign ∨ x.sign ≤ 0 ∧ 0 < y.sign := by omega
  rw [Int.sign_neg_iff, Int.sign_nonneg_iff, Int.sign_nonpos_iff, Int.sign_pos_iff] at hsep
  omega

theorem sign_eq_of_num_eq {s t : Sign} (h : s.num = t.num) : s = t := by
  revert h
  cases s <;> cases t <;> decide

theorem val_of_sign_zero {a : Value} (h : a.sign = .zero) : a.val = 0 := by
  rw [Value.val, h, Sign.num, zero_mul]

/-! ### The order (R141) -/

section Order

variable {a b : Value} (ha : a.canonical = true) (hb : b.canonical = true)

include ha hb

theorem val_lt_of_sign_num_lt (h : a.sign.num < b.sign.num) : a.val < b.val := by
  rw [sign_num_eq ha, sign_num_eq hb] at h
  exact lt_of_sign_lt h

/-- `compare` is the order of the integers (R141): the signs decide unless they agree, and then the magnitudes do, in
the opposite direction for two negatives. -/
theorem compareValues_eq_compare : compareValues a b = compare a.val b.val := by
  rw [compareValues]
  split
  · rename_i hlt
    exact (compare_lt_iff_lt.2 (val_lt_of_sign_num_lt ha hb hlt)).symm
  · split
    · rename_i hgt
      exact (compare_gt_iff_gt.2 (val_lt_of_sign_num_lt hb ha hgt)).symm
    · have hsign : b.sign = a.sign := sign_eq_of_num_eq (by omega)
      split
      · rename_i hzero
        rw [val_of_sign_zero hzero, val_of_sign_zero (hsign.trans hzero)]
        rfl
      · rename_i hpos
        rw [cmpmag_canonical ha hb, val_of_not_negative ha (by simp [hpos]),
          val_of_not_negative hb (by simp [hsign, hpos]), ← cmp_eq_compare, ← cmp_eq_compare]
        exact (Nat.strictMono_cast.cmp_map_eq _ _).symm
      · rename_i hneg
        rw [cmpmag_canonical hb ha, val_of_negative hneg, val_of_negative (hsign.trans hneg), ← cmp_eq_compare,
          ← cmp_eq_compare]
        exact (Nat.strictMono_cast.neg.cmp_map_eq _ _).symm

theorem minValue_eq_of_canonical : minValue a b =
    if b.val < a.val then { value := b, src := .sameB } else { value := a, src := .sameA } := by
  simp only [minValue, compareValues_eq_compare ha hb, compare_gt_iff_gt]

theorem maxValue_eq_of_canonical : maxValue a b =
    if a.val < b.val then { value := b, src := .sameB } else { value := a, src := .sameA } := by
  simp only [maxValue, compareValues_eq_compare ha hb, compare_lt_iff_lt]

end Order

theorem orderingNum_compare (x y : Int) :
    orderingNum (compare x y) = if x < y then -1 else if x = y then 0 else 1 := by
  rw [LinearOrder.compare_eq_compareOfLessAndEq, compareOfLessAndEq, apply_ite orderingNum, apply_ite orderingNum]
  rfl

/-! ### The commands -/

section Commands

variable {s : State} {va vb : VReg} {a b : Value} (ha : s.vReg va = some a) (hb : s.vReg vb = some b)

include ha hb

theorem exec_cmp_of_some (xd : XReg) :
    exec (.cmp xd va vb) s = .next (s.putX xd (orderingNum (compareValues a b))) := by
  rw [exec, execCmp, State.readV_of_some ha, State.readV_of_some hb, ok_bind, ok_bind, finish_ok]

theorem exec_min_of_some (vd : VReg) :
    exec (.min vd va vb) s = finish (.min vd va vb) s (s.writeV vd (minValue a b)) := by
  rw [exec, execMin, State.readV_of_some ha, State.readV_of_some hb, ok_bind, ok_bind]

theorem exec_max_of_some (vd : VReg) :
    exec (.max vd va vb) s = finish (.max vd va vb) s (s.writeV vd (maxValue a b)) := by
  rw [exec, execMax, State.readV_of_some ha, State.readV_of_some hb, ok_bind, ok_bind]

end Commands

end Sys2Proof.Machine

namespace Sys2Proof.Proofs

open Sys2Proof.Machine Sys2Proof.Claims

/-- Settles O24: the registers of a legal state hold canonical values, and those are ordered as their integers. -/
theorem cmpOrdersValues : Obligations.CmpOrdersValues := by
  intro xd va vb s a b hs ha hb
  have hcmp : compareValues a b = compare a.val b.val :=
    compareValues_eq_compare (canonical_and_fits_of_legal hs ha).1 (canonical_and_fits_of_legal hs hb).1
  refine ⟨hcmp, ?_⟩
  rw [exec_cmp_of_some ha hb, hcmp, orderingNum_compare]
  rfl

/-- Settles O25: the choice is by the order of the integers, and either operand fits because a register held it. -/
theorem minMaxChooseOperand : Obligations.MinMaxChooseOperand := by
  intro vd va vb s a b hs ha hb
  obtain ⟨hca, hfa⟩ := canonical_and_fits_of_legal hs ha
  obtain ⟨hcb, hfb⟩ := canonical_and_fits_of_legal hs hb
  rw [exec_min_of_some ha hb, exec_max_of_some ha hb, minValue_eq_of_canonical hca hcb,
    maxValue_eq_of_canonical hca hcb]
  constructor
  · split
    · exact finish_writeV_of_fits hfb _ _ _
    · exact finish_writeV_of_fits hfa _ _ _
  · split
    · exact finish_writeV_of_fits hfb _ _ _
    · exact finish_writeV_of_fits hfa _ _ _

end Sys2Proof.Proofs
end

section
/-! SUPPORT. The sum, the difference, the opposite and the absolute value as integers, and the commands ADD, SUB, NEG and
ABS (42_additive.md R150 to R155). -/

namespace Sys2Proof.Machine

open Sys2Proof.Claims

/-! ### The sign tag and the integer -/

theorem Sign.num_opposite (sg : Sign) : sg.opposite.num = -sg.num := by
  cases sg <;> rfl

/-- Two nonzero signs that differ are opposite. -/
theorem Sign.opposite_eq_of_ne {sg tg : Sign} (hs : sg ≠ .zero) (ht : tg ≠ .zero) (h : sg ≠ tg) : sg.opposite = tg := by
  revert hs ht h
  cases sg <;> cases tg <;> decide

section Canonical

variable {a : Value} (ha : a.canonical = true)

include ha

theorem val_eq_zero_iff_of_canonical : a.val = 0 ↔ a.sign = .zero := by
  refine ⟨fun hval => sign_eq_of_num_eq ?_, val_of_sign_zero⟩
  rw [sign_num_eq ha, hval]
  rfl

theorem val_neg_iff_of_canonical : a.val < 0 ↔ a.sign = .negative := by
  rw [← Int.sign_neg_iff, ← sign_num_eq ha]
  cases a.sign <;> decide

end Canonical

/-! ### The opposite and the absolute value (R154, R155) -/

theorem val_flipSign (a : Value) : (flipSign a).val = -a.val := by
  rw [Value.val, flipSign, Sign.num_opposite, Int.neg_mul, Value.val]

theorem flipSign_eq_canon {a : Value} (ha : a.canonical = true) : flipSign a = canon (-a.val) :=
  eq_canon_of_val (canonical_flipSign ha) (val_flipSign a)

theorem val_absValue {a : Value} (ha : a.canonical = true) : (absValue a).value.val = a.val.natAbs := by
  rw [natAbs_val ha, absValue]
  split
  · rw [Value.val, Sign.num, one_mul]
  · rename_i hsign
    exact val_of_not_negative ha hsign

theorem absValue_eq_of_canonical {a : Value} (ha : a.canonical = true) :
    absValue a = { value := canon a.val.natAbs, src := if a.val < 0 then .magA else .sameA } := by
  rw [← eq_canon_of_val (canonical_absValue ha) (val_absValue ha)]
  simp only [val_neg_iff_of_canonical ha, absValue]
  split <;> rfl

/-- `ABS` keeps the magnitude (R155). -/
theorem absValue_mag (a : Value) : (absValue a).value.mag = a.mag := by
  rw [absValue]
  split <;> rfl

/-! ### The sum and the difference (R152, R153) -/

/-- A signed difference of magnitudes (R151). -/
theorem val_submag {p q : List Word} (hq : NoLeadingZero q) (h : magNat q ≤ magNat p) (sg : Sign) :
    ({ sign := sg, mag := submag p q } : Value).val = sg.num * ((magNat p : Int) - magNat q) := by
  rw [Value.val, magNat_submag (length_le_of_magNat_le hq h) h, Nat.cast_sub h]

section Operands

variable {a b : Value} (ha : a.canonical = true) (hb : b.canonical = true)

include ha hb

/-- Equal signs add the magnitudes; opposite signs subtract the lesser from the greater, under the sign of the
greater. -/
theorem val_addNonzero (hsa : a.sign ≠ .zero) (hsb : b.sign ≠ .zero) : (addNonzero a b).val = a.val + b.val := by
  rw [addNonzero]
  split
  · rename_i hsign
    simp only [Value.val, magNat_addmag, ← hsign]
    push_cast
    ring
  · rename_i hsign
    have hopp : b.sign.num = -a.sign.num := by rw [← Sign.opposite_eq_of_ne hsa hsb hsign, Sign.num_opposite]
    rw [cmpmag_canonical ha hb]
    split
    · rename_i hcmp
      rw [val_of_sign_zero rfl, Value.val, Value.val, hopp, Nat.compare_eq_eq.1 hcmp]
      ring
    · rename_i hcmp
      rw [val_submag (noLeadingZero_of_canonical hb) (Nat.compare_eq_gt.1 hcmp).le, Value.val, Value.val, hopp]
      ring
    · rename_i hcmp
      rw [val_submag (noLeadingZero_of_canonical ha) (Nat.compare_eq_lt.1 hcmp).le, Value.val, Value.val, hopp]
      ring

theorem val_addValues : (addValues a b).value.val = a.val + b.val := by
  rw [addValues]
  split
  · rename_i hsa
    rw [val_of_sign_zero hsa, zero_add]
  · split
    · rename_i hsb
      rw [val_of_sign_zero hsb, add_zero]
    · rename_i hsa hsb
      exact val_addNonzero ha hb hsa hsb

theorem addValues_src : (addValues a b).src = if a.val = 0 then .sameB else if b.val = 0 then .sameA else .fresh := by
  rw [addValues, apply_ite Reported.src, apply_ite Reported.src]
  simp only [val_eq_zero_iff_of_canonical ha, val_eq_zero_iff_of_canonical hb]

theorem addValues_eq_of_canonical : addValues a b =
    { value := canon (a.val + b.val), src := if a.val = 0 then .sameB else if b.val = 0 then .sameA else .fresh } := by
  rw [← eq_canon_of_val (canonical_addValues ha hb) (val_addValues ha hb), ← addValues_src ha hb]

/-- R153: the difference is the sum with the opposite, whose report `SAME_B` becomes `MAG_B`. -/
theorem subValues_eq_of_canonical : subValues a b =
    { value := canon (a.val - b.val), src := if a.val = 0 then .magB else if b.val = 0 then .sameA else .fresh } := by
  rw [subValues, addValues_eq_of_canonical ha (canonical_flipSign hb), val_flipSign, ← sub_eq_add_neg]
  simp only [neg_eq_zero]
  by_cases hza : a.val = 0
  · simp [hza]
  · by_cases hzb : b.val = 0 <;> simp [hza, hzb]

end Operands

/-! ### The commands -/

/-- The two ends of a command that writes one value: the value if it fits, else the error entry of code 9 (R299). -/
theorem exec_fits_or_overflows {i : Instr} {s : State} {vd : VReg} {a : Value} {src : Rsrc}
    (h : exec i s = finish i s (s.writeV vd { value := a, src := src })) :
    (fitsWords s a = true → exec i s = .next (afterV s vd a src)) ∧
    (∀ c, decode c = .ok i → fitsWords s a = false → exec i s = .next (afterError s 9 c)) :=
  ⟨fun hfit => h.trans (finish_writeV_of_fits hfit i vd src),
    fun _ hc hfit => h.trans (finish_writeV_of_not_fits hfit hc vd src)⟩

/-- Whether a value fits depends on its magnitude only (R21). -/
theorem fitsWords_of_mag_eq {s : State} {a b : Value} (h : b.mag = a.mag) (hfit : fitsWords s a = true) :
    fitsWords s b = true := by
  rwa [fitsWords, h]

section Commands

variable {s : State} {va vb : VReg} {a b : Value} (ha : s.vReg va = some a) (hb : s.vReg vb = some b)

include ha

theorem exec_neg_of_some (vd : VReg) : exec (.neg vd va) s =
    finish (.neg vd va) s (s.writeV vd { value := flipSign a, src := .magA }) := by
  rw [exec, execNeg, State.readV_of_some ha, ok_bind]

theorem exec_abs_of_some (vd : VReg) :
    exec (.abs vd va) s = finish (.abs vd va) s (s.writeV vd (absValue a)) := by
  rw [exec, execAbs, State.readV_of_some ha, ok_bind]

include hb

theorem exec_add_of_some (vd : VReg) :
    exec (.add vd va vb) s = finish (.add vd va vb) s (s.writeV vd (addValues a b)) := by
  rw [exec, execAdd, State.readV_of_some ha, State.readV_of_some hb, ok_bind, ok_bind]

theorem exec_sub_of_some (vd : VReg) :
    exec (.sub vd va vb) s = finish (.sub vd va vb) s (s.writeV vd (subValues a b)) := by
  rw [exec, execSub, State.readV_of_some ha, State.readV_of_some hb, ok_bind, ok_bind]

end Commands

end Sys2Proof.Machine

namespace Sys2Proof.Proofs

open Sys2Proof.Machine Sys2Proof.Claims

/-- Settles O26: on the canonical values that a legal state holds the sum is exact, and it is written if it fits. -/
theorem addIsExact : Obligations.AddIsExact := by
  intro vd va vb s a b hs ha hb
  have hsum := addValues_eq_of_canonical (canonical_and_fits_of_legal hs ha).1 (canonical_and_fits_of_legal hs hb).1
  exact exec_fits_or_overflows (hsum ▸ exec_add_of_some ha hb vd)

/-- Settles O27: the difference is the sum with the sign-flipped operand, and it is written if it fits. -/
theorem subIsExact : Obligations.SubIsExact := by
  intro vd va vb s a b hs ha hb
  have hdiff := subValues_eq_of_canonical (canonical_and_fits_of_legal hs ha).1 (canonical_and_fits_of_legal hs hb).1
  exact exec_fits_or_overflows (hdiff ▸ exec_sub_of_some ha hb vd)

/-- Settles O28: both results have the operand's magnitude, which fits because a register held it. -/
theorem negAbsKeepMagnitude : Obligations.NegAbsKeepMagnitude := by
  intro vd va s a hs ha
  obtain ⟨hcanon, hfit⟩ := canonical_and_fits_of_legal hs ha
  have hneg := flipSign_eq_canon hcanon
  have habs := absValue_eq_of_canonical hcanon
  have hnegMag : (canon (-a.val)).mag = a.mag := by rw [← hneg, flipSign]
  have habsMag : (canon a.val.natAbs).mag = a.mag := by rw [← absValue_mag a, habs]
  refine ⟨hnegMag, ?_, ?_⟩
  · rw [exec_neg_of_some ha, hneg, finish_writeV_of_fits (fitsWords_of_mag_eq hnegMag hfit)]
  · rw [exec_abs_of_some ha, habs, finish_writeV_of_fits (fitsWords_of_mag_eq habsMag hfit)]

end Sys2Proof.Proofs
end

section
/-! SUPPORT. The product as an integer, and the command MUL (43_multiply.md R165, R166). -/

namespace Sys2Proof.Machine

/-- The sign rule of R166 on the numbers: for two nonzero signs, equal signs give 1 and different signs give -1. -/
theorem Sign.num_ofProduct {sg tg : Sign} (hs : sg ≠ .zero) (ht : tg ≠ .zero) :
    (Sign.ofProduct sg tg).num = sg.num * tg.num := by
  revert hs ht
  cases sg <;> cases tg <;> decide

/-- A zero operand gives zero; otherwise the signs and the magnitudes multiply. -/
theorem val_mulValues (a b : Value) : (mulValues a b).value.val = a.val * b.val := by
  rw [mulValues]
  split
  · rename_i hzero
    rw [val_of_sign_zero rfl]
    obtain hsa | hsb := hzero
    · rw [val_of_sign_zero hsa, zero_mul]
    · rw [val_of_sign_zero hsb, mul_zero]
  · rename_i hzero
    obtain ⟨hsa, hsb⟩ := not_or.1 hzero
    simp only [Value.val, Sign.num_ofProduct hsa hsb, magNat_mulmag]
    push_cast
    ring

section Operands

variable {a b : Value} (ha : a.canonical = true) (hb : b.canonical = true)

include ha hb

theorem mulValues_src : (mulValues a b).src = if a.val = 0 ∨ b.val = 0 then .const else .fresh := by
  rw [mulValues, apply_ite Reported.src]
  simp only [val_eq_zero_iff_of_canonical ha, val_eq_zero_iff_of_canonical hb]

theorem mulValues_eq_of_canonical : mulValues a b =
    { value := canon (a.val * b.val), src := if a.val = 0 ∨ b.val = 0 then .const else .fresh } := by
  rw [← eq_canon_of_val (canonical_mulValues ha hb) (val_mulValues a b), ← mulValues_src ha hb]

end Operands

theorem exec_mul_of_some {s : State} {va vb : VReg} {a b : Value} (ha : s.vReg va = some a) (hb : s.vReg vb = some b)
    (vd : VReg) : exec (.mul vd va vb) s = finish (.mul vd va vb) s (s.writeV vd (mulValues a b)) := by
  rw [exec, execMul, State.readV_of_some ha, State.readV_of_some hb, ok_bind, ok_bind]

end Sys2Proof.Machine

namespace Sys2Proof.Proofs

open Sys2Proof.Machine Sys2Proof.Claims

/-- Settles O29: on the canonical values that a legal state holds the product is exact, and it is written if it fits. -/
theorem mulIsExact : Obligations.MulIsExact := by
  intro vd va vb s a b hs ha hb
  have hprod := mulValues_eq_of_canonical (canonical_and_fits_of_legal hs ha).1 (canonical_and_fits_of_legal hs hb).1
  exact exec_fits_or_overflows (hprod ▸ exec_mul_of_some ha hb vd)

end Sys2Proof.Proofs
end

section
/-! SUPPORT. The quotient and the remainder as integers, and the commands DIVREM, DIV, REM and MOD (44_divide.md R175 to
R183; 60_exceptions.md R293, R294). -/

namespace Sys2Proof.Machine

open Sys2Proof.Claims

/-! ### Truncating and floor division of integers (R176, R183) -/

/-- R176: quotient and remainder are unique, the remainder with the sign of the dividend. -/
theorem tdiv_tmod_eq_of_sign {d v q r : Int} (h : d = v * q + r) (hlt : r.natAbs < v.natAbs)
    (hsign : r = 0 ∨ r.sign = d.sign) : d.tdiv v = q ∧ d.tmod v = r := by
  have hv : v ≠ 0 := by omega
  have hsum : r + v * q = d := by omega
  rcases le_total 0 d with hd | hd
  · have hr : 0 ≤ r := hsign.elim (fun h0 => h0.ge) fun hs => Int.sign_nonneg_iff.1 (hs ▸ Int.sign_nonneg_iff.2 hd)
    exact (Int.tdiv_tmod_unique hd hv).2 ⟨hsum, hr, by omega⟩
  · have hr : r ≤ 0 := hsign.elim (fun h0 => h0.le) fun hs => Int.sign_nonpos_iff.1 (hs ▸ Int.sign_nonpos_iff.2 hd)
    exact (Int.tdiv_tmod_unique' hd hv).2 ⟨hsum, by omega, hr⟩

/-- R183: the floor remainder is the truncating one, with the modulus added to a negative one. -/
theorem emod_eq_tmod_or_add (d : Int) {m : Int} (hm : 0 < m) :
    d % m = if d.tmod m < 0 then m + d.tmod m else d.tmod m := by
  have hlo := Int.lt_tmod_of_pos d hm
  have hhi := Int.tmod_lt_of_pos d hm
  have hmod : d % m = d.tmod m % m := by
    rw [Int.tmod_def, Int.sub_mul_emod_self_left]
  rw [hmod]
  split
  · rw [← Int.add_emod_left, Int.emod_eq_of_lt (by omega) (by omega)]
  · exact Int.emod_eq_of_lt (by omega) hhi

/-! ### The tests of `divrem`, on the integers (R175) -/

section Tests

variable {a b : Value} (ha : a.canonical = true) (hb : b.canonical = true)

include hb in
theorem natAbs_val_eq_one_iff : b.val.natAbs = 1 ↔ b.mag = [1#32] := by
  rw [natAbs_val hb]
  exact ⟨fun h => magNat_inj (noLeadingZero_of_canonical hb) (by decide) h, fun h => by rw [h]; rfl⟩

include ha in
theorem val_pos_iff_of_canonical : 0 < a.val ↔ a.sign = .positive := by
  rw [← Int.sign_pos_iff, ← sign_num_eq ha]
  cases a.sign <;> decide

include hb in
theorem quotientReport_eq : quotientReport b.val = if b.mag = [1#32] then .magA else .fresh := by
  simp only [quotientReport, natAbs_val_eq_one_iff hb]

include ha hb in
theorem remainderReport_eq : remainderReport a.val b.val =
    if b.mag ≠ [1#32] ∧ a.sign ≠ .zero ∧ magNat a.mag < magNat b.mag then .sameA else .fresh := by
  simp only [remainderReport, ne_eq, natAbs_val_eq_one_iff hb, val_eq_zero_iff_of_canonical ha]
  rw [natAbs_val ha, natAbs_val hb]

end Tests

/-! ### The value and the reports of each case (R175, R176) -/

/-- What `divrem` answers for the dividend `a` and the divisor `b`: with `DivResult.Good`, the hypotheses of R176's
uniqueness; and the reports of R175. -/
structure DivResult.Exact (a b : Value) (d : DivResult) : Prop where
  dividend : a.val = b.val * d.q.value.val + d.r.value.val
  sign : d.r.value = zeroValue ∨ d.r.value.sign = a.sign
  quotientSrc : d.q.src = quotientReport b.val
  remainderSrc : d.r.src = remainderReport a.val b.val

/-- The square of a sign other than `ZERO`. -/
theorem Sign.num_mul_self {sg : Sign} (h : sg ≠ .zero) : sg.num * sg.num = 1 := by
  revert h
  cases sg <;> decide

/-- Case 2 of R175: the dividend, under the opposite sign for the divisor -1, is the quotient. -/
theorem val_unit_quotient (a : Value) {b : Value} (hsb : b.sign ≠ .zero) (hone : b.mag = [1#32]) :
    a.val = b.val *
      Value.val { sign := if b.sign = .positive then a.sign else a.sign.opposite, mag := a.mag } := by
  have hval : b.val = b.sign.num := by
    rw [Value.val, hone]
    exact mul_one _
  rw [hval]
  split
  · rename_i hpos
    rw [hpos, Sign.num, one_mul]
  · rename_i hpos
    have hneg : b.sign.num = -1 := by rw [← Sign.opposite_eq_of_ne (by decide) hsb (Ne.symm hpos)]; rfl
    have hflip := val_flipSign a
    rw [flipSign] at hflip
    rw [hneg, hflip, neg_mul_neg, one_mul]

/-- Case 5 of R175: equal magnitudes, whose quotient is the sign. -/
theorem val_equal_quotient {a b : Value} (hsa : a.sign ≠ .zero) (hsb : b.sign ≠ .zero)
    (heq : magNat a.mag = magNat b.mag) :
    a.val = b.val * Value.val (if a.sign = b.sign then oneValue else minusOneValue) := by
  rw [Value.val, Value.val, heq]
  split
  · rename_i hsign
    have hone : oneValue.val = 1 := by decide
    rw [hsign, hone, mul_one]
  · rename_i hsign
    have hminus : minusOneValue.val = -1 := by decide
    rw [hminus, ← Sign.opposite_eq_of_ne hsa hsb hsign, Sign.num_opposite]
    ring

/-- The remainder of case 6 of R175: the sign of the dividend on the magnitude, also when that is 0. -/
theorem val_remainder (sg : Sign) (r : List Word) :
    Value.val (if r.isEmpty then zeroValue else { sign := sg, mag := r }) = sg.num * (magNat r : Int) := by
  cases r with
  | nil => exact (mul_zero _).symm
  | cons w ws => rfl

section Operands

variable {a b : Value} (ha : a.canonical = true) (hb : b.canonical = true)

include hb in
/-- Case 6 of R175: the magnitudes divide, and the quotient's sign times the divisor's is the dividend's. -/
theorem divLong_dividend_and_sign (hsa : a.sign ≠ .zero) (hsb : b.sign ≠ .zero) (hlt : magNat b.mag < magNat a.mag) :
    a.val = b.val * (divLong a b).q.value.val + (divLong a b).r.value.val ∧
    ((divLong a b).r.value = zeroValue ∨ (divLong a b).r.value.sign = a.sign) := by
  obtain ⟨q, r, hdef, hdiv, -⟩ := divLong_mags hb hsb hlt
  rw [hdef]
  constructor
  · rw [val_remainder]
    simp only [Value.val, Sign.num_ofProduct hsa hsb, hdiv]
    push_cast
    linear_combination (-(a.sign.num * magNat b.mag * magNat q)) * Sign.num_mul_self hsb
  · dsimp only
    split
    · exact .inl rfl
    · exact .inr rfl

include ha hb

/-- R175 with R176: every case gives a quotient and a remainder of the dividend, with its reports. -/
theorem exact_divrem {d : DivResult} (h : divrem a b = .ok d) : d.Exact a b := by
  have hzero : zeroValue.val = 0 := by decide
  have hq := quotientReport_eq hb
  have hr := remainderReport_eq ha hb
  unfold divrem at h
  split at h
  · nomatch h
  rename_i hsb
  split at h
  · rename_i hone
    obtain rfl := Except.ok.inj h
    rw [if_pos hone] at hq
    rw [if_neg (by simp [hone])] at hr
    exact ⟨by rw [hzero, add_zero]; exact val_unit_quotient a hsb hone, .inl rfl, hq.symm, hr.symm⟩
  rename_i hone
  rw [if_neg hone] at hq
  split at h
  · rename_i hsa
    obtain rfl := Except.ok.inj h
    rw [if_neg (by simp [hsa])] at hr
    exact ⟨by rw [hzero, mul_zero, add_zero]; exact val_of_sign_zero hsa, .inl rfl, hq.symm, hr.symm⟩
  rename_i hsa
  rw [cmpmag_canonical ha hb] at h
  split at h
  · rename_i hcmp
    obtain rfl := Except.ok.inj h
    rw [if_pos ⟨hone, hsa, Nat.compare_eq_lt.1 hcmp⟩] at hr
    exact ⟨by rw [hzero, mul_zero, zero_add], .inr rfl, hq.symm, hr.symm⟩
  · rename_i hcmp
    obtain rfl := Except.ok.inj h
    have heq := Nat.compare_eq_eq.1 hcmp
    rw [if_neg (by omega)] at hr
    exact ⟨by rw [hzero, add_zero]; exact val_equal_quotient hsa hsb heq, .inl rfl, hq.symm, hr.symm⟩
  · rename_i hcmp
    obtain rfl := Except.ok.inj h
    have hgt := Nat.compare_eq_gt.1 hcmp
    rw [if_neg (by omega)] at hr
    obtain ⟨hval, hsign⟩ := divLong_dividend_and_sign hb hsa hsb hgt
    exact ⟨hval, hsign, hq.symm, hr.symm⟩

/-- R176: the one pair of canonical values with the truncating quotient and its remainder. -/
theorem divrem_eq_of_canonical (hz : b.val ≠ 0) : divrem a b = .ok
    { q := { value := canon (a.val.tdiv b.val), src := quotientReport b.val }
      r := { value := canon (a.val - b.val * a.val.tdiv b.val), src := remainderReport a.val b.val } } := by
  cases h : divrem a b with
  | error e => exact absurd ((val_eq_zero_iff_of_canonical hb).2 ((divrem_error_iff a b e).1 h).1) hz
  | ok d =>
    obtain ⟨hcq, hcr, hlt⟩ := good_divrem ha hb h
    obtain ⟨hdividend, hsign, hqs, hrs⟩ := exact_divrem ha hb h
    rw [← natAbs_val hcr, ← natAbs_val hb] at hlt
    have hsign' : d.r.value.val = 0 ∨ d.r.value.val.sign = a.val.sign := hsign.imp
      (fun h0 => by rw [h0]; rfl) fun hs => by rw [← sign_num_eq hcr, hs, sign_num_eq ha]
    obtain ⟨hquot, hrem⟩ := tdiv_tmod_eq_of_sign hdividend hlt hsign'
    rw [← Int.tmod_def, hquot, hrem, canon_val hcq, canon_val hcr, ← hqs, ← hrs]

/-- R183: the floor remainder of a positive modulus, with its report. -/
theorem modValues_eq_of_canonical (hpos : 0 < b.val) : modValues a b = .ok
    { value := canon (a.val % b.val)
      src := if a.val.tmod b.val < 0 then .fresh else remainderReport a.val b.val } := by
  have hcr := canonical_canon (a.val.tmod b.val)
  have hsign : (canon (a.val.tmod b.val)).sign = .negative ↔ a.val.tmod b.val < 0 := by
    rw [← val_neg_iff_of_canonical hcr, val_canon]
  rw [modValues, if_neg (not_not.2 ((val_pos_iff_of_canonical hb).1 hpos)), divrem_eq_of_canonical ha hb hpos.ne',
    ok_bind, ← Int.tmod_def, emod_eq_tmod_or_add _ hpos]
  simp only [hsign]
  split
  · rename_i hneg
    have hlt : magNat (canon (a.val.tmod b.val)).mag < magNat b.mag := by
      have := Int.lt_tmod_of_pos a.val hpos
      rw [magNat_canon, ← natAbs_val hb]
      omega
    have hz := noLeadingZero_of_canonical hcr
    have hval : Value.val { sign := .positive, mag := submag b.mag (canon (a.val.tmod b.val)).mag } =
        b.val + a.val.tmod b.val := by
      rw [val_submag hz hlt.le, magNat_canon, ← natAbs_val hb, Sign.num, one_mul]
      omega
    rw [eq_canon_of_val (canonical_submag (by decide) hz hlt) hval]
  · rfl

end Operands

/-! ### The commands -/

/-- A value no greater than one that fits, in magnitude, fits as well (R21). -/
theorem fitsWords_canon_of_natAbs_le {s : State} {a : Value} {z : Int} (ha : a.canonical = true)
    (hfit : fitsWords s a = true) (h : z.natAbs ≤ a.val.natAbs) : fitsWords s (canon z) = true := by
  rw [← fitsIn_maxw] at hfit ⊢
  refine fitsIn_of_le hfit (length_le_of_magNat_le (noLeadingZero_of_canonical (canonical_canon z)) ?_)
  rwa [magNat_canon, ← natAbs_val ha]

theorem fitsWords_canon_tdiv {s : State} {a : Value} (ha : a.canonical = true) (hfit : fitsWords s a = true) (v : Int) :
    fitsWords s (canon (a.val.tdiv v)) = true :=
  fitsWords_canon_of_natAbs_le ha hfit (Int.natAbs_tdiv_le_natAbs _ _)

theorem fitsWords_canon_remainder {s : State} {a : Value} (ha : a.canonical = true) (hfit : fitsWords s a = true)
    (v : Int) : fitsWords s (canon (a.val - v * a.val.tdiv v)) = true := by
  refine fitsWords_canon_of_natAbs_le ha hfit ?_
  rw [← Int.tmod_def, Int.natAbs_tmod]
  exact Nat.mod_le _ _

theorem fitsWords_canon_emod {s : State} {m : Value} (hm : m.canonical = true) (hfit : fitsWords s m = true)
    (hpos : 0 < m.val) (z : Int) : fitsWords s (canon (z % m.val)) = true := by
  have hlo := Int.emod_nonneg z hpos.ne'
  have hhi := Int.emod_lt_of_pos z hpos
  exact fitsWords_canon_of_natAbs_le hm hfit (by omega)

theorem finish_writeV2_of_fits {s : State} {a b : Value} (ha : fitsWords s a = true) (hb : fitsWords s b = true)
    (i : Instr) (q r : VReg) (sa sb : Rsrc) :
    finish i s (s.writeV2 q r { value := a, src := sa } { value := b, src := sb }) =
      .next (s.putV2 q r a b sa sb) := by
  rw [(s.writeV2_ok_iff q r _ _ _).2 ⟨⟨(fitsIn_maxw s a).trans ha, (fitsIn_maxw s b).trans hb⟩, rfl⟩]
  rfl

/-- R293: every command that divides reports a zero divisor. -/
theorem finish_divrem_of_val_zero {s : State} {b : Value} {c : Word} {i : Instr} (hb : b.canonical = true)
    (h : b.val = 0) (hc : decode c = .ok i) (a : Value) (write : DivResult → Except ErrorKind State) :
    finish i s (divrem a b >>= write) = .next (afterError s 2 c) := by
  rw [(divrem_error_iff a b _).2 ⟨(val_eq_zero_iff_of_canonical hb).1 h, rfl⟩, error_bind, finish_error_of_decode hc]
  rfl

/-- R294: a modulus that is not positive. -/
theorem modValues_of_val_nonpos (a : Value) {m : Value} (hm : m.canonical = true) (h : m.val ≤ 0) :
    modValues a m = .error .nonPositiveModulus :=
  (modValues_error_iff a m _).2 ⟨fun hs => absurd ((val_pos_iff_of_canonical hm).2 hs) h.not_gt, rfl⟩

section Commands

variable {s : State} {va vb : VReg} {a b : Value} (ha : s.vReg va = some a) (hb : s.vReg vb = some b)

include ha hb

theorem exec_divrem_of_some {vq vr : VReg} (hne : vq ≠ vr) : exec (.divrem vq vr va vb) s =
    finish (.divrem vq vr va vb) s (divrem a b >>= fun d => s.writeV2 vq vr d.q d.r) := by
  rw [exec, execDivrem, if_neg hne, State.readV_of_some ha, State.readV_of_some hb, ok_bind, ok_bind]

theorem exec_div_of_some (vd : VReg) : exec (.div vd va vb) s =
    finish (.div vd va vb) s (divrem a b >>= fun d => s.writeV vd d.q) := by
  rw [exec, execDiv, State.readV_of_some ha, State.readV_of_some hb, ok_bind, ok_bind]

theorem exec_rem_of_some (vd : VReg) : exec (.rem vd va vb) s =
    finish (.rem vd va vb) s (divrem a b >>= fun d => s.writeV vd d.r) := by
  rw [exec, execRem, State.readV_of_some ha, State.readV_of_some hb, ok_bind, ok_bind]

theorem exec_mod_of_some (vd : VReg) : exec (.mod vd va vb) s =
    finish (.mod vd va vb) s (modValues a b >>= fun r => s.writeV vd r) := by
  rw [exec, execMod, State.readV_of_some ha, State.readV_of_some hb, ok_bind, ok_bind]

end Commands

end Sys2Proof.Machine

namespace Sys2Proof.Proofs

open Sys2Proof.Machine Sys2Proof.Claims

/-- Settles O30: the two dividers' own specifications, with "no leading zero word" said as a test. -/
theorem dividersAreExact : Obligations.DividersAreExact := by
  have hcanon (ws : List Word) : canonicalMag ws = true ↔ NoLeadingZero ws := bne_iff_ne
  simp only [Obligations.DividersAreExact, hcanon]
  exact ⟨fun u d hd => divmag1_spec u hd,
    fun u v hu hv htwo hlt => divmagD_spec hv htwo (length_le_of_magNat_le hv hlt.le)⟩

/-- Settles O31: on the canonical values of a legal state `divrem` is the truncating division, and neither part has a
greater magnitude than the dividend, which a register held. -/
theorem divremTruncates : Obligations.DivremTruncates := by
  intro vq vr va vb s a b hne hs ha hb
  obtain ⟨hca, hfa⟩ := canonical_and_fits_of_legal hs ha
  obtain ⟨hcb, -⟩ := canonical_and_fits_of_legal hs hb
  rw [exec_divrem_of_some ha hb hne]
  constructor
  · intro hz
    rw [divrem_eq_of_canonical hca hcb hz, ok_bind,
      finish_writeV2_of_fits (fitsWords_canon_tdiv hca hfa _) (fitsWords_canon_remainder hca hfa _)]
    rfl
  · intro c hc hz
    exact finish_divrem_of_val_zero hcb hz hc a _

/-- Settles O32: the two commands write one part each of the same division. -/
theorem divRemWriteOnePart : Obligations.DivRemWriteOnePart := by
  intro vd va vb s a b hs ha hb
  obtain ⟨hca, hfa⟩ := canonical_and_fits_of_legal hs ha
  obtain ⟨hcb, -⟩ := canonical_and_fits_of_legal hs hb
  rw [exec_div_of_some ha hb, exec_rem_of_some ha hb]
  refine ⟨fun hz => ?_, fun c hc hz => finish_divrem_of_val_zero hcb hz hc a _,
    fun c hc hz => finish_divrem_of_val_zero hcb hz hc a _⟩
  rw [divrem_eq_of_canonical hca hcb hz, ok_bind, ok_bind]
  exact ⟨finish_writeV_of_fits (fitsWords_canon_tdiv hca hfa _) _ _ _,
    finish_writeV_of_fits (fitsWords_canon_remainder hca hfa _) _ _ _⟩

/-- Settles O33: a negative truncating remainder is raised by the modulus, and the floor remainder fits because it is
less than the modulus, which a register held. -/
theorem modFloors : Obligations.ModFloors := by
  intro vd va vb s a m hs ha hm
  obtain ⟨hca, -⟩ := canonical_and_fits_of_legal hs ha
  obtain ⟨hcm, hfm⟩ := canonical_and_fits_of_legal hs hm
  rw [exec_mod_of_some ha hm]
  constructor
  · intro hpos
    rw [modValues_eq_of_canonical hca hcm hpos, ok_bind,
      finish_writeV_of_fits (fitsWords_canon_emod hcm hfm hpos _)]
  · intro c hc hle
    rw [modValues_of_val_nonpos a hcm hle, error_bind, finish_error_of_decode hc]
    rfl

end Sys2Proof.Proofs
end

section
/-! SUPPORT. The power as an integer, and the command POW (45_pow.md R200 to R202; 60_exceptions.md R295). -/

namespace Sys2Proof.Machine

/-! ### Square and multiply (R200) -/

/-- One turn of the loop doubles the exponent read so far and adds the next bit. -/
theorem div_two_pow_eq_double_add_testBit (e n : Nat) :
    e / 2 ^ n = 2 * (e / 2 ^ (n + 1)) + (e.testBit n).toNat := by
  rw [Nat.toNat_testBit, Nat.pow_succ, ← Nat.div_div_eq_div_mul]
  exact (Nat.div_add_mod _ 2).symm

/-- The accumulator holds the power whose exponent is the bits of `e` above the `n` still to come. -/
theorem val_powBits (a : Value) (e n : Nat) {acc : Value} (hacc : acc.val = a.val ^ (e / 2 ^ n)) :
    (powBits a e n acc).val = a.val ^ e := by
  induction n generalizing acc with
  | zero => rwa [Nat.pow_zero, Nat.div_one] at hacc
  | succ n ih =>
    have hsq : (mulValues acc acc).value.val = a.val ^ (2 * (e / 2 ^ (n + 1))) := by
      rw [val_mulValues, hacc, two_mul, pow_add a.val]
    refine ih ?_
    rw [div_two_pow_eq_double_add_testBit]
    cases e.testBit n with
    | false => exact hsq
    | true => exact (val_mulValues _ a).trans (hsq ▸ (pow_succ ..).symm)

theorem val_powloop (a : Value) (e : Nat) : (powloop a e).val = a.val ^ e := by
  refine val_powBits a e _ ?_
  rw [Nat.div_eq_of_lt Nat.lt_log2_self, pow_zero]
  rfl

theorem canonical_powloop {a : Value} (ha : a.canonical = true) (e : Nat) : (powloop a e).canonical = true :=
  canonical_powBits ha _ _ canonical_oneValue

/-! ### The tests of R201 -/

theorem powValue_of_neg (a : Value) {e : Int} (he : e < 0) : powValue a e = .error .negativeExponent :=
  (powValue_error_iff a e _).2 ⟨he, rfl⟩

theorem powValue_eq_of_canonical {a : Value} (ha : a.canonical = true) {e : Int} (he : 0 ≤ e) : powValue a e =
    .ok { value := canon (a.val ^ e.toNat), src := if e = 0 then .const else if e = 1 then .sameA else .fresh } := by
  rw [powValue, if_neg he.not_gt]
  split_ifs with h0 h1 hzero
  · rw [h0, Int.toNat_zero, pow_zero]
    rfl
  · rw [h1, Int.toNat_one, pow_one, canon_val ha]
  · rw [val_of_sign_zero hzero, zero_pow (by omega)]
    rfl
  · rw [eq_canon_of_val (canonical_powloop ha e.toNat) (val_powloop a e.toNat)]

/-! ### The command -/

theorem exec_pow_of_some {s : State} {va : VReg} {a : Value} (ha : s.vReg va = some a) (vd : VReg) (xb : XReg) :
    exec (.pow vd va xb) s = finish (.pow vd va xb) s (powValue a (s.xReg xb).toInt >>= fun r => s.writeV vd r) := by
  rw [exec, execPow, State.readV_of_some ha, ok_bind]
  rfl

end Sys2Proof.Machine

namespace Sys2Proof.Proofs

open Sys2Proof.Machine Sys2Proof.Claims

/-- Settles O34: for an exponent that is not negative the power is exact on the canonical value that a legal state
holds, and it is written if it fits. -/
theorem powIsExact : Obligations.PowIsExact := by
  intro vd va xb s a e hs ha he
  have hexec := he ▸ exec_pow_of_some ha vd xb
  have hends (hpos : 0 ≤ e) := exec_fits_or_overflows <|
    hexec.trans <| by rw [powValue_eq_of_canonical (canonical_and_fits_of_legal hs ha).1 hpos, ok_bind]
  refine ⟨fun hpos => (hends hpos).1, fun c hc hneg => ?_, fun c hc hpos => (hends hpos).2 c hc⟩
  rw [hexec, powValue_of_neg a hneg, error_bind, finish_error_of_decode hc]
  rfl

/-- Settles O35: each power is the canonical value of the integer power, for which the identities are those of the
integers. -/
theorem powExponentIdentities : Obligations.PowExponentIdentities := by
  intro a ha
  have hpow (k : Nat) := powValue_eq_of_canonical ha (Int.natCast_nonneg k)
  have hvalue {k : Nat} {p : Value} {src : Rsrc} (h : powValue a k = .ok { value := p, src := src }) :
      p = canon (a.val ^ k) := (congrArg Reported.value (Except.ok.inj ((hpow k).symm.trans h))).symm
  refine ⟨by simpa using hpow 0, by simpa [canon_val ha] using hpow 1, fun p q r m n ps qs rs hp hq hr => ?_⟩
  rw [hvalue hp, hvalue hq, hvalue hr, mulValues_eq_of_canonical (canonical_canon _) (canonical_canon _), val_canon,
    val_canon, pow_add]

end Sys2Proof.Proofs
end

section
/-! SUPPORT. The words and the bits of the two's-complement view, and a value rebuilt from a string with a sign word on
top (46_bitwise.md R210 to R212, R219). -/

namespace Sys2Proof.Machine

open Sys2Proof.Claims

/-! ### Sign words (R210) -/

/-- The word of the view beyond the magnitude (R210). -/
def signWord (a : Value) : Word := if a.sign = .negative then 0xFFFFFFFF#32 else 0#32

theorem wordAt_of_len_le {a : Value} {i : Nat} (h : a.len ≤ i) : wordAt a i = signWord a := if_pos h

theorem signWord_eq_zero_or_allOnes (a : Value) : signWord a = 0#32 ∨ signWord a = BitVec.allOnes 32 := by
  rw [signWord]
  split
  · exact .inr rfl
  · exact .inl rfl

/-- A sign word is all of one bit. -/
theorem getLsbD_of_zero_or_allOnes {w : Word} (h : w = 0#32 ∨ w = BitVec.allOnes 32) {j : Nat} (hj : j < 32) :
    w.getLsbD j = w.getLsbD 0 := by
  obtain rfl | rfl := h
  · rw [BitVec.getLsbD_zero, BitVec.getLsbD_zero]
  · rw [BitVec.getLsbD_allOnes, BitVec.getLsbD_allOnes, decide_eq_true hj, decide_eq_true (by decide : 0 < 32)]

/-- The sign word is what the floor leaves of the value over a power of the base beyond the magnitude. -/
theorem toInt_signWord {a : Value} (ha : a.canonical = true) {i : Nat} (hi : a.len ≤ i) :
    (signWord a).toInt = a.val / (wordBase : Int) ^ i := by
  have hpos : (0 : Int) < (wordBase : Int) ^ i := by positivity
  have habs : a.val.natAbs < wordBase ^ i := by
    rw [natAbs_val ha]
    exact (magNat_lt a.mag).trans_le (Nat.pow_le_pow_right wordBase_pos hi)
  have hcast : ((wordBase ^ i : Nat) : Int) = (wordBase : Int) ^ i := Nat.cast_pow ..
  have hlo : -1 ≤ a.val / (wordBase : Int) ^ i := (Int.le_ediv_iff_mul_le hpos).2 (by omega)
  have hhi : a.val / (wordBase : Int) ^ i < 1 := (Int.ediv_lt_iff_lt_mul hpos).2 (by omega)
  rw [← wordAt_of_len_le hi, wordAt_eq_ofInt ha]
  exact BitVec.toInt_ofInt_eq_self (by decide) (by omega) (by omega)

/-! ### The view as a string (R211, R212) -/

@[simp] theorem length_tcwords (a : Value) (n : Nat) : (tcwords a n).length = n := by
  simp [tcwords]

theorem tcwords_succ (a : Value) (n : Nat) : tcwords a (n + 1) = tcwords a n ++ [wordAt a n] := by
  rw [tcwords, List.range_succ, List.map_append]
  rfl

/-- R210: the number in word `i` of the view. -/
theorem wordAt_toNat {a : Value} (ha : a.canonical = true) (i : Nat) :
    ((wordAt a i).toNat : Int) = a.val / (wordBase : Int) ^ i % (wordBase : Int) := by
  rw [wordAt_eq_ofInt ha, BitVec.toNat_ofInt]
  exact Int.toNat_of_nonneg (Int.emod_nonneg _ (by decide))

/-- `n` words of the view are the value modulo `B^n`. -/
theorem leNat_tcwords {a : Value} (ha : a.canonical = true) (n : Nat) :
    (leNat (tcwords a n) : Int) = a.val % (wordBase : Int) ^ n := by
  induction n with
  | zero => simp [tcwords, leNat]
  | succ n ih =>
    have hlast : leNat [wordAt a n] = (wordAt a n).toNat := rfl
    rw [tcwords_succ, leNat_append, length_tcwords, hlast, pow_succ, emod_mul_eq _ _ (by positivity),
      Nat.cast_add, ih, Nat.cast_mul, wordAt_toNat ha, Nat.cast_pow, Int.add_comm, Int.mul_comm]

/-- R211: the view with a sign word on top is the value. -/
theorem signWord_mul_add_leNat_tcwords {a : Value} (ha : a.canonical = true) {n : Nat} (hn : a.len ≤ n) :
    (signWord a).toInt * (wordBase : Int) ^ n + leNat (tcwords a n) = a.val := by
  rw [toInt_signWord ha hn, leNat_tcwords ha]
  exact Int.ediv_mul_add_emod _ _

/-- R212: the integer of a string, its top word signed. -/
theorem val_fromtc_concat (low : List Word) (top : Word) :
    (fromtc (low ++ [top])).val = top.toInt * (wordBase : Int) ^ low.length + leNat low := by
  have hpow : (2 : Int) ^ (32 * low.length) = (wordBase : Int) ^ low.length := pow_mul 2 32 _
  have hlow : unitsNat low.reverse = leNat low := magNat_reverse low
  rw [fromtc, List.reverse_append, List.reverse_singleton, List.singleton_append, val_normUnits (by decide),
    twosReading_cons, List.length_reverse, hpow, hlow]

/-- A word in front of any multiple of the base. -/
theorem ofInt_base_mul_add_toNat (q : Int) (w : Word) : BitVec.ofInt 32 ((wordBase : Int) * q + w.toNat) = w := by
  have hbase : BitVec.ofInt 32 (wordBase : Int) = 0#32 := rfl
  rw [BitVec.ofInt_add, BitVec.ofInt_mul, hbase, BitVec.zero_mul, BitVec.zero_add, BitVec.ofInt_natCast,
    BitVec.ofNat_toNat, BitVec.setWidth_eq]

/-- R212: within a string the view of the value rebuilt from it is the string. -/
theorem wordAt_fromtc_concat_of_lt {low : List Word} (top : Word) {i : Nat} (hi : i < low.length) :
    wordAt (fromtc (low ++ [top])) i = low.getD i 0#32 := by
  have hpow : (wordBase : Int) ^ low.length =
      (wordBase : Int) ^ i * ((wordBase : Int) * (wordBase : Int) ^ (low.length - i - 1)) := by
    rw [← pow_succ', ← pow_add]
    congr 1
    omega
  obtain ⟨q, hq⟩ : ∃ q : Int, (leNat low : Int) / (wordBase : Int) ^ i = q * wordBase + (low.getD i 0#32).toNat :=
    ⟨(leNat low / wordBase ^ (i + 1) : Nat), by exact_mod_cast leNat_div_pow_eq low i hi⟩
  have hsplit : (top.toInt * (wordBase : Int) ^ low.length + leNat low) / (wordBase : Int) ^ i =
      (wordBase : Int) * (top.toInt * (wordBase : Int) ^ (low.length - i - 1) + q) + (low.getD i 0#32).toNat := by
    rw [hpow, mul_left_comm, Int.mul_add_ediv_left _ _ (by positivity), hq]
    ring
  rw [wordAt_eq_ofInt (canonical_fromtc _), val_fromtc_concat, hsplit, ofInt_base_mul_add_toNat]

/-- R212: from a sign word on top of the string upwards, the view is that word. -/
theorem wordAt_fromtc_concat_of_ge {low : List Word} {top : Word} (htop : top = 0#32 ∨ top = BitVec.allOnes 32)
    {i : Nat} (hi : low.length ≤ i) : wordAt (fromtc (low ++ [top])) i = top := by
  have hlow : (leNat low : Int) < (wordBase : Int) ^ low.length := by exact_mod_cast leNat_lt low
  have hle : (wordBase : Int) ^ low.length ≤ (wordBase : Int) ^ i := pow_le_pow_right₀ (by decide) hi
  have hsign : (top.toInt * (wordBase : Int) ^ low.length + leNat low) / (wordBase : Int) ^ i = top.toInt := by
    rw [Int.ediv_eq_iff_of_pos (by positivity)]
    obtain rfl | rfl := htop
    · rw [BitVec.toInt_zero]
      omega
    · have hones : (BitVec.allOnes 32).toInt = -1 := rfl
      rw [hones]
      omega
  rw [wordAt_eq_ofInt (canonical_fromtc _), val_fromtc_concat, hsign, BitVec.ofInt_toInt]

/-! ### Bits (R11, R219) -/

/-- Bit `j` of an integer taken modulo the word. -/
theorem getLsbD_ofInt_word (z : Int) {j : Nat} (hj : j < 32) :
    (BitVec.ofInt 32 z).getLsbD j = decide (z / 2 ^ j % 2 = 1) := by
  have hdvd : ((2 ^ j * 2 : Nat) : Int) ∣ (2 ^ 32 : Nat) :=
    Int.natCast_dvd_natCast.2 (Nat.pow_dvd_pow 2 (Nat.succ_le_of_lt hj))
  have hbit (x : Int) : x / 2 ^ j % 2 = x % (2 ^ j * 2 : Nat) / 2 ^ j := by
    push_cast
    rw [emod_mul_eq x 2 (by positivity), Int.add_comm, Int.add_mul_ediv_right _ _ (by positivity),
      Int.ediv_eq_zero_of_lt (Int.emod_nonneg _ (by positivity)) (Int.emod_lt_of_pos _ (by positivity)), Int.zero_add]
  have hnat : ((BitVec.ofInt 32 z).toNat : Int) = z % (2 ^ 32 : Nat) := by
    rw [BitVec.toNat_ofInt, Int.toNat_of_nonneg (Int.emod_nonneg _ (by decide))]
  rw [← BitVec.testBit_toNat, Nat.testBit_eq_decide_div_mod_eq, decide_eq_decide, ← Int.natCast_inj]
  push_cast
  rw [hnat, hbit, Int.emod_emod_of_dvd _ hdvd, ← hbit]

/-- The place of a bit is that of its word and its own in the word (R219). -/
theorem wordBase_pow_mul_two_pow (p : Nat) : (wordBase : Int) ^ (p / 32) * 2 ^ (p % 32) = 2 ^ p := by
  have hbase : (wordBase : Int) = 2 ^ 32 := rfl
  rw [hbase, ← pow_mul, ← pow_add, Nat.div_add_mod]

theorem getLsbD_wordAt {a : Value} (ha : a.canonical = true) (p : Nat) :
    (wordAt a (p / 32)).getLsbD (p % 32) = a.bit p := by
  rw [wordAt_eq_ofInt ha, getLsbD_ofInt_word _ (Nat.mod_lt _ (by decide)), Int.ediv_ediv_of_nonneg (by positivity),
    wordBase_pow_mul_two_pow, Value.bit]

end Sys2Proof.Machine
end

section
/-! SUPPORT. The commands that read the view: WORDAT and TESTBIT (46_bitwise.md R210, R219, R220; 48_accessor.md R270;
60_exceptions.md R296, R307). -/

namespace Sys2Proof.Machine

open Sys2Proof.Claims

theorem bitMask_toNat (pos : Nat) : (bitMask pos).toNat = 2 ^ (pos % 32) := by
  rw [bitMask, BitVec.toNat_ofNat, Nat.mod_eq_of_lt (Nat.pow_lt_pow_right (by decide) (Nat.mod_lt pos (by decide)))]

theorem bitMask_ne_zero (pos : Nat) : bitMask pos ≠ 0#32 := fun h =>
  (Nat.two_pow_pos (pos % 32)).ne' ((bitMask_toNat pos).symm.trans (congrArg BitVec.toNat h))

theorem bitMask_eq_twoPow (pos : Nat) : bitMask pos = BitVec.twoPow 32 (pos % 32) :=
  BitVec.eq_of_toNat_eq (by rw [bitMask, BitVec.toNat_ofNat, BitVec.toNat_twoPow])

/-- R219: the mask picks the bit of the view out of its word. -/
theorem wordAt_and_bitMask {a : Value} (ha : a.canonical = true) (pos : Nat) :
    wordAt a (pos / 32) &&& bitMask pos = if a.bit pos then bitMask pos else 0#32 := by
  rw [bitMask_eq_twoPow, BitVec.and_twoPow, getLsbD_wordAt ha]

theorem testBitOf_eq_bit {a : Value} (ha : a.canonical = true) (pos : Nat) : testBitOf a pos = a.bit pos := by
  rw [testBitOf, wordAt_and_bitMask ha]
  cases a.bit pos
  · rfl
  · exact bne_iff_ne.2 (bitMask_ne_zero pos)

section Commands

variable {s : State} {va : VReg} {a : Value} (ha : s.vReg va = some a) (xd : XReg) (xb : XReg)

include ha

theorem exec_wordat_of_some : exec (.wordat xd va xb) s =
    finish (.wordat xd va xb) s (viewIndex (s.xReg xb).toInt >>= fun i => .ok (s.putX xd (zext32 (wordAt a i)))) := by
  rw [exec, execWordat, State.readV_of_some ha, ok_bind]
  rfl

theorem exec_testbit_of_some : exec (.testbit xd va xb) s = finish (.testbit xd va xb) s
    (bitPosition (s.xReg xb).toInt >>= fun pos => .ok (s.putX xd (if testBitOf a pos then 1 else 0))) := by
  rw [exec, execTestbit, State.readV_of_some ha, ok_bind]
  rfl

end Commands

end Sys2Proof.Machine

namespace Sys2Proof.Proofs

open Sys2Proof.Machine Sys2Proof.Claims

/-- Settles O36: the recipe gives the word of the view for every canonical value, so for what a legal state holds. -/
theorem wordatReadsView : Obligations.WordatReadsView := by
  have hword (a : Value) (i : Nat) (ha : a.canonical = true) :
      ((wordAt a i).toNat : Int) = a.val / 2 ^ (32 * i) % 2 ^ 32 := by
    rw [pow_mul]
    exact wordAt_toNat ha i
  refine ⟨hword, fun xd va xb s a i hs ha hi => ⟨fun hpos => ?_, fun c hc hneg => ?_⟩⟩
  · rw [exec_wordat_of_some ha, hi, (viewIndex_ok_iff i _).2 ⟨hpos, rfl⟩, ok_bind, finish_ok, zext32,
      hword a _ (canonical_and_fits_of_legal hs ha).1]
    rfl
  · rw [exec_wordat_of_some ha, hi, (viewIndex_error_iff i _).2 ⟨hneg, rfl⟩, error_bind, finish_error_of_decode hc]
    rfl

/-- Settles O40: the masked word is not zero exactly when the bit of the view is 1. -/
theorem testbitReadsView : Obligations.TestbitReadsView := by
  intro xd va xb s a pos hs ha hp
  refine ⟨fun hpos => ?_, fun c hc hneg => ?_⟩
  · have hbit : (if testBitOf a pos.toNat then (1 : Int) else 0) = a.val / 2 ^ pos.toNat % 2 := by
      rw [testBitOf_eq_bit (canonical_and_fits_of_legal hs ha).1, Value.bit]
      simp only [decide_eq_true_eq]
      split <;> omega
    rw [exec_testbit_of_some ha, hp, (bitPosition_ok_iff pos _).2 ⟨hpos, rfl⟩, ok_bind, finish_ok, hbit]
    rfl
  · rw [exec_testbit_of_some ha, hp, (bitPosition_error_iff pos _).2 ⟨hneg, rfl⟩, error_bind, finish_error_of_decode hc]
    rfl

end Sys2Proof.Proofs
end

section
/-! SUPPORT. The word-wise commands AND, OR, XOR, ANDNOT and NOT, bit by bit and as integers (46_bitwise.md R213 to
R218). -/

namespace Sys2Proof.Machine

open Sys2Proof.Claims

/-! ### The common datapath, bit by bit (R213) -/

/-- The words of R213 below the word of headroom. -/
def bitopLow (f : Word → Word → Word) (a b : Value) : List Word :=
  (List.range (Nat.max a.len b.len)).map fun i => f (wordAt a i) (wordAt b i)

@[simp] theorem length_bitopLow (f : Word → Word → Word) (a b : Value) :
    (bitopLow f a b).length = Nat.max a.len b.len := by
  rw [bitopLow, List.length_map, List.length_range]

/-- The word of headroom combines the two sign words. -/
theorem bitop_eq_fromtc_concat (f : Word → Word → Word) (a b : Value) :
    bitop f a b = fromtc (bitopLow f a b ++ [f (signWord a) (signWord b)]) := by
  rw [bitop, List.range_succ, List.map_append, List.map_singleton, wordAt_of_len_le (Nat.le_max_left a.len b.len),
    wordAt_of_len_le (Nat.le_max_right a.len b.len)]
  rfl

theorem val_bitop (f : Word → Word → Word) (a b : Value) : (bitop f a b).val =
    (f (signWord a) (signWord b)).toInt * (wordBase : Int) ^ Nat.max a.len b.len + leNat (bitopLow f a b) := by
  rw [bitop_eq_fromtc_concat, val_fromtc_concat, length_bitopLow]

theorem leNat_bitopLow_lt (f : Word → Word → Word) (a b : Value) :
    leNat (bitopLow f a b) < wordBase ^ Nat.max a.len b.len := by
  have hlt := leNat_lt (bitopLow f a b)
  rwa [length_bitopLow] at hlt

/-- A function of two words that works bit by bit (R213). -/
def Bitwise (f : Word → Word → Word) (g : Bool → Bool → Bool) : Prop :=
  ∀ (x y : Word) (j : Nat), j < 32 → (f x y).getLsbD j = g (x.getLsbD j) (y.getLsbD j)

section Bitwise

variable {f : Word → Word → Word} {g : Bool → Bool → Bool} (h : Bitwise f g)

include h

/-- Two sign words give a sign word. -/
theorem Bitwise.signWords (a b : Value) :
    f (signWord a) (signWord b) = 0#32 ∨ f (signWord a) (signWord b) = BitVec.allOnes 32 := by
  have hbit {j : Nat} (hj : j < 32) : (f (signWord a) (signWord b)).getLsbD j =
      g ((signWord a).getLsbD 0) ((signWord b).getLsbD 0) := by
    rw [h _ _ j hj, getLsbD_of_zero_or_allOnes (signWord_eq_zero_or_allOnes a) hj,
      getLsbD_of_zero_or_allOnes (signWord_eq_zero_or_allOnes b) hj]
  cases hg : g ((signWord a).getLsbD 0) ((signWord b).getLsbD 0) with
  | false => exact .inl (BitVec.eq_of_getLsbD_eq fun j hj => by rw [hbit hj, hg, BitVec.getLsbD_zero])
  | true =>
    exact .inr (BitVec.eq_of_getLsbD_eq fun j hj => by rw [hbit hj, hg, BitVec.getLsbD_allOnes, decide_eq_true hj])

/-- R213: the words of the view of the result. -/
theorem Bitwise.wordAt_bitop (a b : Value) (i : Nat) : wordAt (bitop f a b) i = f (wordAt a i) (wordAt b i) := by
  rw [bitop_eq_fromtc_concat]
  rcases Nat.lt_or_ge i (Nat.max a.len b.len) with hi | hi
  · have hi' : i < (bitopLow f a b).length := by rwa [length_bitopLow]
    rw [wordAt_fromtc_concat_of_lt _ hi', List.getD_eq_getElem _ _ hi']
    simp [bitopLow]
  · rw [wordAt_fromtc_concat_of_ge (h.signWords a b) (by rwa [length_bitopLow]),
      wordAt_of_len_le ((Nat.le_max_left _ _).trans hi), wordAt_of_len_le ((Nat.le_max_right _ _).trans hi)]

/-- R213: the bits of the view of the result. -/
theorem Bitwise.bit_bitop {a b : Value} (ha : a.canonical = true) (hb : b.canonical = true) (p : Nat) :
    (bitop f a b).bit p = g (a.bit p) (b.bit p) := by
  rw [← getLsbD_wordAt (canonical_bitop f a b), h.wordAt_bitop, h _ _ _ (Nat.mod_lt p (by decide)),
    getLsbD_wordAt ha, getLsbD_wordAt hb]

end Bitwise

theorem bitwise_and : Bitwise (· &&& ·) (· && ·) := fun _ _ _ _ => BitVec.getLsbD_and ..

theorem bitwise_or : Bitwise (· ||| ·) (· || ·) := fun _ _ _ _ => BitVec.getLsbD_or ..

theorem bitwise_xor : Bitwise (· ^^^ ·) (· != ·) := fun _ _ _ _ => BitVec.getLsbD_xor ..

theorem bitwise_andnot : Bitwise (fun x y => x &&& ~~~y) (fun x y => x && !y) := fun x y j hj => by
  rw [BitVec.getLsbD_and, BitVec.getLsbD_not, decide_eq_true hj, Bool.true_and]

/-! ### OR is never longer than the longer operand (R215) -/

theorem bitop_or_comm (a b : Value) : bitop (· ||| ·) a b = bitop (· ||| ·) b a := by
  have hmax : Nat.max a.len b.len = Nat.max b.len a.len := Nat.max_comm _ _
  rw [bitop, bitop, hmax]
  simp only [BitVec.or_comm]

theorem leNat_map_le_map {α : Type} {u v : α → Word} (h : ∀ i, (u i).toNat ≤ (v i).toNat) (l : List α) :
    leNat (l.map u) ≤ leNat (l.map v) := by
  induction l with
  | nil => exact le_rfl
  | cons i l ih =>
    rw [List.map_cons, List.map_cons, leNat, leNat]
    exact Nat.add_le_add (h i) (Nat.mul_le_mul_left _ ih)

theorem leNat_tcwords_le_bitopLow_or (a b : Value) :
    leNat (tcwords a (Nat.max a.len b.len)) ≤ leNat (bitopLow (· ||| ·) a b) :=
  leNat_map_le_map (fun _ => BitVec.toNat_or .. ▸ Nat.left_le_or) _

/-- Below zero, setting bits goes up and stays below zero. -/
theorem natAbs_val_bitop_or_le_of_negative {a : Value} (ha : a.canonical = true) (hneg : a.sign = .negative)
    (b : Value) : (bitop (· ||| ·) a b).val.natAbs ≤ a.val.natAbs := by
  have hsign : signWord a = BitVec.allOnes 32 := if_pos hneg
  have hones : (BitVec.allOnes 32).toInt = -1 := rfl
  have hview := signWord_mul_add_leNat_tcwords ha (Nat.le_max_left a.len b.len)
  have hmono := Int.ofNat_le.2 (leNat_tcwords_le_bitopLow_or a b)
  have hlt := Int.ofNat_lt.2 (leNat_bitopLow_lt (· ||| ·) a b)
  rw [Nat.cast_pow] at hlt
  rw [hsign, hones] at hview
  have hval := val_bitop (· ||| ·) a b
  rw [hsign, BitVec.allOnes_or, hones] at hval
  have hlo : a.val ≤ (bitop (· ||| ·) a b).val := by linarith only [hval, hview, hmono]
  have hhi : (bitop (· ||| ·) a b).val < 0 := by linarith only [hval, hlt]
  omega

/-- From zero up, the sign word of the result is 0, so the word of headroom is not needed. -/
theorem length_bitop_or_le_of_not_negative {a b : Value} (ha : a.sign ≠ .negative) (hb : b.sign ≠ .negative) :
    (bitop (· ||| ·) a b).mag.length ≤ Nat.max a.len b.len := by
  have hza : signWord a = 0#32 := if_neg ha
  have hzb : signWord b = 0#32 := if_neg hb
  have hcanon := canonical_bitop (· ||| ·) a b
  have hval : (bitop (· ||| ·) a b).val = leNat (bitopLow (· ||| ·) a b) := by
    rw [val_bitop, hza, hzb, BitVec.or_zero, BitVec.toInt_zero, Int.zero_mul, Int.zero_add]
  rw [length_le_iff_magNat_lt (noLeadingZero_of_canonical hcanon), ← natAbs_val hcanon, hval, Int.natAbs_natCast]
  exact leNat_bitopLow_lt _ a b

theorem fitsWords_bitop_or {s : State} {a b : Value} (ha : a.canonical = true) (hb : b.canonical = true)
    (hfa : fitsWords s a = true) (hfb : fitsWords s b = true) : fitsWords s (bitop (· ||| ·) a b) = true := by
  by_cases hna : a.sign = .negative
  · rw [← canon_val (canonical_bitop _ a b)]
    exact fitsWords_canon_of_natAbs_le ha hfa (natAbs_val_bitop_or_le_of_negative ha hna b)
  by_cases hnb : b.sign = .negative
  · rw [bitop_or_comm, ← canon_val (canonical_bitop _ b a)]
    exact fitsWords_canon_of_natAbs_le hb hfb (natAbs_val_bitop_or_le_of_negative hb hnb a)
  rw [← fitsIn_maxw] at hfa hfb ⊢
  have hlen := length_bitop_or_le_of_not_negative hna hnb
  rcases Nat.le_total a.len b.len with h | h
  · exact fitsIn_of_le hfb (hlen.trans_eq (Nat.max_eq_right h))
  · exact fitsIn_of_le hfa (hlen.trans_eq (Nat.max_eq_left h))

/-! ### NOT (R218) -/

/-- The complement of a string reads as one less than the opposite. -/
theorem twosReading_map_not {u : List Word} (hu : u ≠ []) : twosReading (u.map (~~~ ·)) = -(twosReading u + 1) := by
  obtain ⟨w, u, rfl⟩ := List.exists_cons_of_ne_nil hu
  have htop : (~~~w).toInt = -w.toInt - 1 := by
    rw [BitVec.toInt_eq_toNat_cond, BitVec.toInt_eq_toNat_cond, BitVec.toNat_not]
    have := w.isLt
    split <;> split <;> omega
  have hlow : (unitsNat (u.map (~~~ ·)) : Int) + unitsNat u + 1 = 2 ^ (32 * u.length) := by
    exact_mod_cast unitsNat_map_not u
  rw [List.map_cons, twosReading_cons, twosReading_cons, htop, List.length_map]
  linear_combination hlow

theorem val_fromtc (t : List Word) : (fromtc t).val = twosReading t.reverse := val_normUnits (by decide) _

/-- R211: enough words of the view, and one of headroom, give the value back. -/
theorem fromtc_tcwords {a : Value} (ha : a.canonical = true) {n : Nat} (hn : a.len ≤ n) :
    fromtc (tcwords a (n + 1)) = a := by
  refine eq_of_val_eq (canonical_fromtc _) ha ?_
  rw [tcwords_succ, wordAt_of_len_le hn, val_fromtc_concat, length_tcwords, signWord_mul_add_leNat_tcwords ha hn]

theorem notValue_eq_canon {a : Value} (ha : a.canonical = true) : notValue a = canon (-(a.val + 1)) := by
  have hne : (tcwords a (a.len + 1)).reverse ≠ [] := List.ne_nil_of_length_pos (by simp)
  refine eq_canon_of_val (canonical_notValue a) ?_
  rw [notValue, val_fromtc, ← List.map_reverse, twosReading_map_not hne, ← val_fromtc, fromtc_tcwords ha le_rfl]

/-! ### The commands -/

section Commands

variable {s : State} {va vb : VReg} {a b : Value} (ha : s.vReg va = some a) (hb : s.vReg vb = some b) (vd : VReg)

include ha

theorem exec_not_of_some : exec (.not vd va) s =
    finish (.not vd va) s (s.writeV vd { value := notValue a, src := .fresh }) := by
  rw [exec, execNot, State.readV_of_some ha, ok_bind]

include hb

theorem exec_and_of_some : exec (.and vd va vb) s =
    finish (.and vd va vb) s (s.writeV vd { value := bitop (· &&& ·) a b, src := .fresh }) := by
  rw [exec, execAnd, State.readV_of_some ha, State.readV_of_some hb, ok_bind, ok_bind]

theorem exec_or_of_some : exec (.or vd va vb) s =
    finish (.or vd va vb) s (s.writeV vd { value := bitop (· ||| ·) a b, src := .fresh }) := by
  rw [exec, execOr, State.readV_of_some ha, State.readV_of_some hb, ok_bind, ok_bind]

theorem exec_xor_of_some : exec (.xor vd va vb) s =
    finish (.xor vd va vb) s (s.writeV vd { value := bitop (· ^^^ ·) a b, src := .fresh }) := by
  rw [exec, execXor, State.readV_of_some ha, State.readV_of_some hb, ok_bind, ok_bind]

theorem exec_andnot_of_some : exec (.andnot vd va vb) s =
    finish (.andnot vd va vb) s (s.writeV vd { value := bitop (fun x y => x &&& ~~~y) a b, src := .fresh }) := by
  rw [exec, execAndnot, State.readV_of_some ha, State.readV_of_some hb, ok_bind, ok_bind]

end Commands

end Sys2Proof.Machine

namespace Sys2Proof.Proofs

open Sys2Proof.Machine Sys2Proof.Claims

/-- Settles O37: the value of the datapath has the bits, and it is written if it fits. -/
theorem andAndnotWorkBitByBit : Obligations.AndAndnotWorkBitByBit := by
  intro vd va vb s a b hs ha hb
  obtain ⟨hca, -⟩ := canonical_and_fits_of_legal hs ha
  obtain ⟨hcb, -⟩ := canonical_and_fits_of_legal hs hb
  exact ⟨⟨_, canonical_bitop _ a b, bitwise_and.bit_bitop hca hcb,
      exec_fits_or_overflows (exec_and_of_some ha hb vd)⟩,
    ⟨_, canonical_bitop _ a b, bitwise_andnot.bit_bitop hca hcb,
      exec_fits_or_overflows (exec_andnot_of_some ha hb vd)⟩⟩

/-- Settles O38: the value of the datapath has the bits; that of `OR` fits because one of the operands, which registers
held, bounds it. -/
theorem orXorWorkBitByBit : Obligations.OrXorWorkBitByBit := by
  intro vd va vb s a b hs ha hb
  obtain ⟨hca, hfa⟩ := canonical_and_fits_of_legal hs ha
  obtain ⟨hcb, hfb⟩ := canonical_and_fits_of_legal hs hb
  exact ⟨⟨_, canonical_bitop _ a b, bitwise_or.bit_bitop hca hcb,
      (exec_fits_or_overflows (exec_or_of_some ha hb vd)).1 (fitsWords_bitop_or hca hcb hfa hfb)⟩,
    ⟨_, canonical_bitop _ a b, bitwise_xor.bit_bitop hca hcb,
      exec_fits_or_overflows (exec_xor_of_some ha hb vd)⟩⟩

/-- Settles O39: the complement of the view is the view of `-(x+1)`, and it is written if it fits. -/
theorem notIsMinusOneLess : Obligations.NotIsMinusOneLess := by
  intro vd va s a hs ha
  have hnot := notValue_eq_canon (canonical_and_fits_of_legal hs ha).1
  exact exec_fits_or_overflows (hnot ▸ exec_not_of_some ha vd)

end Sys2Proof.Proofs
end

section
/-! SUPPORT. The commands SETBIT, CLRBIT and FLIPBIT as integers (46_bitwise.md R219, R221 to R223; 60_exceptions.md
R296). -/

namespace Sys2Proof.Machine

open Sys2Proof.Claims

/-! ### One word of a string changed -/

theorem leNat_modify {ws : List Word} {k : Nat} (hk : k < ws.length) (f : Word → Word) :
    leNat (ws.modify k f) + (ws.getD k 0#32).toNat * wordBase ^ k =
      leNat ws + (f (ws.getD k 0#32)).toNat * wordBase ^ k := by
  induction ws generalizing k with
  | nil => nomatch hk
  | cons w ws ih =>
    cases k with
    | zero =>
      simp only [List.modify_zero_cons, leNat, List.getD_cons_zero, pow_zero]
      omega
    | succ k =>
      have hih := ih (Nat.lt_of_succ_lt_succ hk)
      rw [List.modify_succ_cons, leNat, leNat, List.getD_cons_succ, pow_succ]
      linear_combination wordBase * hih

theorem modify_concat_of_lt {α : Type} {l : List α} {k : Nat} (hk : k < l.length) (f : α → α) (x : α) :
    (l ++ [x]).modify k f = l.modify k f ++ [x] := by
  induction l generalizing k with
  | nil => nomatch hk
  | cons y l ih =>
    cases k with
    | zero => rfl
    | succ k =>
      rw [List.cons_append, List.modify_succ_cons, ih (Nat.lt_of_succ_lt_succ hk), List.modify_succ_cons,
        List.cons_append]

/-- R221: a change of the word that contains the bit by `d` times the bit's place changes the value by `d` times
`2^pos`. -/
theorem val_bitEdit {a : Value} (ha : a.canonical = true) {f : Word → Word} {pos : Nat} {d : Int}
    (hd : ((f (wordAt a (pos / 32))).toNat : Int) = (wordAt a (pos / 32)).toNat + d * 2 ^ (pos % 32)) :
    (bitEdit f a pos).val = a.val + d * 2 ^ pos := by
  have hlen : a.len ≤ Nat.max a.len (pos / 32 + 1) := Nat.le_max_left _ _
  have hk : pos / 32 < Nat.max a.len (pos / 32 + 1) := Nat.le_max_right _ _
  rw [bitEdit]
  generalize Nat.max a.len (pos / 32 + 1) = n at hlen hk ⊢
  have hk' : pos / 32 < (tcwords a n).length := by rwa [length_tcwords]
  have hword : (tcwords a n).getD (pos / 32) 0#32 = wordAt a (pos / 32) := by
    rw [List.getD_eq_getElem _ _ hk']
    simp [tcwords]
  have hmodify : (leNat ((tcwords a n).modify (pos / 32) f) : Int) +
      (wordAt a (pos / 32)).toNat * (wordBase : Int) ^ (pos / 32) =
      leNat (tcwords a n) + (f (wordAt a (pos / 32))).toNat * (wordBase : Int) ^ (pos / 32) := by
    rw [← hword]
    exact_mod_cast leNat_modify hk' f
  rw [tcwords_succ, wordAt_of_len_le hlen, modify_concat_of_lt hk', val_fromtc_concat, List.length_modify,
    length_tcwords, ← wordBase_pow_mul_two_pow pos]
  linear_combination hmodify + signWord_mul_add_leNat_tcwords ha hlen + (wordBase : Int) ^ (pos / 32) * hd

/-! ### One bit of a word changed (R219) -/

theorem toNat_or_of_and_eq_zero {w m : Word} (h : w &&& m = 0#32) : (w ||| m).toNat = w.toNat + m.toNat := by
  rw [← BitVec.add_eq_or_of_and_eq_zero _ _ h, BitVec.toNat_add_of_and_eq_zero h]

/-- A bit that is 1: setting it changes nothing, clearing and flipping it take its place away. -/
theorem edits_of_and_eq_mask {w m : Word} (h : w &&& m = m) :
    w ||| m = w ∧ (w &&& ~~~m).toNat + m.toNat = w.toNat ∧ w ^^^ m = w &&& ~~~m := by
  have hbit (j : Nat) (hj : j < 32) : (w[j] && m[j]) = m[j] := by rw [← BitVec.getElem_and, h]
  have hset : w ||| m = w := by
    ext j hj
    grind
  have hapart : (w &&& ~~~m) &&& m = 0#32 := by
    ext j hj
    grind
  have hjoin : (w &&& ~~~m) ||| m = w := by
    ext j hj
    grind
  have hflip : w ^^^ m = w &&& ~~~m := by
    ext j hj
    grind
  exact ⟨hset, by rw [← toNat_or_of_and_eq_zero hapart, hjoin], hflip⟩

/-- A bit that is 0: clearing it changes nothing, setting and flipping it add its place. -/
theorem edits_of_and_eq_zero {w m : Word} (h : w &&& m = 0#32) :
    (w ||| m).toNat = w.toNat + m.toNat ∧ w &&& ~~~m = w ∧ w ^^^ m = w ||| m := by
  have hbit (j : Nat) (hj : j < 32) : (w[j] && m[j]) = false := by rw [← BitVec.getElem_and, h, BitVec.getElem_zero]
  refine ⟨toNat_or_of_and_eq_zero h, ?_, ?_⟩
  · ext j hj
    grind
  · ext j hj
    grind

/-! ### The three edits as integers (R221 to R223) -/

section Edits

variable {a : Value} (ha : a.canonical = true) {pos : Nat}

include ha

/-- Where the bit is 1, setting it keeps the value; clearing and flipping it take `2^pos` away. -/
theorem val_bitEdit_of_set (h : a.val / 2 ^ pos % 2 = 1) :
    (bitEdit (· ||| bitMask pos) a pos).val = a.val ∧
    (bitEdit (· &&& ~~~bitMask pos) a pos).val = a.val - 2 ^ pos ∧
    (bitEdit (· ^^^ bitMask pos) a pos).val = a.val - 2 ^ pos := by
  have hmask := wordAt_and_bitMask ha pos
  rw [Value.bit, if_pos (decide_eq_true h)] at hmask
  obtain ⟨hset, hclear, hflip⟩ := edits_of_and_eq_mask hmask
  rw [bitMask_toNat] at hclear
  zify at hclear
  refine ⟨?_, ?_, ?_⟩
  · rw [val_bitEdit ha (d := 0) (by rw [hset, Int.zero_mul, Int.add_zero]), Int.zero_mul, Int.add_zero]
  · rw [val_bitEdit ha (d := -1) (by linarith only [hclear]), neg_one_mul, ← sub_eq_add_neg]
  · rw [val_bitEdit ha (d := -1) (by rw [hflip]; linarith only [hclear]), neg_one_mul, ← sub_eq_add_neg]

/-- Where the bit is 0, clearing it keeps the value; setting and flipping it add `2^pos`. -/
theorem val_bitEdit_of_not_set (h : ¬a.val / 2 ^ pos % 2 = 1) :
    (bitEdit (· ||| bitMask pos) a pos).val = a.val + 2 ^ pos ∧
    (bitEdit (· &&& ~~~bitMask pos) a pos).val = a.val ∧
    (bitEdit (· ^^^ bitMask pos) a pos).val = a.val + 2 ^ pos := by
  have hmask := wordAt_and_bitMask ha pos
  rw [Value.bit, if_neg (mt of_decide_eq_true h)] at hmask
  obtain ⟨hset, hclear, hflip⟩ := edits_of_and_eq_zero hmask
  rw [bitMask_toNat] at hset
  zify at hset
  refine ⟨?_, ?_, ?_⟩
  · rw [val_bitEdit ha (d := 1) (by linarith only [hset]), one_mul]
  · rw [val_bitEdit ha (d := 0) (by rw [hclear, Int.zero_mul, Int.add_zero]), Int.zero_mul, Int.add_zero]
  · rw [val_bitEdit ha (d := 1) (by rw [hflip]; linarith only [hset]), one_mul]

variable (pos)

theorem setbit_eq_canon : bitEdit (· ||| bitMask pos) a pos = canon (bitSet a.val pos) := by
  refine eq_canon_of_val (canonical_bitEdit _ a pos) ?_
  rw [bitSet]
  split
  · rename_i h
    exact (val_bitEdit_of_set ha h).1
  · rename_i h
    exact (val_bitEdit_of_not_set ha h).1

theorem clrbit_eq_canon : bitEdit (· &&& ~~~bitMask pos) a pos = canon (bitCleared a.val pos) := by
  refine eq_canon_of_val (canonical_bitEdit _ a pos) ?_
  rw [bitCleared]
  split
  · rename_i h
    exact (val_bitEdit_of_set ha h).2.1
  · rename_i h
    exact (val_bitEdit_of_not_set ha h).2.1

theorem flipbit_eq_canon : bitEdit (· ^^^ bitMask pos) a pos = canon (bitFlipped a.val pos) := by
  refine eq_canon_of_val (canonical_bitEdit _ a pos) ?_
  rw [bitFlipped]
  split
  · rename_i h
    rw [bitCleared, if_pos h]
    exact (val_bitEdit_of_set ha h).2.2
  · rename_i h
    rw [bitSet, if_neg h]
    exact (val_bitEdit_of_not_set ha h).2.2

end Edits

/-! ### The commands -/

/-- What a bit command does with its position: it edits the value if the position is not negative (R219). -/
def BitCommand (i : Instr) (s : State) (vd : VReg) (a : Value) (pos : Int) (f : Nat → Word → Word) : Prop :=
  exec i s = finish i s (bitPosition pos >>= fun p => s.writeV vd { value := bitEdit (f p) a p, src := .fresh })

section Commands

variable {s : State} {va : VReg} {a : Value} (ha : s.vReg va = some a) (vd : VReg) (xb : XReg)

include ha

theorem exec_setbit_of_some :
    BitCommand (.setbit vd va xb) s vd a (s.xReg xb).toInt fun p w => w ||| bitMask p := by
  rw [BitCommand, exec, execSetbit, State.readV_of_some ha, ok_bind]
  rfl

theorem exec_clrbit_of_some :
    BitCommand (.clrbit vd va xb) s vd a (s.xReg xb).toInt fun p w => w &&& ~~~bitMask p := by
  rw [BitCommand, exec, execClrbit, State.readV_of_some ha, ok_bind]
  rfl

theorem exec_flipbit_of_some :
    BitCommand (.flipbit vd va xb) s vd a (s.xReg xb).toInt fun p w => w ^^^ bitMask p := by
  rw [BitCommand, exec, execFlipbit, State.readV_of_some ha, ok_bind]
  rfl

end Commands

/-- The three ends of a bit command whose edit gives `z`: the value, and the error entries of codes 5 and 9. -/
theorem BitCommand.ends {i : Instr} {s : State} {vd : VReg} {a : Value} {pos z : Int} {f : Nat → Word → Word}
    (h : BitCommand i s vd a pos f) (hz : bitEdit (f pos.toNat) a pos.toNat = canon z) :
    (0 ≤ pos → fitsWords s (canon z) = true → exec i s = .next (afterV s vd (canon z) .fresh)) ∧
    (∀ c, decode c = .ok i → pos < 0 → exec i s = .next (afterError s 5 c)) ∧
    (∀ c, decode c = .ok i → 0 ≤ pos → fitsWords s (canon z) = false → exec i s = .next (afterError s 9 c)) := by
  have hends (hpos : 0 ≤ pos) := exec_fits_or_overflows <|
    h.trans <| by rw [(bitPosition_ok_iff pos _).2 ⟨hpos, rfl⟩, ok_bind, hz]
  refine ⟨fun hpos => (hends hpos).1, fun c hc hneg => ?_, fun c hc hpos => (hends hpos).2 c hc⟩
  rw [BitCommand, (bitPosition_error_iff pos _).2 ⟨hneg, rfl⟩, error_bind, finish_error_of_decode hc] at h
  exact h

end Sys2Proof.Machine

namespace Sys2Proof.Proofs

open Sys2Proof.Machine Sys2Proof.Claims

/-- Settles O41: each of the three edits changes one word of the view by the place of its bit, or not at all. -/
theorem bitEditsAddPowers : Obligations.BitEditsAddPowers := by
  intro vd va xb s a pos i z hs ha hp hi
  obtain ⟨hcanon, -⟩ := canonical_and_fits_of_legal hs ha
  obtain ⟨rfl, rfl⟩ | ⟨rfl, rfl⟩ | ⟨rfl, rfl⟩ := hi
  · exact (hp ▸ exec_setbit_of_some ha vd xb).ends (setbit_eq_canon hcanon _)
  · exact (hp ▸ exec_clrbit_of_some ha vd xb).ends (clrbit_eq_canon hcanon _)
  · exact (hp ▸ exec_flipbit_of_some ha vd xb).ends (flipbit_eq_canon hcanon _)

end Sys2Proof.Proofs
end

section
/-! SUPPORT. The shift as the floor of the value times a power of two, and the commands SHL and SHR (46_bitwise.md R224
to R228). -/

namespace Sys2Proof.Machine

open Sys2Proof.Claims

/-! ### The shift (R226) -/

theorem shifted_of_nonneg (z : Int) {n : Int} (h : 0 ≤ n) : shifted z n = z * 2 ^ n.toNat := if_pos h

theorem shifted_of_neg (z : Int) {n : Int} (h : n < 0) : shifted z n = z / 2 ^ (-n).toNat := if_neg h.not_ge

theorem zero_shifted (n : Int) : shifted 0 n = 0 := by
  rw [shifted]
  split
  · rw [Int.zero_mul]
  · rw [Int.zero_ediv]

theorem shifted_zero (z : Int) : shifted z 0 = z := by
  rw [shifted_of_nonneg z le_rfl, Int.toNat_zero, pow_zero, Int.mul_one]

theorem magNat_shrmag (p : List Word) (n : Nat) : (magNat (shrmag p n).1 : Int) = (magNat p : Int) / 2 ^ n := by
  obtain ⟨hq, -, -⟩ := shrmag_spec p n
  exact_mod_cast hq

/-- The right shift of a positive value drops the bits shifted out (R225). -/
theorem val_shrmag_positive (p : List Word) (n : Nat) :
    (if (shrmag p n).1.isEmpty then zeroValue else { sign := .positive, mag := (shrmag p n).1 }).val =
      (magNat p : Int) / 2 ^ n := by
  rw [← magNat_shrmag]
  split
  · rename_i hempty
    rw [List.isEmpty_iff.1 hempty]
    rfl
  · rw [Value.val, Sign.num, one_mul]

/-- The right shift of a negative value goes one further down if a 1 bit was lost (R225, R226). -/
theorem val_shrmag_negative (p : List Word) (n : Nat) :
    ({ sign := .negative
       mag := if (shrmag p n).2 then addmag (shrmag p n).1 [1#32] else (shrmag p n).1 } : Value).val =
      -(magNat p : Int) / 2 ^ n := by
  obtain ⟨-, hlost, -⟩ := shrmag_spec p n
  have hdvd : (2 : Int) ^ n ∣ magNat p ↔ ¬(shrmag p n).2 = true := by
    rw [hlost, not_not, ← Nat.dvd_iff_mod_eq_zero]
    exact_mod_cast Iff.rfl
  rw [Value.val, Sign.num, neg_one_mul, Int.neg_ediv, ← magNat_shrmag]
  split
  · rename_i h
    have hone : magNat [1#32] = 1 := rfl
    rw [if_neg fun hd => hdvd.1 hd h, magNat_addmag, hone, Int.sign_eq_one_of_pos (by positivity)]
    push_cast
    ring
  · rename_i h
    rw [if_pos (hdvd.2 h), sub_zero]

theorem val_shiftValue (a : Value) (n : Int) : (shiftValue a n).val = shifted a.val n := by
  rw [shiftValue]
  split
  · rename_i h
    obtain hsign | rfl := h
    · rw [val_of_sign_zero hsign, zero_shifted]
    · rw [shifted_zero]
  rename_i h
  obtain ⟨hsign, hn⟩ := not_or.1 h
  split
  · rename_i hpos
    rw [shifted_of_nonneg _ hpos.le, Value.val, magNat_shlmag, Value.val]
    push_cast
    ring
  · rename_i hpos
    rw [shifted_of_neg _ (by omega)]
    dsimp only
    split
    · rename_i hp
      rw [val_shrmag_positive, Value.val, hp, Sign.num, one_mul]
    · rename_i hp
      have hneg : a.sign = .negative := by
        revert hsign hp
        cases a.sign <;> decide
      rw [val_shrmag_negative, val_of_negative hneg]

theorem shiftValue_eq_canon {a : Value} (ha : a.canonical = true) (n : Int) :
    shiftValue a n = canon (shifted a.val n) :=
  eq_canon_of_val (canonical_shiftValue ha n) (val_shiftValue a n)

/-- R228: a left shift leaves zero bits at the low end, which a right shift by the same distance drops. -/
theorem shifted_neg_shifted (z : Int) {n : Int} (h : 0 ≤ n) : shifted (shifted z n) (-n) = z := by
  obtain rfl | hpos := h.eq_or_lt
  · rw [neg_zero, shifted_zero, shifted_zero]
  · rw [shifted_of_nonneg z h, shifted_of_neg _ (by omega), neg_neg, Int.mul_ediv_cancel _ (by positivity)]

/-! ### The commands -/

section Commands

variable {s : State} {va : VReg} {a : Value} (ha : s.vReg va = some a) (vd : VReg) (xb : XReg)

include ha

theorem exec_shl_of_some : exec (.shl vd va xb) s =
    finish (.shl vd va xb) s (s.writeV vd { value := shiftValue a (s.xReg xb).toInt, src := .fresh }) := by
  rw [exec, execShl, State.readV_of_some ha, ok_bind]
  rfl

theorem exec_shr_of_some : exec (.shr vd va xb) s =
    finish (.shr vd va xb) s (s.writeV vd { value := shiftValue a (-(s.xReg xb).toInt), src := .fresh }) := by
  rw [exec, execShr, State.readV_of_some ha, ok_bind]
  rfl

end Commands

/-- A command that writes one value and leaves no error code has written it (R28, R300). -/
theorem eq_putV_of_finish_writeV {i : Instr} {s t : State} {vd : VReg} {r : Reported}
    (h : finish i s (s.writeV vd r) = .next t) (herr : errField t = 0) : t = s.putV vd r.value r.src := by
  obtain hok | ⟨e, -, rfl⟩ := (finish_next_iff _ _ _ _).1 h
  · exact ((s.writeV_ok_iff vd r t).1 hok).2
  · exact absurd ((slice_statusError_err e).symm.trans herr) e.code_pos.ne'

end Sys2Proof.Machine

namespace Sys2Proof.Proofs

open Sys2Proof.Machine Sys2Proof.Claims

/-- Settles O42: on the canonical value that a legal state holds the shift is the floor, in both directions, and it is
written if it fits. -/
theorem shiftsFloor : Obligations.ShiftsFloor := by
  intro vd va xb s a n hs ha hn
  have hshift (k : Int) := shiftValue_eq_canon (canonical_and_fits_of_legal hs ha).1 k
  exact ⟨exec_fits_or_overflows (hshift n ▸ hn ▸ exec_shl_of_some ha vd xb),
    exec_fits_or_overflows (hshift (-n) ▸ hn ▸ exec_shr_of_some ha vd xb)⟩

/-- Settles O43: the first shift wrote the value times the power of two, the second divides it exactly, and the original
value fits because a register held it. -/
theorem shiftRoundTrip : Obligations.ShiftRoundTrip := by
  intro vd va vt xb s t a hs ha hn hshl herr
  obtain ⟨hcanon, hfit⟩ := canonical_and_fits_of_legal hs ha
  rw [exec_shl_of_some ha] at hshl
  have ht := eq_putV_of_finish_writeV hshl herr
  have hread : t.vReg vt = some (shiftValue a (s.xReg xb).toInt) := by rw [ht, State.putV_vReg, if_pos rfl]
  have hdist : t.xReg xb = s.xReg xb := by rw [ht, State.xReg, State.putV_x, State.xReg]
  have hfit' : fitsWords t a = true := by rwa [ht, fitsWords, State.putV_params]
  have hback : shiftValue (shiftValue a (s.xReg xb).toInt) (-(s.xReg xb).toInt) = a := by
    rw [shiftValue_eq_canon (canonical_shiftValue hcanon _), val_shiftValue, shifted_neg_shifted _ hn, canon_val hcanon]
  refine ⟨t.putV vd a .fresh, ?_, slice_statusOk_err _ _, ?_⟩
  · rw [exec_shr_of_some hread, hdist, hback, finish_writeV_of_fits hfit']
    rfl
  · rw [State.putV_vReg, if_pos rfl]

end Sys2Proof.Proofs
end

section
/-! SUPPORT. The errors of the commands: every command answers a next state, an EMPTY source is reported before any
other test, and a command raises only what the table of causes allows it (60_exceptions.md R291, R297, R298, R300,
R302). -/

namespace Sys2Proof.Machine

open Sys2Proof.Claims

/-! ### Every access answers a next state (R290, R303) -/

theorem exec_next (i : Instr) (s : State) : ∃ t, exec i s = .next t := by
  obtain ⟨r, hr, -⟩ := exec_sound i s
  exact ⟨_, hr⟩

theorem runCommand_next (c : Word) (s : State) : ∃ t, runCommand c s = .next t := by
  cases h : decode c with
  | ok i => exact runCommand_of_ok h s ▸ exec_next i s
  | error e => exact ⟨_, runCommand_of_error h s⟩

theorem writeReg_next (r : PortReg) (c : Word) (s : State) : ∃ t, writeReg r c s = .next t := by
  by_cases hcmd : r = .cmd
  · subst hcmd
    exact runCommand_next c s
  by_cases hlog : r = .errlog
  · subst hlog
    exact ⟨_, rfl⟩
  obtain ⟨t, ht, -⟩ := writeReg_keeps hcmd hlog c s
  exact ⟨t, ht⟩

theorem serve_next (a : Input) (s : State) : ∃ t, serve a s = .next t := by
  cases a with
  | read bits offset => exact ⟨_, rfl⟩
  | reset => exact ⟨_, rfl⟩
  | write bits offset c =>
    rw [serve, writePort]
    split
    · exact writeReg_next _ c s
    · exact ⟨_, rfl⟩

/-! ### A word written to `CMD` -/

/-- What a write of `c` to `CMD` can do: a normal end, or the error entry with the word itself (R300, R33). -/
theorem runCommand_cases_of_word {c : Word} {s t : State} (h : runCommand c s = .next t) :
    (∃ i, Ends i s t) ∨ ∃ e : ErrorKind, e.code ≤ 11 ∧ t = s.raise e c := by
  cases hc : decode c with
  | ok i =>
    rw [runCommand_of_ok hc] at h
    rcases exec_cases h with hends | ⟨e, he, ht⟩
    · exact .inl ⟨i, hends⟩
    · exact .inr ⟨e, he, (encode_of_decode hc).1 ▸ ht⟩
  | error e =>
    rw [runCommand_of_error hc] at h
    exact .inr ⟨.illegalCommand, by decide, (Host.Outcome.next.inj h).symm⟩

/-- A word that no row takes, or with one register as both destinations of `DIVREM`, is no command (R95). -/
theorem decode_error_of_no_row {c : Word} (h : (∀ r ∈ opcodeRows, ¬r.takes c) ∨ sameDestinations c) :
    ∃ e, decode c = .error e := by
  cases hc : decode c with
  | error e => exact ⟨e, rfl⟩
  | ok i =>
    obtain ⟨r, hr, htakes, -, hsame⟩ := (Proofs.decodeMatchesOpcodeTable.1 c i).1 hc
    rcases h with h | h
    · exact absurd htakes (h r hr)
    · exact absurd h hsame

/-! ### An `EMPTY` source comes before any other test (R298, R302) -/

section Sources

variable {s : State} {va vb : VReg}

theorem readV_bind_of_empty {f : Value → Except ErrorKind State} (h : ∃ r ∈ [va], s.vReg r = none) :
    (s.readV va >>= f) = .error .emptyRegister := by
  obtain ⟨r, hr, hempty⟩ := h
  obtain rfl := List.mem_singleton.1 hr
  rw [State.readV_of_none hempty, error_bind]

theorem readV_bind_readV_bind_of_empty {f : Value → Value → Except ErrorKind State}
    (h : ∃ r ∈ [va, vb], s.vReg r = none) :
    (s.readV va >>= fun a => s.readV vb >>= f a) = .error .emptyRegister := by
  cases ha : s.vReg va with
  | none => rw [State.readV_of_none ha, error_bind]
  | some a =>
    rw [State.readV_of_some ha, ok_bind]
    refine readV_bind_of_empty ?_
    simpa [ha] using h

end Sources

/-- A command reads its `V` sources first. -/
theorem exec_of_empty_source {i : Instr} {s : State} (hwf : i.wellFormed = true)
    (h : ∃ r ∈ vSources i, s.vReg r = none) : exec i s = finish i s (.error .emptyRegister) := by
  cases i
  case nop | const | free | xli | frombytes | fromwords | fromint64 =>
    obtain ⟨r, hr, -⟩ := h
    nomatch hr
  case mov | neg | abs | not | pow | testbit | setbit | clrbit | flipbit | shl | shr | tobytes | tozfbytes | bitlen
      | bitcnt | maglen | signum | magwf | magwr | wordat =>
    exact congrArg (finish _ s) (readV_bind_of_empty h)
  case cmp | min | max | add | sub | mul | div | rem | mod | and | or | xor | andnot =>
    exact congrArg (finish _ s) (readV_bind_readV_bind_of_empty h)
  case divrem vq vr va vb =>
    have hne : vq ≠ vr := by simpa [Instr.wellFormed] using hwf
    rw [exec, execDivrem, if_neg hne]
    exact congrArg (finish _ s) (readV_bind_readV_bind_of_empty h)

/-! ### The errors a command may raise (R291) -/

/-- An error that command `i` may raise in state `s`: the table of causes names it, or `i` is a term that is no command
(R97); and `EmptyRegister` only for an `EMPTY` source. -/
def Explained (i : Instr) (s : State) (e : ErrorKind) : Prop :=
  (mayRaise e.code i = true ∨ e = .illegalCommand ∧ i.wellFormed = false) ∧
    (e = .emptyRegister → ∃ r ∈ vSources i, s.vReg r = none)

/-- A result of command `i` in state `s`: a normal end, or an error that is explained. -/
def Accounted (i : Instr) (s : State) (r : Except ErrorKind State) : Prop :=
  (∀ t, r = .ok t → errField t = 0) ∧ ∀ e, r = .error e → Explained i s e

section Accounted

variable {i : Instr} {s : State}

theorem Explained.of_table {e : ErrorKind} (h : mayRaise e.code i = true := by rfl)
    (hne : e ≠ .emptyRegister := by decide) : Explained i s e :=
  ⟨.inl h, fun he => absurd he hne⟩

theorem Accounted.error {e : ErrorKind} (h : Explained i s e) : Accounted i s (.error e) :=
  ⟨fun _ ht => (nomatch ht), fun _ he => Except.error.inj he ▸ h⟩

theorem Accounted.ok {t : State} (h : errField t = 0) : Accounted i s (.ok t) :=
  ⟨fun _ ht => Except.ok.inj ht ▸ h, fun _ he => (nomatch he)⟩

theorem Accounted.bind {α : Type} {m : Except ErrorKind α} {f : α → Except ErrorKind State}
    (hm : ∀ e, m = .error e → Explained i s e) (hf : ∀ a, Accounted i s (f a)) : Accounted i s (m >>= f) := by
  cases m with
  | ok a => exact hf a
  | error e => exact .error (hm e rfl)

/-- An operation with one error, which the table names for the command. -/
theorem Accounted.bind_of_table {α : Type} {m : Except ErrorKind α} {f : α → Except ErrorKind State} {k : ErrorKind}
    (hm : ∀ e, m = .error e → e = k) (hf : ∀ a, Accounted i s (f a)) (hk : mayRaise k.code i = true := by rfl)
    (hne : k ≠ .emptyRegister := by decide) : Accounted i s (m >>= f) :=
  .bind (fun e he => hm e he ▸ .of_table hk hne) hf

theorem Accounted.readV {q : VReg} {f : Value → Except ErrorKind State} (hf : ∀ a, Accounted i s (f a))
    (hq : q ∈ vSources i := by simp [vSources]) : Accounted i s (s.readV q >>= f) := by
  refine .bind (fun e he => ?_) hf
  obtain ⟨hempty, rfl⟩ := (s.readV_error_iff q e).1 he
  have htable : mayRaise ErrorKind.emptyRegister.code i = !(vSources i).isEmpty := rfl
  refine ⟨.inl ?_, fun _ => ⟨q, hq, hempty⟩⟩
  rw [htable, List.isEmpty_eq_false_iff.2 (List.ne_nil_of_mem hq), Bool.not_false]

theorem Accounted.writeV (d : VReg) (r : Reported) (h : mayRaise 9 i = true := by rfl) :
    Accounted i s (s.writeV d r) := by
  unfold State.writeV
  split
  · exact .ok (slice_statusOk_err _ _)
  · exact .error (.of_table h)

theorem Accounted.writeV2 (q r : VReg) (a b : Reported) (h : mayRaise 9 i = true := by rfl) :
    Accounted i s (s.writeV2 q r a b) := by
  unfold State.writeV2
  split
  · exact .ok (slice_statusOk_err _ _)
  · exact .error (.of_table h)

theorem Accounted.putX (d : XReg) (z : Int) : Accounted i s (.ok (s.putX d z)) := .ok (slice_statusOk_err _ _)

theorem Accounted.writeCount (d : XReg) (n : Nat) (h : mayRaise 9 i = true := by rfl) :
    Accounted i s (s.writeCount d n) := by
  unfold State.writeCount
  split
  · exact .putX d n
  · exact .error (.of_table h)

theorem Accounted.writeBuf (b : List Byte) (h : mayRaise 9 i = true := by rfl) : Accounted i s (s.writeBuf b) := by
  unfold State.writeBuf
  split
  · exact .ok (slice_statusOk_err _ _)
  · exact .error (.of_table h)

end Accounted

/-- The terms that are no command (R94, R97). -/
theorem explained_const_of_poolConst_none {vd : VReg} {k : BitVec 16} (h : poolConst k = none) (s : State) :
    Explained (.const vd k) s .illegalCommand := by
  have hk : ¬k.toNat ≤ 3 := by
    intro hle
    unfold poolConst at h
    interval_cases k.toNat <;> nomatch h
  exact ⟨.inr ⟨rfl, decide_eq_false hk⟩, fun he => (nomatch he)⟩

theorem explained_divrem_of_same (vq va vb : VReg) (s : State) :
    Explained (.divrem vq vq va vb) s .illegalCommand :=
  ⟨.inr ⟨rfl, bne_self_eq_false vq⟩, fun he => (nomatch he)⟩

/-- Every command, with the row of the table of causes for each error it can raise. -/
theorem exec_accounted (i : Instr) (s : State) : ∃ r, exec i s = finish i s r ∧ Accounted i s r := by
  cases i
  case nop => exact ⟨_, Eq.refl (finish .nop s (.ok _)), .ok (slice_statusOk_err _ _)⟩
  case free d => exact ⟨_, Eq.refl (finish (.free d) s (.ok _)), .ok (slice_statusOk_err _ _)⟩
  case xli d imm => exact ⟨_, Eq.refl (finish (.xli d imm) s (.ok _)), .putX _ _⟩
  all_goals refine ⟨_, rfl, ?_⟩
  case const =>
    split
    · exact .writeV _ _
    · rename_i h
      exact .error (explained_const_of_poolConst_none h s)
  case frombytes => exact .bind_of_table (fun e he => ((norm_error_iff _ e).1 he).2) fun _ => .writeV _ _
  case fromwords =>
    split
    · exact .error .of_table
    split
    · exact .error .of_table
    · exact .bind_of_table (fun e he => ((norm_error_iff _ e).1 he).2) fun _ => .writeV _ _
  case fromint64 => exact .writeV _ _
  case mov | neg | abs | not | shl | shr => exact .readV fun _ => .writeV _ _
  case pow =>
    exact .readV fun _ => .bind_of_table (fun e he => ((powValue_error_iff _ _ e).1 he).2) fun _ => .writeV _ _
  case setbit | clrbit | flipbit =>
    exact .readV fun _ => .bind_of_table (fun e he => ((bitPosition_error_iff _ e).1 he).2) fun _ => .writeV _ _
  case testbit =>
    exact .readV fun _ => .bind_of_table (fun e he => ((bitPosition_error_iff _ e).1 he).2) fun _ => .putX _ _
  case min | max | add | sub | mul | and | or | xor | andnot => exact .readV fun _ => .readV fun _ => .writeV _ _
  case cmp => exact .readV fun _ => .readV fun _ => .putX _ _
  case div | rem =>
    exact .readV fun _ => .readV fun _ =>
      .bind_of_table (fun e he => ((divrem_error_iff _ _ e).1 he).2) fun _ => .writeV _ _
  case mod =>
    exact .readV fun _ => .readV fun _ =>
      .bind_of_table (fun e he => ((modValues_error_iff _ _ e).1 he).2) fun _ => .writeV _ _
  case divrem vq vr va vb =>
    split
    · rename_i h
      subst h
      exact .error (explained_divrem_of_same vq va vb s)
    · exact .readV fun _ => .readV fun _ =>
        .bind_of_table (fun e he => ((divrem_error_iff _ _ e).1 he).2) fun _ => .writeV2 _ _ _ _
  case tobytes => exact .readV fun _ => .writeBuf _
  case tozfbytes =>
    refine .readV fun _ => ?_
    split
    · exact .error .of_table
    · exact .writeBuf _
  case bitlen | bitcnt | maglen => exact .readV fun _ => .writeCount _ _
  case signum => exact .readV fun _ => .putX _ _
  case magwf | magwr =>
    exact .readV fun _ => .bind_of_table (fun e he => ((wordIndex_error_iff _ _ e).1 he).2) fun _ => .putX _ _
  case wordat =>
    exact .readV fun _ => .bind_of_table (fun e he => ((viewIndex_error_iff _ e).1 he).2) fun _ => .putX _ _

/-- A command that ends with an error ends with one that is explained. -/
theorem explained_of_errField_ne_zero {i : Instr} {s t : State} (h : exec i s = .next t) (herr : errField t ≠ 0) :
    ∃ e, errField t = e.code ∧ Explained i s e := by
  obtain ⟨r, hr, hok, herror⟩ := exec_accounted i s
  rw [hr, finish_next_iff] at h
  rcases h with h | ⟨e, he, rfl⟩
  · exact absurd (hok t h) herr
  · exact ⟨e, errField_raise s e _, herror e he⟩

theorem eq_emptyRegister_of_code {e : ErrorKind} (h : e.code = 8) : e = .emptyRegister := by
  cases e
  case emptyRegister => rfl
  all_goals exact absurd h (by decide)

end Sys2Proof.Machine

namespace Sys2Proof.Proofs

open Sys2Proof.Machine Sys2Proof.Claims

/-- Settles O8: a command answers the end of a result, an access is served by a command or by an update that cannot
fail, and a step serves an access or nothing. -/
theorem everyStepCompletes : Obligations.EveryStepCompletes := by
  refine ⟨exec_next, serve_next, fun s => ?_⟩
  cases h : s.inputs with
  | nil => exact ⟨s, step_of_inputs_nil h⟩
  | cons a rest => exact step_of_inputs_cons h ▸ serve_next a (s.take rest)

/-- Settles O5: the word is taken by no row, so it does not decode. -/
theorem illegalWordOnlyReports : Obligations.IllegalWordOnlyReports := by
  intro c s h
  obtain ⟨e, he⟩ := decode_error_of_no_row h
  rw [serve_write_cmd, runCommand_of_error he]
  rfl

/-- Settles O13: a normal end reports no error and keeps the error record, and the error entry reports one. -/
theorem errorEntryChangesNothingElse : Obligations.ErrorEntryChangesNothingElse := by
  intro c s t h
  rcases runCommand_cases_of_word h with ⟨i, hends⟩ | ⟨e, he, rfl⟩
  · exact ⟨fun _ => hends.keepsErrors, fun hne => absurd hends.errField_eq_zero hne⟩
  · refine ⟨fun h0 => absurd h0 (errField_raise_ne_zero s e c), fun _ => ?_⟩
    rw [errField_raise]
    exact ⟨he, rfl⟩

/-- Settles O15: every command reads its `V` sources first, and nothing but such a read raises `EmptyRegister`. -/
theorem emptySourceReported : Obligations.EmptySourceReported := by
  constructor
  · intro c i s hc hempty
    rw [exec_of_empty_source (encode_of_decode hc).2 hempty, finish_error_of_decode hc]
    rfl
  · intro i s t h h8
    obtain ⟨e, he, -, hempty⟩ := explained_of_errField_ne_zero h (by rw [h8]; decide)
    exact hempty (eq_emptyRegister_of_code (he.symm.trans h8))

/-- Settles O16: the errors of a command are explained, and a word that decodes is a command. -/
theorem errorsRaisedByTheirCommands : Obligations.ErrorsRaisedByTheirCommands := by
  intro c i s t hc h herr
  obtain ⟨e, he, htable | ⟨-, hill⟩, -⟩ := explained_of_errField_ne_zero h herr
  · rw [he]
    exact htable
  · exact absurd hill (by simp [(encode_of_decode hc).2])

end Sys2Proof.Proofs
end

section
/-! SUPPORT. The housekeeping commands NOP, CONST, MOV, FREE and XLI (49_housekeeping.md R280 to R284). -/

namespace Sys2Proof.Machine

open Sys2Proof.Claims

/-- Every machine has room for a value of two words (R6). -/
theorem fitsWords_of_length_le_two {s : State} {a : Value} (hs : s.legal = true) (h : a.mag.length ≤ 2) :
    fitsWords s a = true := by
  obtain ⟨hparams, -⟩ := (State.legal_iff s).1 hs
  rw [fitsWords, Option.all_eq_true]
  exact fun m hm => decide_eq_true (h.trans (((Params.legal_iff _).1 hparams).1 m hm))

theorem length_mag_of_poolConst {k : BitVec 16} {a : Value} (h : poolConst k = some a) : a.mag.length ≤ 2 := by
  unfold poolConst at h
  split at h <;> cases h <;> decide

/-- R281: a constant of the pool is written, and always fits. -/
theorem exec_const_of_pool {s : State} {k : BitVec 16} {a : Value} (hs : s.legal = true) (vd : VReg)
    (h : poolConst k = some a) : exec (.const vd k) s = .next (afterV s vd a .const) := by
  rw [exec, execConst, h]
  exact finish_writeV_of_fits (fitsWords_of_length_le_two hs (length_mag_of_poolConst h)) _ _ _

theorem exec_mov_of_some {s : State} {va : VReg} {a : Value} (ha : s.vReg va = some a) (vd : VReg) :
    exec (.mov vd va) s = finish (.mov vd va) s (s.writeV vd { value := a, src := .sameA }) := by
  rw [exec, execMov, State.readV_of_some ha, ok_bind]

/-- `sext_16` by the value of the immediate (R8, R94). -/
theorem sext16_eq (imm : BitVec 16) :
    sext16 imm = if imm.toNat < 2 ^ 15 then (imm.toNat : Int) else (imm.toNat : Int) - 2 ^ 16 := by
  rw [sext16, BitVec.toInt_eq_toNat_cond]
  split <;> split <;> omega

/-- A normal end leaves a register that held a value `EMPTY` only if the command is `FREE` of it (R283). -/
theorem Ends.eq_free_of_emptied {i : Instr} {s t : State} {r : VReg} (h : Ends i s t) (hs : s.vReg r ≠ none)
    (ht : t.vReg r = none) : i = .free r := by
  cases h with
  | nothing | scalar | bytes => exact absurd ht hs
  | emptied d hi =>
    rw [State.freeV_vReg] at ht
    split at ht
    · rename_i hd
      exact hd ▸ hi
    · exact absurd ht hs
  | value d a src =>
    rw [State.putV_vReg] at ht
    split at ht
    · nomatch ht
    · exact absurd ht hs
  | values p q va vb a b sa sb =>
    have hput : (s.putV2 p q a b sa sb).vReg r = none := ht
    rw [State.putV2_vReg] at hput
    split at hput
    · nomatch hput
    split at hput
    · nomatch hput
    · exact absurd hput hs

end Sys2Proof.Machine

namespace Sys2Proof.Proofs

open Sys2Proof.Machine Sys2Proof.Claims

/-- Settles O17: `NOP` is its own definition, and the value moved fits because a register held it. -/
theorem nopAndMovReport : Obligations.NopAndMovReport := by
  refine ⟨fun s => rfl, fun vd va s a hs ha => ?_⟩
  rw [exec_mov_of_some ha, finish_writeV_of_fits (canonical_and_fits_of_legal hs ha).2]

/-- Settles O18: the four constants of the pool, and the sign extension of the immediate. -/
theorem immediatesLoad : Obligations.ImmediatesLoad := by
  refine ⟨fun vd s hs => ⟨exec_const_of_pool hs vd rfl, exec_const_of_pool hs vd rfl, exec_const_of_pool hs vd rfl,
    exec_const_of_pool hs vd rfl⟩, fun xd imm s => ?_⟩
  rw [← sext16_eq]
  rfl

/-- Settles O19: `FREE` is its own definition; of the ways a command can end no other empties a register. -/
theorem onlyFreeEmpties : Obligations.OnlyFreeEmpties := by
  refine ⟨fun vd s => rfl, fun i s t r h hs ht => ?_⟩
  rcases exec_cases h with hends | ⟨e, -, rfl⟩
  · exact hends.eq_free_of_emptied hs ht
  · exact absurd ht hs

end Sys2Proof.Proofs
end

section
/-! SUPPORT. The number of significant bits of an integer, the bit length as that number, and the sizes that hold a
value (47_export.md R250, R253). -/

namespace Sys2Proof.Machine

open Sys2Proof.Claims

/-! ### Significant bits -/

theorem sigBits_le_iff (n k : Nat) : sigBits n ≤ k ↔ n < 2 ^ k := by
  unfold sigBits
  split
  · rename_i h
    simp [h]
  · rename_i h
    exact Nat.log2_lt h

/-- The number of bits is fixed by the powers of two around the number. -/
theorem sigBits_eq_of_bounds {n k : Nat} (hlo : 2 ^ k ≤ n) (hhi : n < 2 ^ (k + 1)) : sigBits n = k + 1 := by
  have hle := (sigBits_le_iff n (k + 1)).2 hhi
  have hgt := mt (sigBits_le_iff n k).1 (Nat.not_lt.2 hlo)
  omega

theorem sigBits_two_pow_sub_one (k : Nat) : sigBits (2 ^ k - 1) = k := by
  have hpos := Nat.two_pow_pos k
  refine Nat.le_antisymm ((sigBits_le_iff _ _).2 (by omega)) (Nat.le_of_not_lt fun h => ?_)
  obtain ⟨j, rfl⟩ : ∃ j, k = j + 1 := ⟨k - 1, by omega⟩
  have hlt := (sigBits_le_iff _ j).1 (Nat.le_of_lt_succ h)
  have := Nat.two_pow_pos j
  rw [Nat.pow_succ] at hlt
  omega

/-- One less than a number that is no power of two has as many bits. -/
theorem sigBits_sub_one {n : Nat} (hpos : 0 < n) (h : n ≠ 2 ^ (sigBits n - 1)) : sigBits (n - 1) = sigBits n := by
  have hn : sigBits n = n.log2 + 1 := if_neg hpos.ne'
  have hlo := Nat.log2_self_le hpos.ne'
  have hhi : n < 2 ^ (n.log2 + 1) := Nat.lt_log2_self
  rw [hn, Nat.add_sub_cancel] at h
  rw [hn]
  exact sigBits_eq_of_bounds (by omega) (by omega)

/-! ### The bit length (R253) -/

/-- The power of two at the top bit of a magnitude. -/
theorem two_pow_magBits_sub_one (w : Word) (ws : List Word) :
    2 ^ (magBits (w :: ws) - 1) = 2 ^ w.toNat.log2 * wordBase ^ ws.length := by
  rw [magBits_cons, Nat.add_sub_cancel, Nat.add_comm, Nat.pow_add, ← wordBase_pow_eq]

theorem two_pow_magBits_le {w : Word} {ws : List Word} (h : NoLeadingZero (w :: ws)) :
    2 ^ (magBits (w :: ws) - 1) ≤ w.toNat * wordBase ^ ws.length := by
  have hw : w.toNat ≠ 0 := fun h0 => h (congrArg some (BitVec.eq_of_toNat_eq h0))
  rw [two_pow_magBits_sub_one]
  exact Nat.mul_le_mul_right _ (Nat.log2_self_le hw)

theorem magBits_eq_sigBits {ws : List Word} (h : NoLeadingZero ws) : magBits ws = sigBits (magNat ws) := by
  cases ws with
  | nil => rfl
  | cons w ws =>
    have hlo := two_pow_magBits_le h
    have hhi := magNat_lt_two_pow_magBits (w :: ws)
    rw [magBits_cons, Nat.add_sub_cancel] at hlo
    rw [magBits_cons] at hhi
    rw [magBits_cons, sigBits_eq_of_bounds (hlo.trans (magNat_cons w ws ▸ Nat.le_add_right _ _)) hhi]

/-- A sequence that stands for 0 has only zero words. -/
theorem all_zero_of_magNat_eq_zero {ws : List Word} (h : magNat ws = 0) : ws.all (· == 0#32) = true := by
  have hnil : stripZeros ws = [] := by
    by_contra hne
    have hpos := magNat_pos_of_ne_nil (stripZeros_noLeadingZero ws) hne
    rw [magNat_stripZeros] at hpos
    omega
  exact List.all_eq_true.2 (List.dropWhile_eq_nil_iff.1 hnil)

/-- A magnitude that stands for the power of two at its top bit is one. -/
theorem isPowerOfTwo_of_magNat_eq {ws : List Word} (h : NoLeadingZero ws) (hne : ws ≠ [])
    (heq : magNat ws = 2 ^ (magBits ws - 1)) : isPowerOfTwo ws = true := by
  obtain ⟨w, ws, rfl⟩ := List.exists_cons_of_ne_nil hne
  have hlo := two_pow_magBits_le h
  have hsum := magNat_cons w ws
  have hlow : magNat ws = 0 := by omega
  have htop : w.toNat * wordBase ^ ws.length = 2 ^ w.toNat.log2 * wordBase ^ ws.length := by
    rw [← two_pow_magBits_sub_one, ← heq, hsum, hlow, Nat.add_zero]
  rw [isPowerOfTwo, Bool.and_eq_true, beq_iff_eq]
  exact ⟨Nat.eq_of_mul_eq_mul_right (Nat.pow_pos wordBase_pos) htop, all_zero_of_magNat_eq_zero hlow⟩

theorem signStripped_of_not_negative {a : Value} (ha : a.canonical = true) (h : a.sign ≠ .negative) :
    signStripped a.val = magNat a.mag := by
  rw [val_of_not_negative ha h, signStripped, if_pos (Int.natCast_nonneg _), Int.toNat_natCast]

theorem signStripped_of_negative {a : Value} (ha : a.canonical = true) (h : a.sign = .negative) :
    signStripped a.val = magNat a.mag - 1 := by
  have hpos := magNat_pos_of_canonical ha (by simp [h])
  rw [val_of_negative h, signStripped, if_neg (by omega)]
  omega

/-- R253: the bit length is the number of significant bits of the value with its sign stripped. -/
theorem bitlen_eq_sigBits {a : Value} (ha : a.canonical = true) : bitlen a = sigBits (signStripped a.val) := by
  have hz := noLeadingZero_of_canonical ha
  unfold bitlen
  by_cases hneg : a.sign = .negative
  · rw [signStripped_of_negative ha hneg]
    have hpos := magNat_pos_of_canonical ha (by simp [hneg])
    have hne : a.mag ≠ [] := fun h0 => by simp [h0] at hpos
    split
    · rename_i h
      rw [magNat_of_isPowerOfTwo h.2, sigBits_two_pow_sub_one]
    · rename_i h
      have hpow := mt (isPowerOfTwo_of_magNat_eq hz hne) fun hp => h ⟨hneg, hp⟩
      rw [magBits_eq_sigBits hz] at hpow ⊢
      exact (sigBits_sub_one hpos hpow).symm
  · rw [if_neg fun h => hneg h.1, signStripped_of_not_negative ha hneg, magBits_eq_sigBits hz]

/-! ### The sizes that hold a value (R250) -/

/-- A range around zero, by the bits of the number with its sign stripped. -/
theorem signStripped_lt_two_pow_iff (z : Int) (k : Nat) : signStripped z < 2 ^ k ↔ -2 ^ k ≤ z ∧ z < 2 ^ k := by
  have hcast : ((2 ^ k : Nat) : Int) = 2 ^ k := Nat.cast_pow ..
  unfold signStripped
  split <;> omega

/-- The bytes that hold a value are those that hold its bits and a sign. -/
theorem inBytes_iff_bitlen_lt {a : Value} (ha : a.canonical = true) (n : Nat) :
    inBytes n a.val = true ↔ bitlen a / 8 + 1 ≤ n := by
  obtain _ | n := n
  · exact iff_of_false (nomatch ·) (Nat.not_succ_le_zero _)
  · rw [inBytes_iff, ← signStripped_lt_two_pow_iff, ← sigBits_le_iff, ← bitlen_eq_sigBits ha]
    omega

/-- A size holds a value exactly when it is at least the length of the shortest encoding. -/
theorem inBytes_toNat_iff {a : Value} (ha : a.canonical = true) (size : Int) :
    0 ≤ size ∧ inBytes size.toNat a.val = true ↔ ((bytesOf a).length : Int) ≤ size := by
  rw [inBytes_iff_bitlen_lt ha, length_bytesOf]
  omega

end Sys2Proof.Machine
end

section
/-! SUPPORT. The commands that store, TOBYTES and TOZFBYTES: the padded encoding, their ends and their frame
(47_export.md R250 to R252; 49_housekeeping.md R287; 60_exceptions.md R299, R306). -/

namespace Sys2Proof.Machine

open Sys2Proof.Claims

/-! ### The padded encoding (R252) -/

/-- Beyond the range of the bytes below, a byte of the view is the padding byte. -/
theorem ofInt_byte_eq_padByte {a : Value} (ha : a.canonical = true) {n : Nat} (h : inBytes n a.val = true) :
    BitVec.ofInt 8 (a.val / 256 ^ n) = padByte a := by
  obtain _ | n := n
  · nomatch h
  obtain ⟨hlo, hhi⟩ := (inBytes_iff n a.val).1 h
  have hpow : (256 : Int) ^ (n + 1) = 2 ^ (8 * n + 7) * 2 := by
    rw [← pow_succ, show (256 : Int) = 2 ^ 8 by norm_num, ← pow_mul]
    congr 1
  have hpos : (0 : Int) < 2 ^ (8 * n + 7) := by positivity
  have hneg := val_neg_iff_of_canonical ha
  rw [padByte]
  split
  · rename_i h
    have hquot : a.val / 256 ^ (n + 1) = -1 := by
      rw [Int.ediv_eq_iff_of_pos (by positivity)]
      have := hneg.2 h
      omega
    rw [hquot]
    rfl
  · rename_i h
    rw [Int.ediv_eq_zero_of_lt (not_lt.1 (mt hneg.1 h)) (by omega)]
    rfl

/-- R252: with padding bytes in front, the shortest encoding is the encoding of any size that holds the value. -/
theorem paddedBytes_eq_bigEndian {a : Value} (ha : a.canonical = true) {n : Nat} (h : inBytes n a.val = true) :
    paddedBytes a n = bigEndian n a.val := by
  have hlen := (inBytes_iff_bitlen_lt ha n).1 h
  induction n, hlen using Nat.le_induction with
  | base => rw [← length_bytesOf, paddedBytes_length_bytesOf, length_bytesOf, bytesOf_eq_bigEndian ha]
  | succ n hle ih =>
    have hn := (inBytes_iff_bitlen_lt ha n).2 hle
    have hsub : n + 1 - (bytesOf a).length = n - (bytesOf a).length + 1 := by
      rw [length_bytesOf]
      omega
    rw [bigEndian_succ, ofInt_byte_eq_padByte ha hn, ← ih hn, paddedBytes, hsub, List.replicate_succ, List.cons_append,
      paddedBytes]

/-! ### The commands -/

section Commands

variable {s : State} {va : VReg} {xb : XReg} {a : Value}

theorem exec_tozfbytes_of_short (ha : s.vReg va = some a) (h : (s.xReg xb).toInt < (bytesOf a).length) :
    exec (.tozfbytes va xb) s = finish (.tozfbytes va xb) s (.error .fieldWidthOverflow) := by
  rw [exec, execTozfbytes, State.readV_of_some ha, ok_bind, State.readX, if_pos h]

theorem exec_tozfbytes_of_long (ha : s.vReg va = some a) (h : ((bytesOf a).length : Int) ≤ (s.xReg xb).toInt) :
    exec (.tozfbytes va xb) s =
      finish (.tozfbytes va xb) s (s.writeBuf (paddedBytes a (s.xReg xb).toInt.toNat)) := by
  rw [exec, execTozfbytes, State.readV_of_some ha, ok_bind, State.readX, if_neg (not_lt.2 h)]

theorem finish_writeBuf_of_fits {bytes : List Byte} (h : fitsBytes s bytes.length = true) (i : Instr) :
    finish i s (s.writeBuf bytes) = .next (afterBuf s bytes) := by
  rw [(s.writeBuf_ok_iff bytes _).2 ⟨(fitsIn_bufcap s bytes).trans h, rfl⟩]
  rfl

theorem finish_writeBuf_of_not_fits {bytes : List Byte} (h : fitsBytes s bytes.length = false) {c : Word} {i : Instr}
    (hc : decode c = .ok i) : finish i s (s.writeBuf bytes) = .next (afterError s 9 c) := by
  rw [(s.writeBuf_error_iff bytes _).2 ⟨(fitsIn_bufcap s bytes).trans h, rfl⟩, finish_error_of_decode hc]
  rfl

end Commands

/-! ### The frame of a store (R287) -/

section Frame

variable {i : Instr} {s t : State}

/-- A command that changes no store but the buffer. -/
theorem Ends.frame_of_storesBuf (h : Ends i s t) (hd : storesBuf i = true) :
    t.v = s.v ∧ t.x = s.x ∧ t.brp = 0 ∧ slice t.status 31 8 = 0 := by
  have hv := vDests_eq_nil_of_storesBuf hd
  have hx := xDests_eq_nil_of_storesBuf hd
  cases h with
  | nothing h => subst h; nomatch hd
  | emptied d h => subst h; nomatch hd
  | values q r va vb a b sa sb h => subst h; nomatch hd
  | value d a src h => simp [hv] at h
  | scalar d z h => simp [hx] at h
  | bytes b => exact ⟨rfl, rfl, rfl, slice_statusOk_fresh⟩

/-- A command that leaves no error code ended normally (R28, R300). -/
theorem ok_of_errField_eq_zero {r : Except ErrorKind State} (h : finish i s r = .next t) (herr : errField t = 0) :
    r = .ok t := by
  obtain hok | ⟨e, -, rfl⟩ := (finish_next_iff _ _ _ _).1 h
  · exact hok
  · exact absurd herr (errField_raise_ne_zero s e _)

/-- R251: what `TOBYTES` stored. -/
theorem buf_of_exec_tobytes {va : VReg} (h : exec (.tobytes va) s = .next t) (herr : errField t = 0) :
    ∃ a, s.vReg va = some a ∧ t.buf = bytesOf a := by
  obtain ⟨a, ha, hwrite⟩ := (bind_ok_iff _ _ _).1 (ok_of_errField_eq_zero h herr)
  obtain ⟨-, rfl⟩ := (s.writeBuf_ok_iff _ _).1 hwrite
  exact ⟨a, (s.readV_ok_iff va a).1 ha, rfl⟩

/-- R252: what `TOZFBYTES` stored, for a size that is not too short. -/
theorem buf_of_exec_tozfbytes {va : VReg} {xb : XReg} (h : exec (.tozfbytes va xb) s = .next t)
    (herr : errField t = 0) : ∃ a, s.vReg va = some a ∧ ((bytesOf a).length : Int) ≤ (s.xReg xb).toInt ∧
      t.buf = paddedBytes a (s.xReg xb).toInt.toNat := by
  obtain ⟨a, ha, hwrite⟩ := (bind_ok_iff _ _ _).1 (ok_of_errField_eq_zero h herr)
  split at hwrite
  · nomatch hwrite
  · rename_i hsize
    obtain ⟨-, rfl⟩ := (s.writeBuf_ok_iff _ _).1 hwrite
    exact ⟨a, (s.readV_ok_iff va a).1 ha, not_lt.1 hsize, rfl⟩

end Frame

end Sys2Proof.Machine

namespace Sys2Proof.Proofs

open Sys2Proof.Machine Sys2Proof.Claims

/-- Settles O44: the number of bytes stored is the least that holds the value, and the buffer has room for them. -/
theorem tobytesWritesShortestEncoding : Obligations.TobytesWritesShortestEncoding := by
  intro va s a nb hs ha hnb hleast
  obtain ⟨hcanon, -⟩ := canonical_and_fits_of_legal hs ha
  have hle := (inBytes_iff_bitlen_lt hcanon nb).1 hnb
  have hge : nb ≤ bitlen a / 8 + 1 := by
    by_contra hlt
    nomatch (inBytes_bitlen hcanon).symm.trans (hleast _ (not_le.1 hlt))
  rw [exec_tobytes_of_fits ha (fitsIn_bytesOf_of_legal hs ha), bytesOf_eq_bigEndian hcanon, Nat.le_antisymm hle hge]
  rfl

/-- Settles O45: a size holds the value exactly when it is not shorter than the shortest encoding, and then the padded
bytes are its encoding. -/
theorem tozfbytesWritesSizedEncoding : Obligations.TozfbytesWritesSizedEncoding := by
  intro va xb s a size hs ha hsize
  subst hsize
  obtain ⟨hcanon, -⟩ := canonical_and_fits_of_legal hs ha
  have hholds := inBytes_toNat_iff hcanon (s.xReg xb).toInt
  refine ⟨fun hpos hin hfit => ?_, fun c hc hout => ?_, fun c hc hpos hin hfit => ?_⟩
  · rw [exec_tozfbytes_of_long ha (hholds.1 ⟨hpos, hin⟩), paddedBytes_eq_bigEndian hcanon hin,
      finish_writeBuf_of_fits (by rwa [length_bigEndian])]
  · have hshort : (s.xReg xb).toInt < (bytesOf a).length := by
      by_contra hlong
      obtain ⟨hpos, hin⟩ := hholds.2 (not_lt.1 hlong)
      rcases hout with hneg | hfalse
      · omega
      · nomatch hin.symm.trans hfalse
    rw [exec_tozfbytes_of_short ha hshort, finish_error_of_decode hc]
    rfl
  · rw [exec_tozfbytes_of_long ha (hholds.1 ⟨hpos, hin⟩), paddedBytes_eq_bigEndian hcanon hin,
      finish_writeBuf_of_not_fits (by rwa [length_bigEndian]) hc]

/-- Settles O53: a normal end of a command that stores changes the buffer and its pointer only, and the bytes are those
the command's own rule gives. -/
theorem frameOfStoringCommands : Obligations.FrameOfStoringCommands := by
  intro i s t hd h
  rcases exec_cases h with hends | ⟨e, -, rfl⟩
  · obtain ⟨hv, hx, hbrp, hstatus⟩ := hends.frame_of_storesBuf hd
    obtain ⟨hxsel, hparams, hinputs, hreply, hfree⟩ := hends.context
    obtain ⟨herrlog, herrcmd⟩ := hends.keepsErrors
    have herr := hends.errField_eq_zero
    refine ⟨fun r => by rw [State.vReg, hv]; rfl, fun r => by rw [State.xReg, hx]; rfl, hxsel, hparams, hinputs, hreply,
      hfree, hstatus, fun _ => ⟨herrlog, herrcmd, hbrp, ?_, ?_⟩, absurd herr⟩
    · rintro va rfl
      exact buf_of_exec_tobytes h herr
    · rintro va xb rfl
      obtain ⟨a, ha, hsize, hbuf⟩ := buf_of_exec_tozfbytes h herr
      exact ⟨a, ha, hsize, hbuf, hbuf ▸ length_paddedBytes (by omega)⟩
  · have herr := errField_raise_ne_zero s e (encode i)
    exact ⟨fun _ => rfl, fun _ => rfl, rfl, rfl, rfl, rfl, rfl, slice_statusError_above e 31 8 le_rfl, (absurd · herr),
      fun _ => ⟨rfl, fun _ => rfl⟩⟩

end Sys2Proof.Proofs
end

section
/-! SUPPORT. The lengths and the counts: MAGLEN, SIGNUM, BITLEN and BITCNT (47_export.md R253 to R255; 48_accessor.md
R266, R267; 60_exceptions.md R299). -/

namespace Sys2Proof.Machine

open Sys2Proof.Claims

/-! ### The bit count (R255) -/

/-- The number of 1 bits of `m` at the places `k` to `k + n - 1`. -/
def onesFrom (m k n : Nat) : Nat := (List.range n).countP fun j => m.testBit (k + j)

theorem onesFrom_add (m k n d : Nat) : onesFrom m k (n + d) = onesFrom m k n + onesFrom m (k + n) d := by
  simp [onesFrom, List.range_add, List.countP_append, List.countP_map, Function.comp_def, Nat.add_assoc]

/-- No bit is 1 beyond the significant ones. -/
theorem onesFrom_eq_zero {m k : Nat} (h : sigBits m ≤ k) (n : Nat) : onesFrom m k n = 0 := by
  have hm := (sigBits_le_iff m k).1 h
  refine List.countP_eq_zero.2 fun j _ => ?_
  rw [Nat.testBit_lt_two_pow (hm.trans_le (Nat.pow_le_pow_right Nat.two_pos (Nat.le_add_right k j)))]
  decide

/-- The 1 bits may be counted over any number of places that the number fits in. -/
theorem oneBits_eq_onesFrom {m n : Nat} (h : m < 2 ^ n) : oneBits m = onesFrom m 0 n := by
  obtain ⟨d, rfl⟩ := Nat.exists_eq_add_of_le ((sigBits_le_iff m n).2 h)
  rw [onesFrom_add, onesFrom_eq_zero (Nat.le_add_left _ _), oneBits, onesFrom, List.countP_eq_length_filter]
  simp

theorem popcount_ofNat (m i : Nat) : popcount (BitVec.ofNat 32 (m / wordBase ^ i)) = onesFrom m (32 * i) 32 := by
  rw [popcount, onesFrom, List.countP_eq_length_filter]
  refine congrArg List.length (List.filter_congr fun j hj => ?_)
  rw [BitVec.getLsbD_ofNat, decide_eq_true (List.mem_range.1 hj), Bool.true_and, wordBase_pow_eq,
    Nat.testBit_div_two_pow, Nat.add_comm]

theorem sum_popcount_ofNat (m n : Nat) :
    ((List.range n).map fun i => popcount (BitVec.ofNat 32 (m / wordBase ^ i))).sum = onesFrom m 0 (32 * n) := by
  induction n with
  | zero => rfl
  | succ n ih =>
    rw [List.range_succ, List.map_append, List.sum_append, ih, Nat.mul_add_one, onesFrom_add, Nat.zero_add,
      List.map_singleton, List.sum_singleton, popcount_ofNat]

/-- The floor of one less than the opposite. -/
theorem neg_sub_one_ediv (z : Int) {n : Int} (hn : 0 < n) : (-z - 1) / n = -(z / n) - 1 := by
  have hz := Int.ediv_mul_add_emod z n
  have hlo := Int.emod_nonneg z hn.ne'
  have hhi := Int.emod_lt_of_pos z hn
  rw [Int.ediv_eq_iff_of_pos hn]
  constructor <;> linarith

/-- R255: a word of the view, complemented for a negative value, is a word of the value with its sign stripped. -/
theorem strippedWord_eq_ofNat {a : Value} (ha : a.canonical = true) (i : Nat) :
    (if a.sign = .negative then ~~~wordAt a i else wordAt a i) =
      BitVec.ofNat 32 (signStripped a.val / wordBase ^ i) := by
  have hneg := val_neg_iff_of_canonical ha
  have hcast : ((signStripped a.val / wordBase ^ i : Nat) : Int) = signStripped a.val / (wordBase : Int) ^ i := by
    push_cast
    rfl
  rw [wordAt_eq_ofInt ha, ← BitVec.ofInt_natCast, hcast, signStripped]
  split
  · rename_i h
    have hval : ((-a.val - 1).toNat : Int) = -a.val - 1 := Int.toNat_of_nonneg (by have := hneg.2 h; omega)
    rw [if_neg (not_le.2 (hneg.2 h)), hval, neg_sub_one_ediv _ (by positivity), sub_eq_add_neg,
      BitVec.ofInt_add, BitVec.ofInt_neg, BitVec.not_eq_neg_add, BitVec.sub_eq_add_neg]
    rfl
  · rename_i h
    have hpos := not_lt.1 (mt hneg.1 h)
    rw [if_pos hpos, Int.toNat_of_nonneg hpos]

/-- R255: the bit count is the number of 1 bits of the value with its sign stripped. -/
theorem bitcount_eq_oneBits {a : Value} (ha : a.canonical = true) : bitcount a = oneBits (signStripped a.val) := by
  have hfit : signStripped a.val < 2 ^ (32 * a.len) := by
    rw [← sigBits_le_iff, ← bitlen_eq_sigBits ha]
    exact (bitlen_le_magBits a).trans (magBits_le a.mag)
  rw [bitcount, oneBits_eq_onesFrom hfit, ← sum_popcount_ofNat]
  simp only [strippedWord_eq_ofNat ha]

/-! ### The commands -/

/-- The two ends of a command that writes a length or a count (R299). -/
theorem exec_counts_or_overflows {i : Instr} {s : State} {xd : XReg} {n : Nat}
    (h : exec i s = finish i s (s.writeCount xd n)) :
    (n < 2 ^ 63 → exec i s = .next (afterX s xd n)) ∧
    (∀ c, decode c = .ok i → 2 ^ 63 ≤ n → exec i s = .next (afterError s 9 c)) := by
  constructor
  · intro hn
    rw [h, (s.writeCount_ok_iff xd n _).2 ⟨hn, rfl⟩]
    rfl
  · intro c hc hn
    rw [h, (s.writeCount_error_iff xd n _).2 ⟨hn, rfl⟩, finish_error_of_decode hc]
    rfl

section Commands

variable {s : State} {va : VReg} {a : Value} (ha : s.vReg va = some a) (xd : XReg)

include ha

theorem exec_maglen_of_some : exec (.maglen xd va) s = finish (.maglen xd va) s (s.writeCount xd a.mag.length) := by
  rw [exec, execMaglen, State.readV_of_some ha, ok_bind, Value.len]

theorem exec_signum_of_some : exec (.signum xd va) s = .next (s.putX xd a.sign.num) := by
  rw [exec, execSignum, State.readV_of_some ha, ok_bind, finish_ok]

theorem exec_bitlen_of_some : exec (.bitlen xd va) s = finish (.bitlen xd va) s (s.writeCount xd (bitlen a)) := by
  rw [exec, execBitlen, State.readV_of_some ha, ok_bind]

theorem exec_bitcnt_of_some : exec (.bitcnt xd va) s = finish (.bitcnt xd va) s (s.writeCount xd (bitcount a)) := by
  rw [exec, execBitcnt, State.readV_of_some ha, ok_bind]

end Commands

section Legal

variable {s : State} {va : VReg} {a : Value} (hs : s.legal = true) (ha : s.vReg va = some a) (xd : XReg)

include hs ha

theorem exec_bitlen_of_legal :
    exec (.bitlen xd va) s = finish (.bitlen xd va) s (s.writeCount xd (sigBits (signStripped a.val))) := by
  rw [exec_bitlen_of_some ha, bitlen_eq_sigBits (canonical_and_fits_of_legal hs ha).1]

theorem exec_bitcnt_of_legal :
    exec (.bitcnt xd va) s = finish (.bitcnt xd va) s (s.writeCount xd (oneBits (signStripped a.val))) := by
  rw [exec_bitcnt_of_some ha, bitcount_eq_oneBits (canonical_and_fits_of_legal hs ha).1]

end Legal

end Sys2Proof.Machine

namespace Sys2Proof.Proofs

open Sys2Proof.Machine Sys2Proof.Claims

/-- Settles O47: on the canonical value that a legal state holds the bit length and the bit count are those of the
number with its sign stripped, and they are written below `2^63`, whatever `MAXW` is. -/
theorem bitlenBitcntCountBits : Obligations.BitlenBitcntCountBits := by
  intro xd va s a hs ha
  obtain ⟨hlen, hlenOver⟩ := exec_counts_or_overflows (exec_bitlen_of_legal hs ha xd)
  obtain ⟨hcnt, hcntOver⟩ := exec_counts_or_overflows (exec_bitcnt_of_legal hs ha xd)
  exact ⟨hlen, hcnt, fun c hc _ => hlenOver c hc, fun c hc _ => hcntOver c hc⟩

/-- Settles O48: `MAGLEN`, `BITLEN` and `BITCNT` test their number whatever `MAXW` is. -/
theorem hugeCountsOverflow : Obligations.HugeCountsOverflow := by
  intro xd va s a c hs ha
  exact ⟨(exec_counts_or_overflows (exec_maglen_of_some ha xd)).2 c,
    (exec_counts_or_overflows (exec_bitlen_of_legal hs ha xd)).2 c,
    (exec_counts_or_overflows (exec_bitcnt_of_legal hs ha xd)).2 c⟩

/-- Settles O49: the length is tested, and the sign tag of a canonical value is the sign of its integer. -/
theorem maglenSignumReadTag : Obligations.MaglenSignumReadTag := by
  intro xd va s a hs ha
  obtain ⟨hlen, hover⟩ := exec_counts_or_overflows (exec_maglen_of_some ha xd)
  refine ⟨hlen, fun c hc _ => hover c hc, ?_⟩
  rw [exec_signum_of_some ha, sign_num_eq (canonical_and_fits_of_legal hs ha).1]
  rfl

end Sys2Proof.Proofs
end

section
/-! SUPPORT. The commands that read a stored word by its index, MAGWF and MAGWR (48_accessor.md R268, R269;
60_exceptions.md R307). -/

namespace Sys2Proof.Machine

open Sys2Proof.Claims

/-- `rev(a, r)` is the word at place `r` from the least-significant end (R9). -/
theorem rev_of_getElem?_reverse {a : Value} {r : Nat} {w : Word} (h : a.mag.reverse[r]? = some w) : a.rev r = w := by
  obtain ⟨hr, hw⟩ := List.getElem?_eq_some_iff.1 h
  rw [List.getElem_reverse] at hw
  rw [List.length_reverse] at hr
  rw [Value.rev, Value.len, List.getD_eq_getElem _ _ (by omega), hw]

section Commands

variable {s : State} {va : VReg} {a : Value} (ha : s.vReg va = some a) (xd xb : XReg)

include ha

theorem exec_magwf_of_some : exec (.magwf xd va xb) s = finish (.magwf xd va xb) s
    (wordIndex (s.xReg xb).toInt a.mag.length >>= fun f => .ok (s.putX xd (zext32 (a.mag.getD f 0#32)))) := by
  rw [exec, execMagwf, State.readV_of_some ha, ok_bind]
  rfl

theorem exec_magwr_of_some : exec (.magwr xd va xb) s = finish (.magwr xd va xb) s
    (wordIndex (s.xReg xb).toInt a.mag.length >>= fun r => .ok (s.putX xd (zext32 (a.rev r)))) := by
  rw [exec, execMagwr, State.readV_of_some ha, ok_bind]
  rfl

end Commands

/-- An index that finds a word is one the commands accept (R268, R269). -/
theorem wordIndex_of_getElem? {ws : List Word} {i : Int} {w : Word} (hi : 0 ≤ i) (h : ws[i.toNat]? = some w) :
    wordIndex i ws.length = .ok i.toNat := by
  have hlt := (List.getElem?_eq_some_iff.1 h).1
  exact (wordIndex_ok_iff i _ _).2 ⟨⟨hi, by omega⟩, rfl⟩

/-- R307: an index outside the sequence. -/
theorem finish_wordIndex_of_outside {s : State} {c : Word} {i : Instr} {k : Int} {n : Nat}
    (h : k < 0 ∨ (n : Int) ≤ k) (hc : decode c = .ok i) (f : Nat → Except ErrorKind State) :
    finish i s (wordIndex k n >>= f) = .next (afterError s 10 c) := by
  rw [(wordIndex_error_iff k n _).2 ⟨h, rfl⟩, error_bind, finish_error_of_decode hc]
  rfl

end Sys2Proof.Machine

namespace Sys2Proof.Proofs

open Sys2Proof.Machine Sys2Proof.Claims

/-- Settles O50: the word at the index, from either end, and an index outside the sequence. -/
theorem magwfMagwrReadWords : Obligations.MagwfMagwrReadWords := by
  intro xd va xb s a i ha hi
  subst hi
  have hwf := exec_magwf_of_some ha xd xb
  have hwr := exec_magwr_of_some ha xd xb
  refine ⟨fun hpos w hw => ?_, fun hpos w hw => ?_, fun c hc hout => ?_, fun c hc hout => ?_⟩
  · rw [hwf, wordIndex_of_getElem? hpos hw, ok_bind, List.getD_eq_getElem?_getD, hw]
    rfl
  · have hlen := List.length_reverse (as := a.mag)
    rw [hwr, ← hlen, wordIndex_of_getElem? hpos hw, ok_bind, rev_of_getElem?_reverse hw]
    rfl
  · exact hwf.trans (finish_wordIndex_of_outside hout hc _)
  · exact hwr.trans (finish_wordIndex_of_outside hout hc _)

end Sys2Proof.Proofs
end
